-- ==== Sys2Proof/Word.lean ====
section
/-! DEFINITION. The words of the VI voice core: the 32-bit word of both address spaces, the 64-bit command word, and
`NUM`, the binary32 value (00_scope.md R7, R13). -/

namespace Sys2Proof

/-- The unit of both address spaces (20_memory.md R85, R87). -/
abbrev Word := BitVec 32

/-- A command word (30_encoding.md R110). -/
abbrev Word64 := BitVec 64

/-- The spec's `NUM`: an IEEE 754 binary32 value, held as its 32 bits (00_scope.md R7, R13): bit 31 the sign, bits 30:23
the biased exponent, bits 22:0 the fraction. A type of its own, so that no integer operation is taken for a
floating-point one. -/
structure Num32 where
  bits : Word
deriving DecidableEq, Repr, Inhabited

/-- `f32(w)`: a word read as a binary32 value (00_scope.md R13). -/
def f32 (w : Word) : Num32 := ⟨w⟩

/-- `bits32(v)`, the inverse of `f32` (00_scope.md R13). -/
def bits32 (v : Num32) : Word := v.bits

@[simp] theorem bits32_f32 (w : Word) : bits32 (f32 w) = w := rfl

@[simp] theorem f32_bits32 (v : Num32) : f32 (bits32 v) = v := rfl

end Sys2Proof
end

