-- ==== Sys2Proof/Machine/Float.lean ====
section
/-! DEFINITION. Binary32: the parts of a value, its exact magnitude, the one rounding (nearest, ties to even) and the
ordered comparisons (00_scope.md R7, R8, R13). Every finite binary32 value is an integer multiple of 2^-149, so exact
arithmetic on values is arithmetic on integers. -/

namespace Sys2Proof

/-- Bit 31: the sign (00_scope.md R13). -/
def Num32.sign (x : Num32) : Bool := decide (2 ^ 31 ≤ x.bits.toNat)

/-- Bits 30:23: the biased exponent (00_scope.md R13). -/
def Num32.expo (x : Num32) : Nat := x.bits.toNat / 2 ^ 23 % 2 ^ 8

/-- Bits 22:0: the fraction (00_scope.md R13). -/
def Num32.frac (x : Num32) : Nat := x.bits.toNat % 2 ^ 23

/-- A NaN: exponent all ones, fraction not zero (IEEE 754 binary32, 00_scope.md R7). -/
def Num32.isNaN (x : Num32) : Bool := x.expo == 255 && x.frac != 0

/-- An infinity: exponent all ones, fraction zero. -/
def Num32.isInf (x : Num32) : Bool := x.expo == 255 && x.frac == 0

/-- Finite: neither a NaN nor an infinity. -/
def Num32.isFinite (x : Num32) : Bool := x.expo != 255

/-- The magnitude of a finite value in units of 2^-149 (subnormals kept, R8). On an infinity it gives 2^277, which is
above every finite magnitude, so that one order serves both. -/
def Num32.mag (x : Num32) : Nat :=
  if x.expo = 0 then x.frac else (2 ^ 23 + x.frac) * 2 ^ (x.expo - 1)

/-- The signed value in units of 2^-149. -/
def Num32.val (x : Num32) : Int := if x.sign then -(x.mag : Int) else (x.mag : Int)

/-- A zero of either sign. -/
def Num32.isZero (x : Num32) : Bool := x.mag == 0

/-- The binary32 value with the given sign and the given bits 30:0. -/
def packNum (neg : Bool) (m : Nat) : Num32 := ⟨BitVec.ofNat 32 ((if neg then 2 ^ 31 else 0) + m)⟩

/-- Bits 30:0 of an infinity. -/
def infMag : Nat := 255 * 2 ^ 23

/-- The one rounding of the spec (00_scope.md R8): bits 30:0 of the binary32 magnitude nearest to the exact
`n / d` units of 2^-149 (`d ≠ 0`), ties to the even significand, overflow to infinity. With `k` the exponent that leaves
a significand of at most 24 bits, the encoded magnitude is `k * 2^23 + significand`, also when the significand rounds up
to 2^24 and when it is subnormal. -/
def roundMag (n d : Nat) : Nat :=
  let k := Nat.log2 (n / d) - 23
  let unit := d * 2 ^ k
  let q := n / unit
  let r := n % unit
  let up := if unit < 2 * r ∨ (2 * r = unit ∧ q % 2 = 1) then 1 else 0
  min (k * 2 ^ 23 + (q + up)) infMag

/-! The IEEE ordered comparisons (00_scope.md R8): false when either operand is a NaN; the two zeros are equal. -/

/-- `x <= y`. -/
def fle (x y : Num32) : Bool := !x.isNaN && !y.isNaN && decide (x.val ≤ y.val)

/-- `x < y`. -/
def flt (x y : Num32) : Bool := !x.isNaN && !y.isNaN && decide (x.val < y.val)

/-- `x >= y`. -/
def fge (x y : Num32) : Bool := fle y x

/-- `x > y`. -/
def fgt (x y : Num32) : Bool := flt y x

/-- `x == y`. -/
def feq (x y : Num32) : Bool := !x.isNaN && !y.isNaN && decide (x.val = y.val)

end Sys2Proof
end

