-- ==== Sys2Proof/Machine/Constants.lean ====
section
/-! DEFINITION. The named constants of 00_scope.md R12 and the plain literals of the pseudocode, as binary32 values. Each
bit pattern is checked against its decimal value in Sys2Proof/Laws/Constants.lean. -/

namespace Sys2Proof

/-- `+0`. -/
def zero : Num32 := f32 0x00000000#32
def one : Num32 := f32 0x3F800000#32
def minusOne : Num32 := f32 0xBF800000#32
def two : Num32 := f32 0x40000000#32
def minusTwo : Num32 := f32 0xC0000000#32
def five : Num32 := f32 0x40A00000#32
def minusFive : Num32 := f32 0xC0A00000#32
def quarter : Num32 := f32 0x3E800000#32
def half : Num32 := f32 0x3F000000#32
def threeQuarters : Num32 := f32 0x3F400000#32

/-- Divisor of the unison average (41_unison.md R163). -/
def unisonCount : Num32 := f32 0x40400000#32
/-- Semitones per octave, the divisor of 47_voice_renderer.md R254. -/
def semitonesPerOctave : Num32 := f32 0x41400000#32
/-- Cents per octave, the divisor of 41_unison.md R162. -/
def centsPerOctave : Num32 := f32 0x44960000#32

/-- `FS_DEFAULT`, 44100 Hz. -/
def fsDefault : Num32 := f32 0x472C4400#32
/-- `FS_MIN`, 44100 Hz. -/
def fsMin : Num32 := f32 0x472C4400#32
/-- `FS_MAX`, 768000 Hz. -/
def fsMax : Num32 := f32 0x493B8000#32
/-- `CUTOFF_MIN`, 20 Hz. -/
def cutoffMin : Num32 := f32 0x41A00000#32
/-- `CUTOFF_MAX`, 20000 Hz. -/
def cutoffMax : Num32 := f32 0x469C4000#32
/-- `PITCH_RANGE`, 12 semitones. -/
def pitchRange : Num32 := f32 0x41400000#32
/-- `CUTOFF_MOD_RANGE`, 2000 Hz. -/
def cutoffModRange : Num32 := f32 0x44FA0000#32
/-- `SEMI_MAX`, 48 semitones. -/
def semiMax : Num32 := f32 0x42400000#32
/-- `-SEMI_MAX`. -/
def semiMin : Num32 := f32 0xC2400000#32
/-- `DETUNE_MAX`, 100 cents. -/
def detuneMax : Num32 := f32 0x42C80000#32
/-- `Q_MIN`, 0.5. -/
def qMin : Num32 := f32 0x3F000000#32
/-- `Q_MAX`, 16. -/
def qMax : Num32 := f32 0x41800000#32
/-- `Q_DEFAULT`, 1. -/
def qDefault : Num32 := f32 0x3F800000#32
/-- `ENVAMT_MAX`, 20000 Hz. -/
def envAmtMax : Num32 := f32 0x469C4000#32
/-- `-ENVAMT_MAX`. -/
def envAmtMin : Num32 := f32 0xC69C4000#32
/-- `LFO_RATE_MAX`, 20000 Hz. -/
def lfoRateMax : Num32 := f32 0x469C4000#32
/-- `T_MAX`, 60 s. -/
def tMax : Num32 := f32 0x42700000#32
/-- `BASEF_MAX`, 20000 Hz. -/
def basefMax : Num32 := f32 0x469C4000#32
/-- `FOLD_K`, 3. -/
def foldK : Num32 := f32 0x40400000#32
/-- The binary32 quotient 20 / 768000, the lower end of the range of `tanpi` in 00_scope.md R9. -/
def tanpiArgMin : Num32 := f32 0x37DA740E#32
/-- The binary32 quotient 20000 / 44100, the upper end of the range of `tanpi` in 00_scope.md R9. -/
def tanpiArgMax : Num32 := f32 0x3EE83315#32

/-- `NPARAM`: parameter registers, indices 0 to 20. -/
def nParam : Nat := 21
/-- `NCH_MAX`: output channels of one RENDER_BLOCK. -/
def nchMax : Nat := 255

end Sys2Proof
end

