-- ==== Sys2Proof/Syntax.lean ====
section
/-! DEFINITION. The commands as abstract syntax: one constructor per row of spec/opcode_table.json. A field that a command
ignores is no part of it (30_encoding.md R116: two words that differ only in ignored fields are the same command). -/

namespace Sys2Proof

/-- The two ports (30_encoding.md R111). -/
inductive Port where
  /-- The command port `CPORT`. -/
  | cport
  /-- The parameter port `PPORT`. -/
  | pport
deriving DecidableEq, Repr

/-- The 21 parameter registers by name (30_encoding.md R114). -/
inductive Param where
  /-- Index 0, f32 (10_state.md R52). -/
  | oscAShape
  /-- Index 1, f32 (10_state.md R53). -/
  | oscBShape
  /-- Index 2, f32 (10_state.md R54). -/
  | oscASemi
  /-- Index 3, f32 (10_state.md R55). -/
  | oscBSemi
  /-- Index 4, u32 (10_state.md R56). -/
  | unisonMode
  /-- Index 5, f32 (10_state.md R57). -/
  | detuneCents
  /-- Index 6, f32 (10_state.md R58). -/
  | foldDrive
  /-- Index 7, f32 (10_state.md R59). -/
  | filtCutoff
  /-- Index 8, f32 (10_state.md R60). -/
  | filtRes
  /-- Index 9, f32 (10_state.md R61). -/
  | filtEnvAmt
  /-- Index 10, f32 (10_state.md R62). -/
  | lfoRate
  /-- Index 11, f32 (10_state.md R63). -/
  | lfoDepth
  /-- Index 12, u32 (10_state.md R64). -/
  | lfoDest
  /-- Index 13, f32 (10_state.md R65). -/
  | aenvAttack
  /-- Index 14, f32 (10_state.md R66). -/
  | aenvDecay
  /-- Index 15, f32 (10_state.md R67). -/
  | aenvSustain
  /-- Index 16, f32 (10_state.md R68). -/
  | aenvRelease
  /-- Index 17, f32 (10_state.md R69). -/
  | fenvAttack
  /-- Index 18, f32 (10_state.md R70). -/
  | fenvDecay
  /-- Index 19, f32 (10_state.md R71). -/
  | fenvSustain
  /-- Index 20, f32 (10_state.md R72). -/
  | fenvRelease
deriving DecidableEq, Repr

/-- The commands (30_encoding.md R113, R114; spec/opcode_table.json). -/
inductive Instr where
  /-- NOP (48_commands.md R281). -/
  | nop
  /-- PREPARE (R282): `rate` is the field `c`, a binary32 sample rate in Hz. -/
  | prepare (rate : Word)
  /-- SET_PARAM with an index that names no register, 21 to 255 (R283, 30_encoding.md R117); the indices 0 to 20 have the
  rows and constructors of their own below. -/
  | setParam (idx : BitVec 8) (value : Word)
  /-- START_NOTE (R285): `freq` is the field `c`, a binary32 frequency in Hz. -/
  | startNote (freq : Word)
  /-- STOP_NOTE (R286): the bit `a[0]`. -/
  | stopNote (allowTailOff : Bool)
  /-- RENDER_BLOCK (R287): the fields `a`, `b`, `c`. -/
  | renderBlock (nch : BitVec 8) (num : BitVec 16) (start : Word)
  /-- SET_PARAM OSC_A_SHAPE, index 0 (R283, 10_state.md R52). -/
  | setParamOscAShape (value : Word)
  /-- SET_PARAM OSC_B_SHAPE, index 1 (R283, 10_state.md R53). -/
  | setParamOscBShape (value : Word)
  /-- SET_PARAM OSC_A_SEMI, index 2 (R283, 10_state.md R54). -/
  | setParamOscASemi (value : Word)
  /-- SET_PARAM OSC_B_SEMI, index 3 (R283, 10_state.md R55). -/
  | setParamOscBSemi (value : Word)
  /-- SET_PARAM UNISON_MODE, index 4 (R283, 10_state.md R56). -/
  | setParamUnisonMode (value : Word)
  /-- SET_PARAM DETUNE_CENTS, index 5 (R283, 10_state.md R57). -/
  | setParamDetuneCents (value : Word)
  /-- SET_PARAM FOLD_DRIVE, index 6 (R283, 10_state.md R58). -/
  | setParamFoldDrive (value : Word)
  /-- SET_PARAM FILT_CUTOFF, index 7 (R283, 10_state.md R59). -/
  | setParamFiltCutoff (value : Word)
  /-- SET_PARAM FILT_RES, index 8 (R283, 10_state.md R60). -/
  | setParamFiltRes (value : Word)
  /-- SET_PARAM FILT_ENV_AMT, index 9 (R283, 10_state.md R61). -/
  | setParamFiltEnvAmt (value : Word)
  /-- SET_PARAM LFO_RATE, index 10 (R283, 10_state.md R62). -/
  | setParamLfoRate (value : Word)
  /-- SET_PARAM LFO_DEPTH, index 11 (R283, 10_state.md R63). -/
  | setParamLfoDepth (value : Word)
  /-- SET_PARAM LFO_DEST, index 12 (R283, 10_state.md R64). -/
  | setParamLfoDest (value : Word)
  /-- SET_PARAM AENV_ATTACK, index 13 (R283, 10_state.md R65). -/
  | setParamAenvAttack (value : Word)
  /-- SET_PARAM AENV_DECAY, index 14 (R283, 10_state.md R66). -/
  | setParamAenvDecay (value : Word)
  /-- SET_PARAM AENV_SUSTAIN, index 15 (R283, 10_state.md R67). -/
  | setParamAenvSustain (value : Word)
  /-- SET_PARAM AENV_RELEASE, index 16 (R283, 10_state.md R68). -/
  | setParamAenvRelease (value : Word)
  /-- SET_PARAM FENV_ATTACK, index 17 (R283, 10_state.md R69). -/
  | setParamFenvAttack (value : Word)
  /-- SET_PARAM FENV_DECAY, index 18 (R283, 10_state.md R70). -/
  | setParamFenvDecay (value : Word)
  /-- SET_PARAM FENV_SUSTAIN, index 19 (R283, 10_state.md R71). -/
  | setParamFenvSustain (value : Word)
  /-- SET_PARAM FENV_RELEASE, index 20 (R283, 10_state.md R72). -/
  | setParamFenvRelease (value : Word)
  /-- A reserved opcode, 0x06 to 0xFF (R289, 30_encoding.md R115). -/
  | reserved (op : BitVec 8)
deriving DecidableEq, Repr

end Sys2Proof
end

