-- ==== Sys2Proof/Machine/State.lean ====
section
/-! DEFINITION. The state of one core instance (10_state.md R30: exactly the registers of R31 to R72), the host's output
memory `OUT` (20_memory.md R82), what stands on the ports, and the state after reset (10_state.md R75). Plain data. -/

namespace Sys2Proof.Machine

/-- No fault exists: "The core raises no synchronous exception" (60_exceptions.md R310), no interrupt (R313), no trap (R315).
Nobody raises one; that none can be is neither safe nor unsafe. -/
inductive Fault where
deriving DecidableEq, Repr

/-- Why a step could be refused. -/
inductive Refusal where
  /-- Raised by an arm of `exec` whose command has no meaning yet; safe. No arm raises it. -/
  | notModelled (mnemonic : String)
deriving DecidableEq, Repr

/-- Envelope stages (10_state.md R40, 30_encoding.md R121). -/
inductive Stage where
  | idle | attack | decay | sustain | release
deriving DecidableEq, Repr

/-- Lifecycle values (10_state.md R45, 30_encoding.md R122). -/
inductive Life where
  | idle | sounding | releasing
deriving DecidableEq, Repr

/-- Primary oscillator `OSC[k].P` (10_state.md R33). -/
structure Osc where
  phase : Num32
  freq : Num32
  shape : Num32
deriving DecidableEq, Repr

/-- Unison copy `OSC[k].U` or `OSC[k].D` (10_state.md R34). -/
structure UnisonCopy where
  phase : Num32
  freq : Num32
deriving DecidableEq, Repr

/-- Slot `OSC[k]`: the primary and its two copies (10_state.md R33, R34). -/
structure Slot where
  prim : Osc
  up : UnisonCopy
  down : UnisonCopy
deriving DecidableEq, Repr

/-- Envelope generator `AENV` or `FENV` (10_state.md R37, R40). -/
structure Envelope where
  stage : Stage
  level : Num32
  step : Num32
  target : Num32
  cnt : Word
deriving DecidableEq, Repr

/-- Filter registers `FILT` (10_state.md R42). -/
structure SvFilter where
  s1 : Num32
  s2 : Num32
  cutoff : Num32
  res : Num32
deriving DecidableEq, Repr

/-- Block registers `BLK` (10_state.md R48). -/
structure Block where
  n : Word
  num : BitVec 16
  start : Word
  nch : BitVec 8
deriving DecidableEq, Repr

/-- Pending bank `P`, raw words (10_state.md R50). -/
structure PendingBank where
  oscAShape : Word
  oscBShape : Word
  oscASemi : Word
  oscBSemi : Word
  unisonMode : Word
  detuneCents : Word
  foldDrive : Word
  filtCutoff : Word
  filtRes : Word
  filtEnvAmt : Word
  lfoRate : Word
  lfoDepth : Word
  lfoDest : Word
  aenvAttack : Word
  aenvDecay : Word
  aenvSustain : Word
  aenvRelease : Word
  fenvAttack : Word
  fenvDecay : Word
  fenvSustain : Word
  fenvRelease : Word
deriving DecidableEq, Repr

/-- Snapshot bank `S`, sanitised values: a `NUM`, or an integer code for the two u32 parameters (10_state.md R51). -/
structure SnapshotBank where
  oscAShape : Num32
  oscBShape : Num32
  oscASemi : Num32
  oscBSemi : Num32
  unisonMode : Word
  detuneCents : Num32
  foldDrive : Num32
  filtCutoff : Num32
  filtRes : Num32
  filtEnvAmt : Num32
  lfoRate : Num32
  lfoDepth : Num32
  lfoDest : Word
  aenvAttack : Num32
  aenvDecay : Num32
  aenvSustain : Num32
  aenvRelease : Num32
  fenvAttack : Num32
  fenvDecay : Num32
  fenvSustain : Num32
  fenvRelease : Num32
deriving DecidableEq, Repr

/-- One word of `OUT` at an address. The unit of `OUT` is the 32-bit word and there is no byte order (20_memory.md R80, R85),
so a cell holds a word (log entry 4). -/
abbrev OutCell := Nat × Word

/-- Who may make a step (00_scope.md R16). -/
inductive Agent where
  /-- The audio sequencer: `CPORT` commands and ticks. -/
  | sequencer
  /-- The parameter writer: SET_PARAM on `PPORT`. -/
  | writer
  /-- The reset input. -/
  | reset
deriving DecidableEq, Repr

/-- The state of one core instance and of what stands at its boundary. -/
structure State where
  /-- `FS` (10_state.md R31). -/
  fs : Num32
  /-- `BASEF` (R32). -/
  baseF : Num32
  /-- `OSC[A]` (R33, R34). -/
  oscA : Slot
  /-- `OSC[B]` (R33, R34). -/
  oscB : Slot
  /-- `LFO.phase` (R36). -/
  lfoPhase : Num32
  /-- `AENV` (R37, R40). -/
  aenv : Envelope
  /-- `FENV` (R37, R40). -/
  fenv : Envelope
  /-- `FILT` (R42). -/
  filt : SvFilter
  /-- `LIFE` (R45). -/
  life : Life
  /-- `XMOD` (R46). -/
  xmod : Num32
  /-- `BUSY` (R48). -/
  busy : Bool
  /-- `BLK` (R48). -/
  blk : Block
  /-- `P` (R50). -/
  pend : PendingBank
  /-- `S` (R51). -/
  snap : SnapshotBank
  /-- `OUT`, the host's, written by the core: a total map from channel and index to a word (20_memory.md R82, `State.outMap`), kept
  as the list of its words that are not 0, addresses strictly rising. Whatever the host holds there is some list (log entry
  4). -/
  out : List OutCell
  /-- The model's own: the words presented and not yet accepted, oldest first; each stands on the port its opcode gives
  (20_memory.md R90, 30_encoding.md R111; log entry 5). -/
  waiting : List Word64
  /-- The model's own: who moves at the coming steps (60_exceptions.md R314; log entry 5). -/
  turns : List Agent
deriving DecidableEq, Repr

/-- Envelope after reset (10_state.md R75). -/
def Envelope.reset : Envelope := { stage := .idle, level := zero, step := zero, target := zero, cnt := 0#32 }

/-- Slot after reset (10_state.md R75). -/
def Slot.reset : Slot :=
  { prim := { phase := zero, freq := zero, shape := zero }
    up := { phase := zero, freq := zero }
    down := { phase := zero, freq := zero } }

/-- Filter after reset (10_state.md R75). -/
def SvFilter.reset : SvFilter := { s1 := zero, s2 := zero, cutoff := cutoffMax, res := qDefault }

/-- `P` after reset: the bit patterns of the defaults of 10_state.md R52 to R72 (R50, R75). -/
def PendingBank.reset : PendingBank :=
  { oscAShape := bits32 zero
    oscBShape := bits32 zero
    oscASemi := bits32 zero
    oscBSemi := bits32 zero
    unisonMode := 0x00000001#32
    detuneCents := bits32 zero
    foldDrive := bits32 zero
    filtCutoff := bits32 cutoffMax
    filtRes := bits32 qDefault
    filtEnvAmt := bits32 zero
    lfoRate := bits32 zero
    lfoDepth := bits32 zero
    lfoDest := 0x00000000#32
    aenvAttack := bits32 zero
    aenvDecay := bits32 zero
    aenvSustain := bits32 one
    aenvRelease := bits32 zero
    fenvAttack := bits32 zero
    fenvDecay := bits32 zero
    fenvSustain := bits32 one
    fenvRelease := bits32 zero }

/-- `S` after reset: the defaults of 10_state.md R52 to R72 (R51, R75). -/
def SnapshotBank.reset : SnapshotBank :=
  { oscAShape := zero
    oscBShape := zero
    oscASemi := zero
    oscBSemi := zero
    unisonMode := 1#32
    detuneCents := zero
    foldDrive := zero
    filtCutoff := cutoffMax
    filtRes := qDefault
    filtEnvAmt := zero
    lfoRate := zero
    lfoDepth := zero
    lfoDest := 0#32
    aenvAttack := zero
    aenvDecay := zero
    aenvSustain := one
    aenvRelease := zero
    fenvAttack := zero
    fenvDecay := zero
    fenvSustain := one
    fenvRelease := zero }

/-- The machine right after reset (10_state.md R75, 70_reset_and_hazards.md R340). `OUT` is the host's, which the core does not
reset; here the host has cleared it (R345; DESIGN CHOICE, log entry 4). Nothing is presented and no turn is laid down (log
entry 5). -/
def State.reset : State :=
  { fs := fsDefault
    baseF := zero
    oscA := Slot.reset
    oscB := Slot.reset
    lfoPhase := zero
    aenv := Envelope.reset
    fenv := Envelope.reset
    filt := SvFilter.reset
    life := .idle
    xmod := zero
    busy := false
    blk := { n := 0#32, num := 0#16, start := 0#32, nch := 0#8 }
    pend := PendingBank.reset
    snap := SnapshotBank.reset
    out := []
    waiting := []
    turns := [] }

end Sys2Proof.Machine
end

