-- ==== Sys2Proof/Machine/Flags.lean ====
section
/-! DEFINITION. Control flags and status outputs (10_state.md R40, R45, R47; 48_commands.md R290). The core has no arithmetic
flags (48_commands.md R292, R293). -/

namespace Sys2Proof.Machine

/-- Code of a stage (30_encoding.md R121). -/
def Stage.code : Stage → BitVec 3
  | .idle => 0#3
  | .attack => 1#3
  | .decay => 2#3
  | .sustain => 3#3
  | .release => 4#3

/-- Code of a lifecycle value (30_encoding.md R122). -/
def Life.code : Life → BitVec 2
  | .idle => 0#2
  | .sounding => 1#2
  | .releasing => 2#2

/-- ENV_IS_ACTIVE(E) (44_envelope.md R206). -/
def Envelope.isActive (e : Envelope) : Bool := decide (e.stage ≠ .idle)

/-- `ACTIVE` (10_state.md R47). -/
def State.active (s : State) : Bool := decide (s.life ≠ .idle)

/-- What the host can observe of the core besides `OUT` (48_commands.md R290). -/
structure StatusOutputs where
  active : Bool
  life : BitVec 2
  busy : Bool
  xmod : Word
deriving DecidableEq, Repr

/-- The status outputs: plain wires, without side effect (48_commands.md R290, 20_memory.md R87). -/
def State.status (s : State) : StatusOutputs :=
  { active := s.active, life := s.life.code, busy := s.busy, xmod := bits32 s.xmod }

end Sys2Proof.Machine
end

