-- ==== Sys2Proof/Config.lean ====
section
/-! DEFINITION. What an implementation fixes and the spec leaves open: the configuration functions of 00_scope.md R9,
bound by the required values and ranges and by nothing else, and the free values (log entries 1, 2, 3). No value here
has a body, so no proof can rest on one. -/

namespace Sys2Proof

/-- The configuration functions (00_scope.md R9): total functions from `NUM` to `NUM` with the required exact values and
range properties, and no other property. -/
structure Config.Functions where
  /-- Sine of 2π·p. -/
  sin2pi : Num32 → Num32
  /-- 2 to the power x. -/
  exp2 : Num32 → Num32
  /-- Tangent of π·w. -/
  tanpi : Num32 → Num32
  sin2pi_zero : sin2pi zero = zero
  sin2pi_quarter : sin2pi quarter = one
  sin2pi_half : sin2pi half = zero
  sin2pi_threeQuarters : sin2pi threeQuarters = minusOne
  /-- For `0 <= p < 1`: `-1 <= sin2pi(p) <= 1`, never NaN (an ordered comparison with a NaN is false). -/
  sin2pi_range : ∀ p, fle zero p = true → flt p one = true →
    fle minusOne (sin2pi p) = true ∧ fle (sin2pi p) one = true
  exp2_zero : exp2 zero = one
  exp2_one : exp2 one = two
  exp2_minusOne : exp2 minusOne = half
  /-- For `-5 <= x <= 5`: finite and positive. -/
  exp2_range : ∀ x, fle minusFive x = true → fle x five = true →
    (exp2 x).isFinite = true ∧ flt zero (exp2 x) = true
  /-- For `-5 <= x <= y <= 5`: non-decreasing. -/
  exp2_mono : ∀ x y, fle minusFive x = true → fle x y = true → fle y five = true →
    fle (exp2 x) (exp2 y) = true
  tanpi_quarter : tanpi quarter = one
  /-- For `20/768000 <= w <= 20000/44100`: finite and positive. -/
  tanpi_range : ∀ w, fle tanpiArgMin w = true → fle w tanpiArgMax = true →
    (tanpi w).isFinite = true ∧ flt zero (tanpi w) = true
  /-- On that range: non-decreasing. -/
  tanpi_mono : ∀ w v, fle tanpiArgMin w = true → fle w v = true → fle v tanpiArgMax = true →
    fle (tanpi w) (tanpi v) = true

/-- A witness that the properties of R9 can be met together: step functions. It only shows that the type below is not
empty; the configuration functions are not these. -/
def Config.sampleSin2pi (p : Num32) : Num32 :=
  if p = quarter then one else if p = threeQuarters then minusOne else zero

/-- Witness for `exp2` (see `Config.sampleSin2pi`). -/
def Config.sampleExp2 (x : Num32) : Num32 :=
  if fle one x then two else if fle zero x then one else half

/-- `<=` is transitive. -/
theorem fle_trans {x y z : Num32} (h₁ : fle x y = true) (h₂ : fle y z = true) : fle x z = true := by
  simp only [fle, Bool.and_eq_true, decide_eq_true_eq] at *
  exact ⟨⟨h₁.1.1, h₂.1.2⟩, le_trans h₁.2 h₂.2⟩

theorem Config.sampleExp2_cases (x : Num32) :
    sampleExp2 x = two ∨ sampleExp2 x = one ∨ sampleExp2 x = half := by
  unfold sampleExp2; split
  · exact Or.inl rfl
  · split
    · exact Or.inr (Or.inl rfl)
    · exact Or.inr (Or.inr rfl)

theorem Config.sampleExp2_mono (x y : Num32) (h : fle x y = true) :
    fle (sampleExp2 x) (sampleExp2 y) = true := by
  unfold sampleExp2
  by_cases h₁ : fle one x = true
  · rw [if_pos h₁, if_pos (fle_trans h₁ h)]; decide +kernel
  · rw [if_neg h₁]
    by_cases h₂ : fle zero x = true
    · rw [if_pos h₂]
      by_cases h₃ : fle one y = true
      · rw [if_pos h₃]; decide +kernel
      · rw [if_neg h₃, if_pos (fle_trans h₂ h)]; decide +kernel
    · rw [if_neg h₂]
      by_cases h₃ : fle one y = true
      · rw [if_pos h₃]; decide +kernel
      · rw [if_neg h₃]
        by_cases h₄ : fle zero y = true
        · rw [if_pos h₄]; decide +kernel
        · rw [if_neg h₄]; decide +kernel

/-- R9's properties can be met together. -/
@[reducible] def Config.functionsInhabited : Inhabited Config.Functions where
  default :=
    { sin2pi := sampleSin2pi
      exp2 := sampleExp2
      tanpi := fun _ => one
      sin2pi_zero := by decide +kernel
      sin2pi_quarter := by decide +kernel
      sin2pi_half := by decide +kernel
      sin2pi_threeQuarters := by decide +kernel
      sin2pi_range := by
        intro p _ _
        unfold sampleSin2pi
        split
        · decide +kernel
        · split <;> decide +kernel
      exp2_zero := by decide +kernel
      exp2_one := by decide +kernel
      exp2_minusOne := by decide +kernel
      exp2_range := by
        intro x _ _
        rcases sampleExp2_cases x with h | h | h <;> rw [h] <;> decide +kernel
      exp2_mono := fun x y _ h _ => sampleExp2_mono x y h
      tanpi_quarter := rfl
      tanpi_range := by intro w _ _; decide +kernel
      tanpi_mono := by intro w v _ _ _; decide +kernel }

/-- The configuration functions of this machine: some functions with R9's properties, no more is known (log entry 2). -/
opaque Config.functionsOf [Inhabited Config.Functions] : Config.Functions

/-- The machine's configuration functions. -/
def Config.functions : Config.Functions := @Config.functionsOf Config.functionsInhabited

/-- Which operation makes a NaN. -/
inductive Config.FloatOp where
  | add | sub | mul | div | floor
deriving DecidableEq, Repr

/-- The bits of a NaN result (48_commands.md R293: there is no canonical NaN): a free value of the operation and its
operands (log entry 1). Used only through `nanResult`, which makes a NaN of it. -/
opaque Config.freeNan (op : Config.FloatOp) (x y : Num32) : Word

/-- What `toU32` gives outside the domain 00_scope.md R11 states for it: a free value (log entry 3). -/
opaque Config.freeU32 (v : Num32) : Word

/-- What a counter decremented at zero holds; 00_scope.md R11 says that never happens: a free value (log entry 3). -/
opaque Config.freeCount : Word

end Sys2Proof
end

