-- ==== Sys2Proof/Machine/Arith.lean ====
section
/-! DEFINITION. The binary32 operations (00_scope.md R8): one correctly rounded IEEE 754 operation each, nearest-even,
subnormals kept; `floor` and `toU32` (R11); the configuration functions (R9). -/

namespace Sys2Proof

/-- The NaN an operation gives: exponent all ones, fraction not zero, its other bits free (log entry 1). -/
def nanResult (op : Config.FloatOp) (x y : Num32) : Num32 :=
  let b := Config.freeNan op x y ||| 0x7F800000#32
  if b &&& 0x007FFFFF#32 = 0#32 then f32 (b ||| 0x00400000#32) else f32 b

/-- The sum of `x` and `y`, the sign of `y` flipped if `flip`: the shared body of `+` and `-`. An exact sum of zero is
`-0` only for two zeros of negative sign (IEEE 754, nearest-even). -/
def addSigned (op : Config.FloatOp) (flip : Bool) (x y : Num32) : Num32 :=
  let sy := y.sign ^^ flip
  let vy := if flip then -y.val else y.val
  if x.isNaN || y.isNaN then nanResult op x y
  else if x.isInf then (if y.isInf && (x.sign != sy) then nanResult op x y else x)
  else if y.isInf then packNum sy infMag
  else
    let v := x.val + vy
    if v = 0 then packNum (x.sign && sy) 0
    else packNum (decide (v < 0)) (roundMag v.natAbs 1)

/-- `x + y` (00_scope.md R8). -/
def fadd (x y : Num32) : Num32 := addSigned .add false x y

/-- `x - y` (00_scope.md R8). -/
def fsub (x y : Num32) : Num32 := addSigned .sub true x y

/-- `x * y` (00_scope.md R8). -/
def fmul (x y : Num32) : Num32 :=
  let s := x.sign ^^ y.sign
  if x.isNaN || y.isNaN then nanResult .mul x y
  else if x.isInf || y.isInf then
    (if x.isZero || y.isZero then nanResult .mul x y else packNum s infMag)
  else packNum s (roundMag (x.mag * y.mag) (2 ^ 149))

/-- `x / y` (00_scope.md R8). -/
def fdiv (x y : Num32) : Num32 :=
  let s := x.sign ^^ y.sign
  if x.isNaN || y.isNaN then nanResult .div x y
  else if x.isInf then (if y.isInf then nanResult .div x y else packNum s infMag)
  else if y.isInf then packNum s 0
  else if y.isZero then (if x.isZero then nanResult .div x y else packNum s infMag)
  else packNum s (roundMag (x.mag * 2 ^ 149) y.mag)

/-- `floor(v)`: rounding toward minus infinity to an integral value, exact (00_scope.md R11). A zero and an infinity are
kept (IEEE 754). -/
def ffloor (v : Num32) : Num32 :=
  if v.isNaN then nanResult .floor v v
  else if v.isInf || v.isZero then v
  else packNum v.sign (roundMag (v.val / 2 ^ 149 * 2 ^ 149).natAbs 1)

/-- The domain 00_scope.md R11 states for `toU32`: integral, non-negative, below 2^32. -/
def inU32Domain (v : Num32) : Bool :=
  v.isFinite && decide (0 ≤ v.val) && decide (v.val % 2 ^ 149 = 0) && decide (v.val < 2 ^ 32 * 2 ^ 149)

/-- `toU32(v)`, exact on its domain (00_scope.md R11); a free value outside it (log entry 3). -/
def toU32 (v : Num32) : Word :=
  if inU32Domain v then BitVec.ofNat 32 (v.mag / 2 ^ 149) else Config.freeU32 v

/-- `sin2pi(p)` (00_scope.md R9). The first four cases are the required exact values, which `Config.functions` has too
(Sys2Proof/Laws/Arith.lean): written out so that they can be evaluated. -/
def sin2pi (p : Num32) : Num32 :=
  if p = zero then zero
  else if p = quarter then one
  else if p = half then zero
  else if p = threeQuarters then minusOne
  else Config.functions.sin2pi p

/-- `exp2(x)` (00_scope.md R9); the exact values written out as in `sin2pi`. -/
def exp2 (x : Num32) : Num32 :=
  if x = zero then one
  else if x = one then two
  else if x = minusOne then half
  else Config.functions.exp2 x

/-- `tanpi(w)` (00_scope.md R9); the exact value written out as in `sin2pi`. -/
def tanpi (w : Num32) : Num32 :=
  if w = quarter then one else Config.functions.tanpi w

/-- Decrement of an envelope counter (00_scope.md R11, 44_envelope.md R205): by 1, never at zero. -/
def decCount (c : Word) : Word := if c = 0#32 then Config.freeCount else c - 1#32

end Sys2Proof
end

