-- ==== Sys2Proof/Machine/Operands.lean ====
section
/-! DEFINITION. Operand handling: the clamp, `min` and `max`, and the Sanitise clause of each parameter. -/

namespace Sys2Proof.Machine

/-- `clampN(v, lo, hi)` (00_scope.md R10); a NaN gives `lo`. -/
def clampN (v lo hi : Num32) : Num32 := if fge v lo then (if fle v hi then v else hi) else lo

/-- `min(x, y)` of 44_envelope.md. -/
def fmin (x y : Num32) : Num32 := if fle x y then x else y

/-- `max(x, y)` of 44_envelope.md. -/
def fmax (x y : Num32) : Num32 := if fge x y then x else y

/-- Sanitise clause of `UNISON_MODE` (10_state.md R56). -/
def sanitiseUnison (w : Word) : Word := if w = 3#32 then 3#32 else 1#32

/-- Sanitise clause of `LFO_DEST`: none, the raw word is copied (10_state.md R64). -/
def sanitiseDest (w : Word) : Word := w

/-- The Sanitise clauses of 10_state.md R52 to R72, register by register. -/
def PendingBank.sanitise (p : PendingBank) : SnapshotBank :=
  { oscAShape := clampN (f32 p.oscAShape) zero one
    oscBShape := clampN (f32 p.oscBShape) zero one
    oscASemi := clampN (f32 p.oscASemi) semiMin semiMax
    oscBSemi := clampN (f32 p.oscBSemi) semiMin semiMax
    unisonMode := sanitiseUnison p.unisonMode
    detuneCents := clampN (f32 p.detuneCents) zero detuneMax
    foldDrive := clampN (f32 p.foldDrive) zero one
    filtCutoff := clampN (f32 p.filtCutoff) cutoffMin cutoffMax
    filtRes := clampN (f32 p.filtRes) qMin qMax
    filtEnvAmt := clampN (f32 p.filtEnvAmt) envAmtMin envAmtMax
    lfoRate := clampN (f32 p.lfoRate) zero lfoRateMax
    lfoDepth := clampN (f32 p.lfoDepth) zero one
    lfoDest := sanitiseDest p.lfoDest
    aenvAttack := clampN (f32 p.aenvAttack) zero tMax
    aenvDecay := clampN (f32 p.aenvDecay) zero tMax
    aenvSustain := clampN (f32 p.aenvSustain) zero one
    aenvRelease := clampN (f32 p.aenvRelease) zero tMax
    fenvAttack := clampN (f32 p.fenvAttack) zero tMax
    fenvDecay := clampN (f32 p.fenvDecay) zero tMax
    fenvSustain := clampN (f32 p.fenvSustain) zero one
    fenvRelease := clampN (f32 p.fenvRelease) zero tMax }

end Sys2Proof.Machine
end

