-- ==== Sys2Proof/Machine/Ops.lean ====
section
/-! DEFINITION. The named operations over memory and registers: the output memory `OUT`, the parameter banks with SNAPSHOT,
and the reset pulse. Taking an exception and returning from one have no place here: the core has neither
(60_exceptions.md R310, R315, R316). -/

namespace Sys2Proof.Machine

/-! ## Output sample memory (20_memory.md R80 to R84) -/

/-- The key of the word of channel `ch` at sample index `i`: channel-major, an injective numbering of the pairs of 20_memory.md
R80 (log entry 4). -/
def outAddr (ch : Nat) (i : Word) : Nat := ch * 2 ^ 32 + i.toNat

/-- One above the highest key: channels 0 to 254 (20_memory.md R80). -/
def outSize : Nat := 255 * 2 ^ 32

/-- What a key that is not listed reads as: `OUT` is a total map (20_memory.md R82), every word of which is 0 unless the list says
otherwise (DESIGN CHOICE, unsafe: log entry 4). -/
def outUnlisted : Word := 0x00000000#32

/-- The word at a key, for every key (20_memory.md R82). The core itself never reads `OUT` (R84). -/
def outRead : List OutCell → Nat → Word
  | [], _ => outUnlisted
  | (b, w) :: rest, a => if a = b then w else outRead rest a

/-- `OUT : (ch, i) -> 32-bit word`, the total map of 20_memory.md R82 over the channels 0 to 254 and all indices (R80). -/
def State.outMap (s : State) (ch : Fin 255) (i : Word) : Word := outRead s.out (outAddr ch.val i)

/-- The list without a key, which then reads as an unlisted one. -/
def outErase : List OutCell → Nat → List OutCell
  | [], _ => []
  | (b, w) :: rest, a => if a = b then outErase rest a else (b, w) :: outErase rest a

/-- The list with an entry for a key that it does not list, the keys kept strictly rising. -/
def outInsert : List OutCell → Nat → Word → List OutCell
  | [], a, v => [(a, v)]
  | (b, w) :: rest, a, v => if a < b then (a, v) :: (b, w) :: rest else (b, w) :: outInsert rest a v

/-- Overwrite of the word at a key (20_memory.md R83): any entry of the key goes, and a word that an unlisted key would not read
as gets its entry, so that equal maps are equal lists. -/
def outWrite (m : List OutCell) (a : Nat) (v : Word) : List OutCell :=
  if v = outUnlisted then outErase m a else outInsert (outErase m a) a v

/-- Keys strictly rising, at least `lo`, inside `OUT`; no entry holds what an unlisted key reads as. -/
def outSortedFrom (lo : Nat) : List OutCell → Bool
  | [] => true
  | (a, w) :: rest =>
    decide (lo ≤ a) && decide (a < outSize) && decide (w ≠ outUnlisted) && outSortedFrom (a + 1) rest

/-- The canonical form of `OUT` (log entry 4): two lists of this form that read alike at every key are equal. -/
def Memory.wf (m : List OutCell) : Bool := outSortedFrom 0 m

/-- `MemWrite((ch, i), 4, v)` (20_memory.md R83). -/
def memWrite (m : List OutCell) (ch : Nat) (i : Word) (v : Num32) : List OutCell :=
  outWrite m (outAddr ch i) (bits32 v)

/-- The channel loop of 47_voice_renderer.md R259: the same word to channels 0 to `nch - 1`, ascending (20_memory.md R91). -/
def writeChannels (m : List OutCell) (i : Word) (v : Num32) : Nat → List OutCell
  | 0 => m
  | k + 1 => memWrite (writeChannels m i v k) k i v

/-! ## Parameter banks (10_state.md R50, R51) -/

/-- Read of a pending register by name (for statements; no port reads `P`, 10_state.md R73). -/
def PendingBank.read (b : PendingBank) : Param → Word
  | .oscAShape => b.oscAShape
  | .oscBShape => b.oscBShape
  | .oscASemi => b.oscASemi
  | .oscBSemi => b.oscBSemi
  | .unisonMode => b.unisonMode
  | .detuneCents => b.detuneCents
  | .foldDrive => b.foldDrive
  | .filtCutoff => b.filtCutoff
  | .filtRes => b.filtRes
  | .filtEnvAmt => b.filtEnvAmt
  | .lfoRate => b.lfoRate
  | .lfoDepth => b.lfoDepth
  | .lfoDest => b.lfoDest
  | .aenvAttack => b.aenvAttack
  | .aenvDecay => b.aenvDecay
  | .aenvSustain => b.aenvSustain
  | .aenvRelease => b.aenvRelease
  | .fenvAttack => b.fenvAttack
  | .fenvDecay => b.fenvDecay
  | .fenvSustain => b.fenvSustain
  | .fenvRelease => b.fenvRelease

/-- `P[a] <- c` by name (48_commands.md R283): the word is stored raw. -/
def PendingBank.write (b : PendingBank) (p : Param) (c : Word) : PendingBank :=
  match p with
  | .oscAShape => { b with oscAShape := c }
  | .oscBShape => { b with oscBShape := c }
  | .oscASemi => { b with oscASemi := c }
  | .oscBSemi => { b with oscBSemi := c }
  | .unisonMode => { b with unisonMode := c }
  | .detuneCents => { b with detuneCents := c }
  | .foldDrive => { b with foldDrive := c }
  | .filtCutoff => { b with filtCutoff := c }
  | .filtRes => { b with filtRes := c }
  | .filtEnvAmt => { b with filtEnvAmt := c }
  | .lfoRate => { b with lfoRate := c }
  | .lfoDepth => { b with lfoDepth := c }
  | .lfoDest => { b with lfoDest := c }
  | .aenvAttack => { b with aenvAttack := c }
  | .aenvDecay => { b with aenvDecay := c }
  | .aenvSustain => { b with aenvSustain := c }
  | .aenvRelease => { b with aenvRelease := c }
  | .fenvAttack => { b with fenvAttack := c }
  | .fenvDecay => { b with fenvDecay := c }
  | .fenvSustain => { b with fenvSustain := c }
  | .fenvRelease => { b with fenvRelease := c }

/-- `P[p] <- c` (48_commands.md R283). -/
def State.writeParam (s : State) (p : Param) (c : Word) : State := { s with pend := s.pend.write p c }

/-- SNAPSHOT (48_commands.md R284, 20_memory.md R88): all of `P`, sanitised, to `S`, in one step. -/
def State.snapshot (s : State) : State := { s with snap := s.pend.sanitise }

/-! ## Reset (70_reset_and_hazards.md R340, R341) -/

/-- A reset pulse: every register of the core at its reset value, a block in progress abandoned; `OUT` keeps what it holds
(R341). What stands on the ports is the host's and stays (log entry 6). -/
def State.resetPulse (s : State) : State :=
  { State.reset with out := s.out, waiting := s.waiting, turns := s.turns }

end Sys2Proof.Machine
end

