-- ==== Sys2Proof/Machine/EnvelopeGen.lean ====
section
/-! DEFINITION. ADSR envelope generators (44_envelope.md): micro-operations on one envelope `E`, its four parameters and `FS`. -/

namespace Sys2Proof.Machine

/-- The parameters `(a, d, s, r)` of an envelope (30_encoding.md R123). -/
structure EnvParams where
  attack : Num32
  decay : Num32
  sustain : Num32
  release : Num32
deriving DecidableEq, Repr

/-- The parameters of `AENV` (30_encoding.md R123). -/
def SnapshotBank.ampEnv (sn : SnapshotBank) : EnvParams :=
  { attack := sn.aenvAttack, decay := sn.aenvDecay, sustain := sn.aenvSustain, release := sn.aenvRelease }

/-- The parameters of `FENV` (30_encoding.md R123). -/
def SnapshotBank.filtEnv (sn : SnapshotBank) : EnvParams :=
  { attack := sn.fenvAttack, decay := sn.fenvDecay, sustain := sn.fenvSustain, release := sn.fenvRelease }

/-- STAGE_LEN(t) (R196). -/
def stageLen (fs t : Num32) : Num32 := ffloor (fmul t fs)

/-- ENV_RESET(E) (R194). -/
def Envelope.toReset (_e : Envelope) : Envelope :=
  { stage := .idle, level := zero, step := zero, target := zero, cnt := 0#32 }

/-- ENV_ENTER_DECAY(E) (R197). -/
def Envelope.enterDecay (fs : Num32) (q : EnvParams) (e : Envelope) : Envelope :=
  let nf := stageLen fs q.decay
  if fge nf one then
    { stage := .decay, level := e.level, target := q.sustain, step := fdiv (fsub e.level q.sustain) nf
      cnt := toU32 nf }
  else
    { stage := .sustain, level := q.sustain, target := q.sustain, step := zero, cnt := 0#32 }

/-- ENV_NOTE_ON(E) (R195). -/
def Envelope.noteOn (fs : Num32) (q : EnvParams) (e : Envelope) : Envelope :=
  let nf := stageLen fs q.attack
  if fge nf one then
    { stage := .attack, level := e.level, target := one, step := fdiv (fsub one e.level) nf, cnt := toU32 nf }
  else
    Envelope.enterDecay fs q { e with level := one }

/-- ENV_NOTE_OFF(E) (R198). -/
def Envelope.noteOff (fs : Num32) (q : EnvParams) (e : Envelope) : Envelope :=
  if e.stage = .idle then e
  else
    let nf := stageLen fs q.release
    if fge nf one then
      { stage := .release, level := e.level, target := zero, step := fdiv e.level nf, cnt := toU32 nf }
    else e.toReset

/-- ENV_NEXT in ATTACK (R200). -/
def Envelope.nextAttack (fs : Num32) (q : EnvParams) (e : Envelope) : Envelope :=
  let e' := { e with level := fmin (fadd e.level e.step) one, cnt := decCount e.cnt }
  if e'.cnt = 0#32 then Envelope.enterDecay fs q { e' with level := one } else e'

/-- ENV_NEXT in DECAY (R201). -/
def Envelope.nextDecay (e : Envelope) : Envelope :=
  let e' := { e with level := fmax (fsub e.level e.step) e.target, cnt := decCount e.cnt }
  if e'.cnt = 0#32 then { e' with level := e'.target, stage := .sustain, step := zero } else e'

/-- ENV_NEXT in RELEASE (R203). -/
def Envelope.nextRelease (e : Envelope) : Envelope :=
  let e' := { e with level := fmax (fsub e.level e.step) zero, cnt := decCount e.cnt }
  if e'.cnt = 0#32 then e'.toReset else e'

/-- ENV_NEXT(E) (R199 to R204), its effect; the value it returns is the new `level`. SUSTAIN and IDLE change nothing (R202,
R204). -/
def Envelope.next (fs : Num32) (q : EnvParams) (e : Envelope) : Envelope :=
  match e.stage with
  | .attack => e.nextAttack fs q
  | .decay => e.nextDecay
  | .sustain => e
  | .release => e.nextRelease
  | .idle => e

end Sys2Proof.Machine
end

