-- ==== Sys2Proof/Machine/FilterUnit.lean ====
section
/-! DEFINITION. State-variable resonant low-pass filter (46_filter.md). -/

namespace Sys2Proof.Machine

/-- FILT_SET_CUTOFF(hz) (R231). -/
def SvFilter.setCutoff (f : SvFilter) (hz : Num32) : SvFilter := { f with cutoff := clampN hz cutoffMin cutoffMax }

/-- FILT_SET_RES(q) (R232). -/
def SvFilter.setRes (f : SvFilter) (q : Num32) : SvFilter := { f with res := clampN q qMin qMax }

/-- FILT_RESET() (R233). -/
def SvFilter.resetIntegrators (f : SvFilter) : SvFilter := { f with s1 := zero, s2 := zero }

/-- Coefficient `g` (R234). -/
def SvFilter.gain (fs : Num32) (f : SvFilter) : Num32 := tanpi (fdiv f.cutoff fs)

/-- Coefficient `R2` (R234). -/
def SvFilter.damping (f : SvFilter) : Num32 := fdiv one f.res

/-- Coefficient `h` (R234). -/
def SvFilter.loop (fs : Num32) (f : SvFilter) : Num32 :=
  fdiv one (fadd (fadd one (fmul f.damping (f.gain fs))) (fmul (f.gain fs) (f.gain fs)))

/-- FILT_PROCESS(x) (R235): the new registers and the low-pass output. -/
def SvFilter.process (fs : Num32) (f : SvFilter) (x : Num32) : SvFilter × Num32 :=
  let g := f.gain fs
  let hp := fmul (f.loop fs) (fsub (fsub x (fmul f.s1 (fadd g f.damping))) f.s2)
  let v1 := fmul g hp
  let bp := fadd v1 f.s1
  let v2 := fmul g bp
  let lp := fadd v2 f.s2
  ({ f with s1 := fadd bp v1, s2 := fadd lp v2 }, lp)

end Sys2Proof.Machine
end

