-- ==== Sys2Proof/Machine/Oscillator.lean ====
section
/-! DEFINITION. Morphable oscillator (40_oscillator.md): micro-operations on one oscillator; none has an encoding, writes a flag
or raises anything (R150). -/

namespace Sys2Proof.Machine

/-- PHASE_ADV(p, inc) (R144): one conditional subtraction. -/
def phaseAdv (p inc : Num32) : Num32 :=
  let q := fadd p inc
  if fge q one then fsub q one else q

/-- lerp(x, y, t) (R147). -/
def lerp (x y t : Num32) : Num32 := fadd (fmul (fsub one t) x) (fmul t y)

/-- The saw of OSC_WAVE (R143). -/
def sawWave (p : Num32) : Num32 := fsub (fmul two p) one

/-- The square of OSC_WAVE (R143). -/
def squareWave (p : Num32) : Num32 := if flt p half then one else minusOne

/-- OSC_WAVE(p, s) (R143). -/
def oscWave (p s : Num32) : Num32 :=
  if fle s half then lerp (sin2pi p) (sawWave p) (fdiv s half)
  else lerp (sawWave p) (squareWave p) (fdiv (fsub s half) half)

/-- OSC_SET_FREQ(O, hz) (R141): stored unchanged. -/
def Osc.setFreq (o : Osc) (hz : Num32) : Osc := { o with freq := hz }

/-- OSC_SET_SHAPE(O, s) (R142). -/
def Osc.setShape (o : Osc) (s : Num32) : Osc := { o with shape := clampN s zero one }

/-- OSC_TICK(O) (R145), its effect: the phase advances by `freq / FS`. -/
def Osc.advance (fs : Num32) (o : Osc) : Osc := { o with phase := phaseAdv o.phase (fdiv o.freq fs) }

/-- OSC_TICK(O) (R145): the new oscillator and the sample, taken from the new phase. -/
def Osc.tick (fs : Num32) (o : Osc) : Osc × Num32 :=
  (o.advance fs, oscWave (o.advance fs).phase (o.advance fs).shape)

/-- OSC_RESET(k) (R146): the three phases of a slot. -/
def Slot.resetPhases (k : Slot) : Slot :=
  { k with
    prim := { k.prim with phase := zero }
    up := { k.up with phase := zero }
    down := { k.down with phase := zero } }

end Sys2Proof.Machine
end

