-- ==== Sys2Proof/Machine/Lfo.lean ====
section
/-! DEFINITION. Modulation oscillator (42_lfo.md). -/

namespace Sys2Proof.Machine

/-- LFO_TICK() (R171), its effect: the phase advances by `S[LFO_RATE] / FS`. -/
def State.lfoAdvance (s : State) : State :=
  { s with lfoPhase := phaseAdv s.lfoPhase (fdiv s.snap.lfoRate s.fs) }

/-- LFO_TICK() (R171), its result, taken from the advanced phase. -/
def State.lfoSample (s : State) : Num32 := fmul (sin2pi s.lfoPhase) s.snap.lfoDepth

/-- LFO_RESET() (R172). -/
def State.lfoReset (s : State) : State := { s with lfoPhase := zero }

end Sys2Proof.Machine
end

