-- ==== Sys2Proof/Machine/Router.lean ====
section
/-! DEFINITION. Modulation router (43_router.md): stateless. -/

namespace Sys2Proof.Machine

/-- The five multipliers (R180). -/
structure Multipliers where
  pitch : Num32
  cutoff : Num32
  amp : Num32
  fold : Num32
  xmod : Num32
deriving DecidableEq, Repr

/-- One multiplier: 1 for its own code, +0 for every other (R180, R181). -/
def multiplier (dest code : Word) : Num32 := if dest = code then one else zero

/-- ROUTE(dest) (R181). -/
def route (dest : Word) : Multipliers :=
  { pitch := multiplier dest 1#32
    cutoff := multiplier dest 2#32
    amp := multiplier dest 3#32
    fold := multiplier dest 4#32
    xmod := multiplier dest 5#32 }

end Sys2Proof.Machine
end

