-- ==== Sys2Proof/Machine/Unison.lean ====
section
/-! DEFINITION. Unison stack (41_unison.md): the primary and two detuned copies, each a phase accumulator of its own (R164). -/

namespace Sys2Proof.Machine

/-- DETUNE_RATIO() (R162). -/
def detuneRatio (sn : SnapshotBank) : Num32 := exp2 (fdiv sn.detuneCents centsPerOctave)

/-- UNISON_SET_FREQ(k, f) (R161). -/
def Slot.setFreq (fs : Num32) (sn : SnapshotBank) (k : Slot) (f : Num32) : Slot :=
  { prim := k.prim.setFreq f
    up := { k.up with freq := clampN (fmul f (detuneRatio sn)) zero (fmul fs half) }
    down := { k.down with freq := clampN (fdiv f (detuneRatio sn)) zero (fmul fs half) } }

/-- Advance of a copy (R163). -/
def UnisonCopy.advance (fs : Num32) (c : UnisonCopy) : UnisonCopy :=
  { c with phase := phaseAdv c.phase (fdiv c.freq fs) }

/-- UNISON_TICK(k) (R163), its effect: all three accumulators advance, in both unison modes (R165). -/
def Slot.advance (fs : Num32) (k : Slot) : Slot :=
  { prim := (k.prim.tick fs).1, up := k.up.advance fs, down := k.down.advance fs }

/-- The unison average `((xp + xu) + xd) / 3` (R163). -/
def unisonMean (xp xu xd : Num32) : Num32 := fdiv (fadd (fadd xp xu) xd) unisonCount

/-- UNISON_TICK(k) (R163): the new slot and its output. -/
def Slot.tick (fs : Num32) (sn : SnapshotBank) (k : Slot) : Slot × Num32 :=
  let xp := (k.prim.tick fs).2
  let k' := k.advance fs
  let xu := oscWave k'.up.phase k'.prim.shape
  let xd := oscWave k'.down.phase k'.prim.shape
  (k', if sn.unisonMode = 3#32 then unisonMean xp xu xd else xp)

end Sys2Proof.Machine
end

