-- ==== Sys2Proof/Machine/Wavefolder.lean ====
section
/-! DEFINITION. Wavefolder (45_wavefolder.md): stateless. -/

namespace Sys2Proof.Machine

/-- REFLECT(u) (R221). -/
def reflect (u : Num32) : Num32 :=
  if fgt u one then fsub two u else if flt u minusOne then fsub minusTwo u else u

/-- The gain `1 + 3 d` of FOLD (R221). -/
def foldGain (drive : Num32) : Num32 := fadd one (fmul foldK (clampN drive zero one))

/-- FOLD(x, drive) (R221). -/
def fold (x drive : Num32) : Num32 := clampN (reflect (reflect (fmul (foldGain drive) x))) minusOne one

end Sys2Proof.Machine
end

