-- ==== Sys2Proof/Machine/Voice.lean ====
section
/-! DEFINITION. Voice renderer (47_voice_renderer.md): the ten steps of VOICE_TICK, one definition per value a step forms, in
the order of R250. Each value is a function of the state when the tick starts: a step reads another step's result by its
name, and every register that a step reads is read either before the tick writes it or through that result. -/

namespace Sys2Proof.Machine

/-- Step 1 (R251): the LFO sample `l` of the tick. -/
def State.tickLfo (s : State) : Num32 := s.lfoAdvance.lfoSample

/-- Step 2 (R252): the multipliers of the tick. -/
def State.tickRoute (s : State) : Multipliers := route s.snap.lfoDest

/-- Step 3a (R253): `pmod = (l * 12) * mP`. -/
def State.tickPitchMod (s : State) : Num32 := fmul (fmul s.tickLfo pitchRange) s.tickRoute.pitch

/-- The frequency of a slot (R254) from its semitone offset. -/
def slotFreq (fs baseF semi pmod : Num32) : Num32 :=
  clampN (fmul baseF (exp2 (fdiv (fadd semi pmod) semitonesPerOctave))) zero (fmul fs half)

/-- Step 3b (R254): `fA`. -/
def State.tickFreqA (s : State) : Num32 := slotFreq s.fs s.baseF s.snap.oscASemi s.tickPitchMod

/-- Step 3b (R254): `fB`. -/
def State.tickFreqB (s : State) : Num32 := slotFreq s.fs s.baseF s.snap.oscBSemi s.tickPitchMod

/-- Step 4 for one slot (R255): OSC_SET_SHAPE, UNISON_SET_FREQ, UNISON_TICK. -/
def Slot.render (fs : Num32) (sn : SnapshotBank) (shape f : Num32) (k : Slot) : Slot × Num32 :=
  (Slot.setFreq fs sn { k with prim := k.prim.setShape shape } f).tick fs sn

/-- Step 4 (R255): slot A and `uA`. -/
def State.tickSlotA (s : State) : Slot × Num32 := s.oscA.render s.fs s.snap s.snap.oscAShape s.tickFreqA

/-- Step 4 (R255): slot B and `uB`. -/
def State.tickSlotB (s : State) : Slot × Num32 := s.oscB.render s.fs s.snap s.snap.oscBShape s.tickFreqB

/-- Step 4 (R255): `mix = (uA + uB) * 0.5`. -/
def State.tickMix (s : State) : Num32 := fmul (fadd s.tickSlotA.2 s.tickSlotB.2) half

/-- Step 5 (R256): `drv`. -/
def State.tickDrive (s : State) : Num32 :=
  clampN (fadd s.snap.foldDrive (fmul s.tickLfo s.tickRoute.fold)) zero one

/-- Step 5 (R256): `z`. -/
def State.tickFolded (s : State) : Num32 := fold s.tickMix s.tickDrive

/-- Step 6 (R257): `FENV` after its advance; `fe` is its level. -/
def State.tickFenv (s : State) : Envelope := s.fenv.next s.fs s.snap.filtEnv

/-- Step 6 (R257): `fc`. -/
def State.tickCutoff (s : State) : Num32 :=
  clampN (fadd (fadd s.snap.filtCutoff (fmul s.snap.filtEnvAmt s.tickFenv.level))
    (fmul (fmul s.tickLfo cutoffModRange) s.tickRoute.cutoff)) cutoffMin cutoffMax

/-- Step 6 (R257): FILT_SET_CUTOFF(fc), then FILT_PROCESS(z): the filter registers and `w`. -/
def State.tickFilter (s : State) : SvFilter × Num32 :=
  (s.filt.setCutoff s.tickCutoff).process s.fs s.tickFolded

/-- Step 7 (R258): `AENV` after its advance; `ae` is its level. -/
def State.tickAenv (s : State) : Envelope := s.aenv.next s.fs s.snap.ampEnv

/-- Step 7 (R258): `trem`. -/
def State.tickTremolo (s : State) : Num32 := clampN (fadd one (fmul s.tickLfo s.tickRoute.amp)) zero one

/-- Step 7 (R258): `amp = ae * trem`. -/
def State.tickAmp (s : State) : Num32 := fmul s.tickAenv.level s.tickTremolo

/-- Step 8 (R259): the output sample `y = w * amp`. -/
def State.tickSample (s : State) : Num32 := fmul s.tickFilter.2 s.tickAmp

/-- Step 9 (R260): the value exported on `XMOD`. -/
def State.tickXmod (s : State) : Num32 := fmul s.tickLfo s.tickRoute.xmod

/-- Step 10 (R261): `LIFE` after the tick. -/
def State.tickLife (s : State) : Life := if s.tickAenv.stage = .idle then .idle else s.life

/-- VOICE_TICK(n) (R250): the registers and the words of `OUT` that the ten steps write. The sample index is
`(BLK.start + n) mod 2^32` (R262). -/
def State.voiceTick (n : Word) (s : State) : State :=
  { s with
    lfoPhase := s.lfoAdvance.lfoPhase
    oscA := s.tickSlotA.1
    oscB := s.tickSlotB.1
    fenv := s.tickFenv
    filt := s.tickFilter.1
    aenv := s.tickAenv
    out := writeChannels s.out (s.blk.start + n) s.tickSample s.blk.nch.toNat
    xmod := s.tickXmod
    life := s.tickLife }

end Sys2Proof.Machine
end

