-- ==== Sys2Proof/Machine/Commands.lean ====
section
/-! DEFINITION. The meanings of the commands other than SET_PARAM (48_commands.md), as executed once accepted on their port;
acceptance is Sys2Proof/Machine/Sequencer.lean's. No command raises an exception or is refused (R280). -/

namespace Sys2Proof.Machine

/-- NOP (R281): nothing. -/
def execNop (s : State) : Host.Outcome State Fault Refusal := .next s

/-- Every datapath register at its reset value, `P`, `S`, `FS` and `BLK` kept: PREPARE's clear (R282, 70_reset_and_hazards.md
R342). -/
def State.clearDatapath (s : State) : State :=
  { s.lfoReset with
    baseF := zero
    oscA := { prim := { phase := zero, freq := zero, shape := zero }
              up := { phase := zero, freq := zero }, down := { phase := zero, freq := zero } }
    oscB := { prim := { phase := zero, freq := zero, shape := zero }
              up := { phase := zero, freq := zero }, down := { phase := zero, freq := zero } }
    aenv := s.aenv.toReset
    fenv := s.fenv.toReset
    filt := { s.filt.resetIntegrators with cutoff := cutoffMax, res := qDefault }
    life := .idle
    xmod := zero }

/-- PREPARE (R282). -/
def execPrepare (rate : Word) (s : State) : Host.Outcome State Fault Refusal :=
  .next { s.clearDatapath with fs := clampN (f32 rate) fsMin fsMax }

/-- ENV_NOTE_ON on both envelopes with the snapshot's parameters (R285). -/
def State.notesOn (s : State) : State :=
  { s with aenv := s.aenv.noteOn s.fs s.snap.ampEnv, fenv := s.fenv.noteOn s.fs s.snap.filtEnv }

/-- ENV_NOTE_OFF on both envelopes with the snapshot's parameters (R286). -/
def State.notesOff (s : State) : State :=
  { s with aenv := s.aenv.noteOff s.fs s.snap.ampEnv, fenv := s.fenv.noteOff s.fs s.snap.filtEnv }

/-- START_NOTE (R285); the LFO is not reset (42_lfo.md R173). -/
def execStartNote (freq : Word) (s : State) : Host.Outcome State Fault Refusal :=
  let s1 := s.snapshot
  let s2 := { s1 with
    baseF := clampN (f32 freq) zero basefMax
    oscA := s1.oscA.resetPhases
    oscB := s1.oscB.resetPhases
    filt := s1.filt.resetIntegrators }
  .next { s2.notesOn with life := .sounding }

/-- STOP_NOTE with tail-off on a voice that is not idle (R286). -/
def State.stopWithTail (s : State) : State :=
  let s1 := s.snapshot.notesOff
  { s1 with life := if s1.aenv.stage = .idle then .idle else .releasing }

/-- STOP_NOTE without tail-off on a voice that is not idle (R286). -/
def State.stopAtOnce (s : State) : State :=
  { s with aenv := s.aenv.toReset, fenv := s.fenv.toReset, life := .idle }

/-- STOP_NOTE (R286). -/
def execStopNote (allowTailOff : Bool) (s : State) : Host.Outcome State Fault Refusal :=
  if s.life = .idle then .next s
  else if allowTailOff then .next s.stopWithTail
  else .next s.stopAtOnce

/-- RENDER_BLOCK past its idle guard, up to its loop (R287): SNAPSHOT, FILT_SET_RES, the block registers, `BUSY`. `BUSY` is 1
while ticks remain; for `num = 0` it has risen and fallen with no tick between (R288). -/
def State.beginBlock (nch : BitVec 8) (num : BitVec 16) (start : Word) (s : State) : State :=
  let s1 := s.snapshot
  { s1 with
    filt := s1.filt.setRes s1.snap.filtRes
    blk := { n := 0#32, num := num, start := start, nch := nch }
    busy := decide (0 < num.toNat) }

/-- RENDER_BLOCK (R287): the idle guard, then the start of the block. Its loop is one step of the machine per tick
(`State.blockTick`), so that a SET_PARAM or a reset can come between two ticks (R280, 20_memory.md R87; log entry 7). -/
def execRenderBlock (nch : BitVec 8) (num : BitVec 16) (start : Word) (s : State) :
    Host.Outcome State Fault Refusal :=
  if s.life = .idle then .next s else .next (s.beginBlock nch num start)

/-- One turn of RENDER_BLOCK's loop (R287, 47_voice_renderer.md R263): while `BLK.n < BLK.num`, VOICE_TICK(BLK.n) and
`BLK.n <- BLK.n + 1`; when no tick remains, `BUSY <- 0`. -/
def State.blockTick (s : State) : State :=
  if s.blk.n.toNat < s.blk.num.toNat then
    let s1 := s.voiceTick s.blk.n
    let n' := s.blk.n + 1#32
    { s1 with blk := { s1.blk with n := n' }, busy := decide (n'.toNat < s.blk.num.toNat) }
  else { s with busy := false }

/-- A reserved opcode (R289, 30_encoding.md R115): as NOP. -/
def execReserved (_op : BitVec 8) (s : State) : Host.Outcome State Fault Refusal := .next s

end Sys2Proof.Machine
end

