-- ==== Sys2Proof/WellFormed.lean ====
section
/-! DEFINITION. Which terms of `Instr` are commands: the generic SET_PARAM constructor stands for the indices that have no
row of their own, the reserved constructor for the reserved opcodes. -/

namespace Sys2Proof

/-- Well-formedness: an index of the generic SET_PARAM is 21 to 255 (30_encoding.md R114, R117), a reserved opcode is
0x06 to 0xFF (R113, R115). Every other term is a command with every value of its fields. -/
def Instr.wf : Instr → Bool
  | .setParam idx _ => decide (21 ≤ idx.toNat)
  | .reserved op => decide (6 ≤ op.toNat)
  | .nop | .prepare _ | .startNote _ | .stopNote _ | .renderBlock _ _ _ => true
  | .setParamOscAShape _ => true
  | .setParamOscBShape _ => true
  | .setParamOscASemi _ => true
  | .setParamOscBSemi _ => true
  | .setParamUnisonMode _ => true
  | .setParamDetuneCents _ => true
  | .setParamFoldDrive _ => true
  | .setParamFiltCutoff _ => true
  | .setParamFiltRes _ => true
  | .setParamFiltEnvAmt _ => true
  | .setParamLfoRate _ => true
  | .setParamLfoDepth _ => true
  | .setParamLfoDest _ => true
  | .setParamAenvAttack _ => true
  | .setParamAenvDecay _ => true
  | .setParamAenvSustain _ => true
  | .setParamAenvRelease _ => true
  | .setParamFenvAttack _ => true
  | .setParamFenvDecay _ => true
  | .setParamFenvSustain _ => true
  | .setParamFenvRelease _ => true

/-- `Instr.wf` as a proposition. -/
abbrev WellFormed (i : Instr) : Prop := i.wf = true

end Sys2Proof
end

