-- ==== Sys2Proof/Decode.lean ====
section
/-! DEFINITION. The command word (30_encoding.md R110 to R117): its fields, the decoder, total on 64-bit words, the decoder
of an image of any length, which rejects by name what is not one 64-bit word, and the encoder. -/

namespace Sys2Proof

/-- `op = W[63:56]` (30_encoding.md R110). -/
def opField (w : Word64) : BitVec 8 := w.extractLsb' 56 8

/-- `a = W[55:48]`. -/
def aField (w : Word64) : BitVec 8 := w.extractLsb' 48 8

/-- `b = W[47:32]`. -/
def bField (w : Word64) : BitVec 16 := w.extractLsb' 32 16

/-- `c = W[31:0]`. -/
def cField (w : Word64) : Word := w.extractLsb' 0 32

/-- The word with the given fields (30_encoding.md R110). -/
def commandWord (op a : BitVec 8) (b : BitVec 16) (c : Word) : Word64 := op ++ a ++ b ++ c

/-- The port a word is presented on: `PPORT` for SET_PARAM, `CPORT` for every other word (30_encoding.md R111). -/
def portOf (w : Word64) : Port := if opField w = 0x02#8 then .pport else .cport

/-- The register an index names (30_encoding.md R114); 21 to 255 name none (R117). -/
def paramOfIndex (idx : BitVec 8) : Option Param :=
  match idx.toNat with
  | 0 => some .oscAShape
  | 1 => some .oscBShape
  | 2 => some .oscASemi
  | 3 => some .oscBSemi
  | 4 => some .unisonMode
  | 5 => some .detuneCents
  | 6 => some .foldDrive
  | 7 => some .filtCutoff
  | 8 => some .filtRes
  | 9 => some .filtEnvAmt
  | 10 => some .lfoRate
  | 11 => some .lfoDepth
  | 12 => some .lfoDest
  | 13 => some .aenvAttack
  | 14 => some .aenvDecay
  | 15 => some .aenvSustain
  | 16 => some .aenvRelease
  | 17 => some .fenvAttack
  | 18 => some .fenvDecay
  | 19 => some .fenvSustain
  | 20 => some .fenvRelease
  | _ => none

/-- The index of a register (30_encoding.md R114). -/
def indexOfParam : Param → BitVec 8
  | .oscAShape => 0#8
  | .oscBShape => 1#8
  | .oscASemi => 2#8
  | .oscBSemi => 3#8
  | .unisonMode => 4#8
  | .detuneCents => 5#8
  | .foldDrive => 6#8
  | .filtCutoff => 7#8
  | .filtRes => 8#8
  | .filtEnvAmt => 9#8
  | .lfoRate => 10#8
  | .lfoDepth => 11#8
  | .lfoDest => 12#8
  | .aenvAttack => 13#8
  | .aenvDecay => 14#8
  | .aenvSustain => 15#8
  | .aenvRelease => 16#8
  | .fenvAttack => 17#8
  | .fenvDecay => 18#8
  | .fenvSustain => 19#8
  | .fenvRelease => 20#8

/-- The SET_PARAM command that names a register (the rows SET_PARAM_<NAME> of spec/opcode_table.json). -/
def setParamNamed (p : Param) (value : Word) : Instr :=
  match p with
  | .oscAShape => .setParamOscAShape value
  | .oscBShape => .setParamOscBShape value
  | .oscASemi => .setParamOscASemi value
  | .oscBSemi => .setParamOscBSemi value
  | .unisonMode => .setParamUnisonMode value
  | .detuneCents => .setParamDetuneCents value
  | .foldDrive => .setParamFoldDrive value
  | .filtCutoff => .setParamFiltCutoff value
  | .filtRes => .setParamFiltRes value
  | .filtEnvAmt => .setParamFiltEnvAmt value
  | .lfoRate => .setParamLfoRate value
  | .lfoDepth => .setParamLfoDepth value
  | .lfoDest => .setParamLfoDest value
  | .aenvAttack => .setParamAenvAttack value
  | .aenvDecay => .setParamAenvDecay value
  | .aenvSustain => .setParamAenvSustain value
  | .aenvRelease => .setParamAenvRelease value
  | .fenvAttack => .setParamFenvAttack value
  | .fenvDecay => .setParamFenvDecay value
  | .fenvSustain => .setParamFenvSustain value
  | .fenvRelease => .setParamFenvRelease value

/-- SET_PARAM by its fields: the row of the index where it has one, the generic row for 21 to 255. -/
def decodeSetParam (a : BitVec 8) (c : Word) : Instr :=
  match paramOfIndex a with
  | some p => setParamNamed p c
  | none => .setParam a c

/-- The command a word stands for (30_encoding.md R113 to R117). Ignored fields are not looked at (R116); every word is a
command, so nothing is rejected here. -/
def decode (w : Word64) : Instr :=
  match (opField w).toNat with
  | 0 => .nop
  | 1 => .prepare (cField w)
  | 2 => decodeSetParam (aField w) (cField w)
  | 3 => .startNote (cField w)
  | 4 => .stopNote ((aField w).getLsbD 0)
  | 5 => .renderBlock (aField w) (bField w) (cField w)
  | _ => .reserved (opField w)

/-- Why an image is not a command. -/
inductive DecodeError where
  /-- A command is one 64-bit word (30_encoding.md R110, R127); an image that has more bits, or whose value does not fit,
  is not one. -/
  | notOneWord (nbits w : Nat)
deriving DecidableEq, Repr

/-- The command in an image of `nbits` bits whose value is `w`, bits above `nbits` being zero. -/
def decodeImage (nbits w : Nat) : Except DecodeError Instr :=
  if nbits ≤ 64 ∧ w < 2 ^ 64 then .ok (decode (BitVec.ofNat 64 w)) else .error (.notOneWord nbits w)

/-- What the decoder reads from a row of spec/opcode_table.json: the table's numbering is that of R110 (one 64-bit word, bit
0 the least significant). -/
def decodeTableWord (nbits w : Nat) : Option Instr :=
  match decodeImage nbits w with
  | .ok i => some i
  | .error _ => none

/-- The word of a command (30_encoding.md R113, R114), ignored fields zero ("software should write it as zero", R116). -/
def encode : Instr → Word64
  | .nop => commandWord 0x00#8 0#8 0#16 0#32
  | .prepare rate => commandWord 0x01#8 0#8 0#16 rate
  | .setParam idx value => commandWord 0x02#8 idx 0#16 value
  | .startNote freq => commandWord 0x03#8 0#8 0#16 freq
  | .stopNote allowTailOff => commandWord 0x04#8 (if allowTailOff then 1#8 else 0#8) 0#16 0#32
  | .renderBlock nch num start => commandWord 0x05#8 nch num start
  | .setParamOscAShape value => commandWord 0x02#8 0#8 0#16 value
  | .setParamOscBShape value => commandWord 0x02#8 1#8 0#16 value
  | .setParamOscASemi value => commandWord 0x02#8 2#8 0#16 value
  | .setParamOscBSemi value => commandWord 0x02#8 3#8 0#16 value
  | .setParamUnisonMode value => commandWord 0x02#8 4#8 0#16 value
  | .setParamDetuneCents value => commandWord 0x02#8 5#8 0#16 value
  | .setParamFoldDrive value => commandWord 0x02#8 6#8 0#16 value
  | .setParamFiltCutoff value => commandWord 0x02#8 7#8 0#16 value
  | .setParamFiltRes value => commandWord 0x02#8 8#8 0#16 value
  | .setParamFiltEnvAmt value => commandWord 0x02#8 9#8 0#16 value
  | .setParamLfoRate value => commandWord 0x02#8 10#8 0#16 value
  | .setParamLfoDepth value => commandWord 0x02#8 11#8 0#16 value
  | .setParamLfoDest value => commandWord 0x02#8 12#8 0#16 value
  | .setParamAenvAttack value => commandWord 0x02#8 13#8 0#16 value
  | .setParamAenvDecay value => commandWord 0x02#8 14#8 0#16 value
  | .setParamAenvSustain value => commandWord 0x02#8 15#8 0#16 value
  | .setParamAenvRelease value => commandWord 0x02#8 16#8 0#16 value
  | .setParamFenvAttack value => commandWord 0x02#8 17#8 0#16 value
  | .setParamFenvDecay value => commandWord 0x02#8 18#8 0#16 value
  | .setParamFenvSustain value => commandWord 0x02#8 19#8 0#16 value
  | .setParamFenvRelease value => commandWord 0x02#8 20#8 0#16 value
  | .reserved op => commandWord op 0#8 0#16 0#32

/-- The opcode of a command (30_encoding.md R113). -/
def opcodeOf : Instr → BitVec 8
  | .nop => 0x00#8
  | .prepare _ => 0x01#8
  | .setParam _ _ => 0x02#8
  | .startNote _ => 0x03#8
  | .stopNote _ => 0x04#8
  | .renderBlock _ _ _ => 0x05#8
  | .setParamOscAShape _ => 0x02#8
  | .setParamOscBShape _ => 0x02#8
  | .setParamOscASemi _ => 0x02#8
  | .setParamOscBSemi _ => 0x02#8
  | .setParamUnisonMode _ => 0x02#8
  | .setParamDetuneCents _ => 0x02#8
  | .setParamFoldDrive _ => 0x02#8
  | .setParamFiltCutoff _ => 0x02#8
  | .setParamFiltRes _ => 0x02#8
  | .setParamFiltEnvAmt _ => 0x02#8
  | .setParamLfoRate _ => 0x02#8
  | .setParamLfoDepth _ => 0x02#8
  | .setParamLfoDest _ => 0x02#8
  | .setParamAenvAttack _ => 0x02#8
  | .setParamAenvDecay _ => 0x02#8
  | .setParamAenvSustain _ => 0x02#8
  | .setParamAenvRelease _ => 0x02#8
  | .setParamFenvAttack _ => 0x02#8
  | .setParamFenvDecay _ => 0x02#8
  | .setParamFenvSustain _ => 0x02#8
  | .setParamFenvRelease _ => 0x02#8
  | .reserved op => op

/-- The bits that a command of a given opcode uses, from the columns of 30_encoding.md R113 and the bit `a[0]` of STOP_NOTE: every
other bit is ignored (R116). -/
def usedBits (op : BitVec 8) : Word64 :=
  match op.toNat with
  | 0 => 0xFF00000000000000#64
  | 1 => 0xFF000000FFFFFFFF#64
  | 2 => 0xFFFF0000FFFFFFFF#64
  | 3 => 0xFF000000FFFFFFFF#64
  | 4 => 0xFF01000000000000#64
  | 5 => 0xFFFFFFFFFFFFFFFF#64
  | _ => 0xFF00000000000000#64

end Sys2Proof
end

