-- ==== Sys2Proof/Machine/SetParam.lean ====
section
/-! DEFINITION. The meanings of SET_PARAM (48_commands.md R283): one per parameter register, and the generic one. The word is
stored raw; nothing else changes, and `S` in particular does not. -/

namespace Sys2Proof.Machine

/-- SET_PARAM by index (R283): `if a <= 20 then P[a] <- c`. -/
def execSetParam (idx : BitVec 8) (value : Word) (s : State) : Host.Outcome State Fault Refusal :=
  match paramOfIndex idx with
  | some p => .next (s.writeParam p value)
  | none => .next s

/-- SET_PARAM OSC_A_SHAPE (R283, 10_state.md R52). -/
def execSetParamOscAShape (value : Word) (s : State) : Host.Outcome State Fault Refusal :=
  .next (s.writeParam .oscAShape value)

/-- SET_PARAM OSC_B_SHAPE (R283, 10_state.md R53). -/
def execSetParamOscBShape (value : Word) (s : State) : Host.Outcome State Fault Refusal :=
  .next (s.writeParam .oscBShape value)

/-- SET_PARAM OSC_A_SEMI (R283, 10_state.md R54). -/
def execSetParamOscASemi (value : Word) (s : State) : Host.Outcome State Fault Refusal :=
  .next (s.writeParam .oscASemi value)

/-- SET_PARAM OSC_B_SEMI (R283, 10_state.md R55). -/
def execSetParamOscBSemi (value : Word) (s : State) : Host.Outcome State Fault Refusal :=
  .next (s.writeParam .oscBSemi value)

/-- SET_PARAM UNISON_MODE (R283, 10_state.md R56). -/
def execSetParamUnisonMode (value : Word) (s : State) : Host.Outcome State Fault Refusal :=
  .next (s.writeParam .unisonMode value)

/-- SET_PARAM DETUNE_CENTS (R283, 10_state.md R57). -/
def execSetParamDetuneCents (value : Word) (s : State) : Host.Outcome State Fault Refusal :=
  .next (s.writeParam .detuneCents value)

/-- SET_PARAM FOLD_DRIVE (R283, 10_state.md R58). -/
def execSetParamFoldDrive (value : Word) (s : State) : Host.Outcome State Fault Refusal :=
  .next (s.writeParam .foldDrive value)

/-- SET_PARAM FILT_CUTOFF (R283, 10_state.md R59). -/
def execSetParamFiltCutoff (value : Word) (s : State) : Host.Outcome State Fault Refusal :=
  .next (s.writeParam .filtCutoff value)

/-- SET_PARAM FILT_RES (R283, 10_state.md R60). -/
def execSetParamFiltRes (value : Word) (s : State) : Host.Outcome State Fault Refusal :=
  .next (s.writeParam .filtRes value)

/-- SET_PARAM FILT_ENV_AMT (R283, 10_state.md R61). -/
def execSetParamFiltEnvAmt (value : Word) (s : State) : Host.Outcome State Fault Refusal :=
  .next (s.writeParam .filtEnvAmt value)

/-- SET_PARAM LFO_RATE (R283, 10_state.md R62). -/
def execSetParamLfoRate (value : Word) (s : State) : Host.Outcome State Fault Refusal :=
  .next (s.writeParam .lfoRate value)

/-- SET_PARAM LFO_DEPTH (R283, 10_state.md R63). -/
def execSetParamLfoDepth (value : Word) (s : State) : Host.Outcome State Fault Refusal :=
  .next (s.writeParam .lfoDepth value)

/-- SET_PARAM LFO_DEST (R283, 10_state.md R64). -/
def execSetParamLfoDest (value : Word) (s : State) : Host.Outcome State Fault Refusal :=
  .next (s.writeParam .lfoDest value)

/-- SET_PARAM AENV_ATTACK (R283, 10_state.md R65). -/
def execSetParamAenvAttack (value : Word) (s : State) : Host.Outcome State Fault Refusal :=
  .next (s.writeParam .aenvAttack value)

/-- SET_PARAM AENV_DECAY (R283, 10_state.md R66). -/
def execSetParamAenvDecay (value : Word) (s : State) : Host.Outcome State Fault Refusal :=
  .next (s.writeParam .aenvDecay value)

/-- SET_PARAM AENV_SUSTAIN (R283, 10_state.md R67). -/
def execSetParamAenvSustain (value : Word) (s : State) : Host.Outcome State Fault Refusal :=
  .next (s.writeParam .aenvSustain value)

/-- SET_PARAM AENV_RELEASE (R283, 10_state.md R68). -/
def execSetParamAenvRelease (value : Word) (s : State) : Host.Outcome State Fault Refusal :=
  .next (s.writeParam .aenvRelease value)

/-- SET_PARAM FENV_ATTACK (R283, 10_state.md R69). -/
def execSetParamFenvAttack (value : Word) (s : State) : Host.Outcome State Fault Refusal :=
  .next (s.writeParam .fenvAttack value)

/-- SET_PARAM FENV_DECAY (R283, 10_state.md R70). -/
def execSetParamFenvDecay (value : Word) (s : State) : Host.Outcome State Fault Refusal :=
  .next (s.writeParam .fenvDecay value)

/-- SET_PARAM FENV_SUSTAIN (R283, 10_state.md R71). -/
def execSetParamFenvSustain (value : Word) (s : State) : Host.Outcome State Fault Refusal :=
  .next (s.writeParam .fenvSustain value)

/-- SET_PARAM FENV_RELEASE (R283, 10_state.md R72). -/
def execSetParamFenvRelease (value : Word) (s : State) : Host.Outcome State Fault Refusal :=
  .next (s.writeParam .fenvRelease value)

end Sys2Proof.Machine
end

