-- ==== Sys2Proof/Machine/Dispatch.lean ====
section
/-! DEFINITION. The effect of each command: one arm per constructor, each a call of its meaning. -/

namespace Sys2Proof.Machine

def exec (i : Instr) (s : State) : Host.Outcome State Fault Refusal :=
  match i with
  | .nop => Sys2Proof.Machine.execNop s
  | .prepare rate => Sys2Proof.Machine.execPrepare rate s
  | .setParam idx value => Sys2Proof.Machine.execSetParam idx value s
  | .startNote freq => Sys2Proof.Machine.execStartNote freq s
  | .stopNote allowTailOff => Sys2Proof.Machine.execStopNote allowTailOff s
  | .renderBlock nch num start => Sys2Proof.Machine.execRenderBlock nch num start s
  | .setParamOscAShape value => Sys2Proof.Machine.execSetParamOscAShape value s
  | .setParamOscBShape value => Sys2Proof.Machine.execSetParamOscBShape value s
  | .setParamOscASemi value => Sys2Proof.Machine.execSetParamOscASemi value s
  | .setParamOscBSemi value => Sys2Proof.Machine.execSetParamOscBSemi value s
  | .setParamUnisonMode value => Sys2Proof.Machine.execSetParamUnisonMode value s
  | .setParamDetuneCents value => Sys2Proof.Machine.execSetParamDetuneCents value s
  | .setParamFoldDrive value => Sys2Proof.Machine.execSetParamFoldDrive value s
  | .setParamFiltCutoff value => Sys2Proof.Machine.execSetParamFiltCutoff value s
  | .setParamFiltRes value => Sys2Proof.Machine.execSetParamFiltRes value s
  | .setParamFiltEnvAmt value => Sys2Proof.Machine.execSetParamFiltEnvAmt value s
  | .setParamLfoRate value => Sys2Proof.Machine.execSetParamLfoRate value s
  | .setParamLfoDepth value => Sys2Proof.Machine.execSetParamLfoDepth value s
  | .setParamLfoDest value => Sys2Proof.Machine.execSetParamLfoDest value s
  | .setParamAenvAttack value => Sys2Proof.Machine.execSetParamAenvAttack value s
  | .setParamAenvDecay value => Sys2Proof.Machine.execSetParamAenvDecay value s
  | .setParamAenvSustain value => Sys2Proof.Machine.execSetParamAenvSustain value s
  | .setParamAenvRelease value => Sys2Proof.Machine.execSetParamAenvRelease value s
  | .setParamFenvAttack value => Sys2Proof.Machine.execSetParamFenvAttack value s
  | .setParamFenvDecay value => Sys2Proof.Machine.execSetParamFenvDecay value s
  | .setParamFenvSustain value => Sys2Proof.Machine.execSetParamFenvSustain value s
  | .setParamFenvRelease value => Sys2Proof.Machine.execSetParamFenvRelease value s
  | .reserved op => Sys2Proof.Machine.execReserved op s

end Sys2Proof.Machine
end

