-- ==== Sys2Proof/Machine/Sequencer.lean ====
section
/-! DEFINITION. What stands on the ports and who moves (20_memory.md R87 to R90, 48_commands.md R280, R288; 60_exceptions.md R314).
`CPORT` accepts a command only while `BUSY = 0`; `PPORT` accepts at any time, between ticks too; a reset pulse may come at
any moment. -/

namespace Sys2Proof.Machine

/-- The oldest word that stands on a port, and the other words. -/
def takeWord (p : Port) : List Word64 → Option (Word64 × List Word64)
  | [] => none
  | w :: rest =>
    if portOf w = p then some (w, rest)
    else
      match takeWord p rest with
      | some (x, rest') => some (x, w :: rest')
      | none => none

/-- What a step does. -/
inductive Move where
  /-- The reset pulse (70_reset_and_hazards.md R340). -/
  | reset
  /-- One turn of the loop of the block in progress (47_voice_renderer.md R263). -/
  | tick
  /-- The command `w` is accepted and executed; `rest` stays on the ports. -/
  | accept (w : Word64) (rest : List Word64)
  /-- The agent whose turn it is has nothing to do. -/
  | idle
deriving DecidableEq, Repr

/-- Acceptance of the oldest word on a port, if there is one. -/
def acceptFrom (p : Port) (waiting : List Word64) : Move :=
  match takeWord p waiting with
  | some (w, rest) => .accept w rest
  | none => .idle

/-- The next move. The turn at the head of `turns` decides: the audio sequencer ticks while `BUSY = 1` and else accepts from
`CPORT` (20_memory.md R90), the parameter writer's word is accepted from `PPORT` (R87), a reset pulse comes. When no turn is laid down
the host is a sequential one (R89): a block in progress goes on, else the oldest word presented is accepted, whichever port
it stands on (log entry 5). -/
def State.nextMove (s : State) : Move :=
  match s.turns with
  | .reset :: _ => .reset
  | .writer :: _ => acceptFrom .pport s.waiting
  | .sequencer :: _ => if s.busy then .tick else acceptFrom .cport s.waiting
  | [] =>
    if s.busy then .tick
    else
      match s.waiting with
      | w :: rest => .accept w rest
      | [] => .idle

/-- The turn that was at the head of `turns` is over. -/
def State.endTurn (s : State) : State := { s with turns := s.turns.tail }

/-- The agent that takes words from a port (00_scope.md R16). -/
def agentOf : Port → Agent
  | .cport => .sequencer
  | .pport => .writer

/-- The state in which `w` is the word accepted next: it is the oldest presented, its port's agent has the turn, and for a word
of `CPORT` no block is in progress (20_memory.md R90). -/
def State.present (s : State) (w : Word64) : State :=
  { s with
    waiting := w :: s.waiting
    turns := agentOf (portOf w) :: s.turns
    busy := s.busy && decide (portOf w = .pport) }

end Sys2Proof.Machine
end

