-- ==== Sys2Proof/Machine/Step.lean ====
section
/-! DEFINITION. One step of the machine: the next move (Sys2Proof/Machine/Sequencer.lean), the accepted command by `exec`. -/

namespace Sys2Proof.Machine

/-- One step: a reset pulse, one turn of the loop of the block in progress, one accepted command, or nothing to do. -/
def step (s : State) : Host.Outcome State Fault Refusal :=
  match s.nextMove with
  | .reset => .next s.endTurn.resetPulse
  | .tick => .next s.endTurn.blockTick
  | .accept w rest => exec (decode w) { s.endTurn with waiting := rest }
  | .idle => .next s.endTurn

/-- `s` with the table word `w` of `nbits` bits presented so that the very next step accepts it (log entry 8). An image that is
no command word (`decodeImage` rejects it) is not presented. -/
def State.withFetchWord (s : State) (nbits w : Nat) : State :=
  match decodeImage nbits w with
  | .ok _ => s.present (BitVec.ofNat 64 w)
  | .error _ => s

end Sys2Proof.Machine
end

