-- ==== Sys2Proof/Safety.lean ====
section
/-! DEFINITION. The legal states of 10_state.md, in the terms claims use: the legal values of every register (R31 to R51), the
phase, envelope, filter and lifecycle invariants (R35, R41, R43, R45), the canonical form of `OUT`; and a whole block as one
function (48_commands.md R280, R287), the snapshot points (R291), and nearest-even
rounding (00_scope.md R8). The filter integrators have no bound: 46_filter.md R236 (d) proves none. -/

namespace Sys2Proof.Machine

/-- `lo <= v <= hi`, never NaN. -/
def inRange (v lo hi : Num32) : Bool := fle lo v && fle v hi

/-- `0 <= p < 1`, never NaN (10_state.md R35). -/
def phaseOk (p : Num32) : Bool := fle zero p && flt p one

/-- Legal values of a unison copy (10_state.md R34). -/
def UnisonCopy.legal (fs : Num32) (c : UnisonCopy) : Bool :=
  phaseOk c.phase && inRange c.freq zero (fmul fs half)

/-- Legal values of a slot (10_state.md R33, R34). -/
def Slot.legal (fs : Num32) (k : Slot) : Bool :=
  phaseOk k.prim.phase && inRange k.prim.freq zero (fmul fs half) && inRange k.prim.shape zero one &&
    k.up.legal fs && k.down.legal fs

/-- What each stage fixes of the other envelope registers (10_state.md R37, R41; the decay's level does not lie below its target,
44_envelope.md R201). -/
def Envelope.stageOk (e : Envelope) : Bool :=
  match e.stage with
  | .idle => decide (e.level = zero) && decide (e.step = zero) && decide (e.target = zero) && decide (e.cnt = 0#32)
  | .attack => decide (e.target = one) && decide (e.cnt ≠ 0#32)
  | .decay => fle e.target e.level && decide (e.cnt ≠ 0#32)
  | .sustain => decide (e.level = e.target) && decide (e.step = zero) && decide (e.cnt = 0#32)
  | .release => decide (e.target = zero) && decide (e.cnt ≠ 0#32)

/-- Legal values of an envelope (10_state.md R37, R41). -/
def Envelope.legal (e : Envelope) : Bool :=
  inRange e.level zero one && inRange e.step zero one && inRange e.target zero one && e.stageOk

/-- Legal values of the filter's parameter registers (10_state.md R42, R43). -/
def SvFilter.legal (f : SvFilter) : Bool := inRange f.cutoff cutoffMin cutoffMax && inRange f.res qMin qMax

/-- Legal values of envelope parameters (10_state.md R65 to R72). -/
def EnvParams.legal (q : EnvParams) : Bool :=
  inRange q.attack zero tMax && inRange q.decay zero tMax && inRange q.sustain zero one && inRange q.release zero tMax

/-- Legal values of the snapshot bank (10_state.md R51 to R72). -/
def SnapshotBank.legal (sn : SnapshotBank) : Bool :=
  inRange sn.oscAShape zero one && inRange sn.oscBShape zero one &&
  inRange sn.oscASemi semiMin semiMax && inRange sn.oscBSemi semiMin semiMax &&
  decide (sn.unisonMode = 1#32 ∨ sn.unisonMode = 3#32) &&
  inRange sn.detuneCents zero detuneMax && inRange sn.foldDrive zero one &&
  inRange sn.filtCutoff cutoffMin cutoffMax && inRange sn.filtRes qMin qMax &&
  inRange sn.filtEnvAmt envAmtMin envAmtMax &&
  inRange sn.lfoRate zero lfoRateMax && inRange sn.lfoDepth zero one &&
  sn.ampEnv.legal && sn.filtEnv.legal

/-- The block registers while a block is in progress: a tick remains (10_state.md R48, 48_commands.md R288). -/
def State.blockOk (s : State) : Bool := !s.busy || decide (s.blk.n.toNat < s.blk.num.toNat)

/-- `LIFE = IDLE` if and only if `AENV.stage = IDLE` (10_state.md R45). -/
def State.lifeAgrees (s : State) : Bool := decide (s.life = .idle ↔ s.aenv.stage = .idle)

/-- The legal states of 10_state.md, with `OUT` in canonical form. -/
def State.legal (s : State) : Bool :=
  inRange s.fs fsMin fsMax && inRange s.baseF zero basefMax &&
  s.oscA.legal s.fs && s.oscB.legal s.fs && phaseOk s.lfoPhase &&
  s.aenv.legal && s.fenv.legal && s.filt.legal && inRange s.xmod minusOne one &&
  s.lifeAgrees && s.blockOk && s.snap.legal && Memory.wf s.out

/-- `k` turns of the loop of the block in progress. -/
def State.blockTicks : Nat → State → State
  | 0, s => s
  | k + 1, s => State.blockTicks k s.blockTick

/-- RENDER_BLOCK as one transition (48_commands.md R280, R287): the idle guard, the start of the block, its whole loop. -/
def State.renderWhole (nch : BitVec 8) (num : BitVec 16) (start : Word) (s : State) : State :=
  if s.life = .idle then s else State.blockTicks num.toNat (s.beginBlock nch num start)

/-- The snapshot points (48_commands.md R291): START_NOTE; STOP_NOTE with tail-off and RENDER_BLOCK on a voice that is not
idle. -/
def snapshotPoint (i : Instr) (s : State) : Bool :=
  match i with
  | .startNote _ => true
  | .stopNote allowTailOff => allowTailOff && decide (s.life ≠ .idle)
  | .renderBlock _ _ _ => decide (s.life ≠ .idle)
  | _ => false

/-- `r` is as near to the exact value `num / den` (in units of 2^-149) as `z` is, and if both are equally near and differ, the
last bit of `r` is 0: what round-to-nearest-ties-to-even asks of a finite result `r` against a finite value `z` (00_scope.md R8). -/
def nearestEven (r z : Num32) (num den : Int) : Prop :=
  (r.val * den - num).natAbs ≤ (z.val * den - num).natAbs ∧
    ((r.val * den - num).natAbs = (z.val * den - num).natAbs → z.val ≠ r.val → r.bits.getLsbD 0 = false)

end Sys2Proof.Machine
end

