-- ==== Sys2Proof/Certificates/Slice0/Obligations.lean ====
section
/-! DEFINITION. The statements for the provers, by topic (their order in OBLIGATIONS.json, but for OutIsATotalMap, O60): decoding,
the step, the commands, who writes what, the tick, reset and the invariants, arithmetic, and the components. -/

section

open Sys2Proof Sys2Proof.Machine

/-! ## Decoding (30_encoding.md) -/

/-- Decoding the word of any well-formed command gives the command back, with every operand at every value; the decoder of
table words too. Derived from R110, R113, R114. -/
def Obligations.DecodeOfEncode : Prop :=
  ∀ i : Instr, WellFormed i → decode (encode i) = i ∧ decodeTableWord 64 (encode i).toNat = some i

/-- Encoding what a word decodes to gives the word with its unused bits cleared. Derived from R113, R116. -/
def Obligations.EncodeOfDecode : Prop :=
  ∀ w : Word64, encode (decode w) = w &&& usedBits (opField w)

/-- R116: a field a command does not use is ignored on decode, and two words that differ only in ignored fields are the
same command. -/
def Obligations.IgnoredFieldsIgnored : Prop :=
  ∀ w w' : Word64, w &&& usedBits (opField w) = w' &&& usedBits (opField w) → decode w' = decode w

/-- Every 64-bit word is a command; the table decoder answers an image of at most 64 bits, its value below 2^64, and no other. A
command word has the fixed length 64 (R110, R127); that an image given in fewer bits is read as the 64-bit word with zeros above
them is the model's choice (log entry 8). Derived from R110, R115, R117, R127. -/
def Obligations.EveryWordIsACommand : Prop :=
  (∀ w : Word64, WellFormed (decode w)) ∧
  ∀ nbits w : Nat,
    (nbits ≤ 64 ∧ w < 2 ^ 64 → decodeTableWord nbits w = some (decode (BitVec.ofNat 64 w))) ∧
    (¬(nbits ≤ 64 ∧ w < 2 ^ 64) → decodeTableWord nbits w = none)

/-- Words written out from the spec decode to the commands they stand for: one of each family (95_test_vectors.md V-CMD-1, V-CMD-3),
and for SET_PARAM one for each index 0 to 20 (R114). Derived from R113 to R116. -/
def Obligations.SpecWordsDecode : Prop :=
  decode 0x0000000000000000#64 = .nop ∧
  decode 0x01000000473B8000#64 = .prepare 0x473B8000#32 ∧
  decode 0x020000003F000000#64 = .setParamOscAShape 0x3F000000#32 ∧
  decode 0x020100003F800000#64 = .setParamOscBShape 0x3F800000#32 ∧
  decode 0x0202000041400000#64 = .setParamOscASemi 0x41400000#32 ∧
  decode 0x0203000041400000#64 = .setParamOscBSemi 0x41400000#32 ∧
  decode 0x0204000000000003#64 = .setParamUnisonMode 0x00000003#32 ∧
  decode 0x0205000042C80000#64 = .setParamDetuneCents 0x42C80000#32 ∧
  decode 0x020600003F000000#64 = .setParamFoldDrive 0x3F000000#32 ∧
  decode 0x02070000447A0000#64 = .setParamFiltCutoff 0x447A0000#32 ∧
  decode 0x020800003F000000#64 = .setParamFiltRes 0x3F000000#32 ∧
  decode 0x02090000C69C4000#64 = .setParamFiltEnvAmt 0xC69C4000#32 ∧
  decode 0x020A000046800000#64 = .setParamLfoRate 0x46800000#32 ∧
  decode 0x020B00003F000000#64 = .setParamLfoDepth 0x3F000000#32 ∧
  decode 0x020C000000000005#64 = .setParamLfoDest 0x00000005#32 ∧
  decode 0x020D000038800000#64 = .setParamAenvAttack 0x38800000#32 ∧
  decode 0x020E000038000000#64 = .setParamAenvDecay 0x38000000#32 ∧
  decode 0x020F00003F000000#64 = .setParamAenvSustain 0x3F000000#32 ∧
  decode 0x021000003E99999A#64 = .setParamAenvRelease 0x3E99999A#32 ∧
  decode 0x0211000038800000#64 = .setParamFenvAttack 0x38800000#32 ∧
  decode 0x0212000038000000#64 = .setParamFenvDecay 0x38000000#32 ∧
  decode 0x021300003F000000#64 = .setParamFenvSustain 0x3F000000#32 ∧
  decode 0x021400003E99999A#64 = .setParamFenvRelease 0x3E99999A#32 ∧
  decode 0x0215000012345678#64 = .setParam 21#8 0x12345678#32 ∧
  decode 0x0312345643DC0000#64 = .startNote 0x43DC0000#32 ∧
  decode 0x04FF123456789ABC#64 = .stopNote true ∧
  decode 0x04FE000000000000#64 = .stopNote false ∧
  decode 0x0502000600000008#64 = .renderBlock 2#8 6#16 8#32 ∧
  decode 0x7F12345678ABCDEF#64 = .reserved 0x7F#8

/-! ## The step (20_memory.md R87 to R90, 48_commands.md R280) -/

/-- A step runs the command it accepts, around which it only takes the word off its port and ends the turn; the word of a
well-formed command presented next is that command; a sequential host's oldest word runs when no block is in progress; a table
word placed with `withFetchWord` runs at once; a step in which the agent to move has nothing to do changes no register (R321). The
turns and the waiting list are the model's own (log entry 5). So are `State.present` and `withFetchWord` (log entry 8, DESIGN
CHOICE): they take the machine out of a block in progress for a word of `CPORT`, so that the command sees `BUSY = 0`, and leave
`BUSY` as it was for a SET_PARAM. -/
def Obligations.StepRunsDecodedCommand : Prop :=
  (∀ (s : State) (w : Word64) (rest : List Word64), s.nextMove = .accept w rest →
    step s = exec (decode w) { s with turns := s.turns.tail, waiting := rest }) ∧
  (∀ (i : Instr) (s : State), WellFormed i →
    step (s.present (encode i)) = exec i { s with busy := s.busy && decide (opcodeOf i = 0x02#8) }) ∧
  (∀ (s : State) (w : Word64) (rest : List Word64), s.turns = [] → s.busy = false → s.waiting = w :: rest →
    step s = exec (decode w) { s with waiting := rest }) ∧
  (∀ (s : State) (nbits w : Nat), nbits ≤ 64 → w < 2 ^ 64 →
    step (s.withFetchWord nbits w) =
      exec (decode (BitVec.ofNat 64 w)) { s with busy := s.busy && decide (opField (BitVec.ofNat 64 w) = 0x02#8) }) ∧
  ∀ s : State, s.nextMove = .idle → step s = .next { s with turns := s.turns.tail }

/-- Every command on every state, and every step, has a next state: nothing is refused and nothing is raised. Derived from
R280, R310. -/
def Obligations.EveryStepAnswersNext : Prop :=
  (∀ (i : Instr) (s : State), ∃ t, exec i s = .next t) ∧ ∀ s : State, ∃ t, step s = .next t

/-- A SET_PARAM word stands on `PPORT` and every other word on `CPORT`. A word is accepted in the order of its port: it is the first
that stands on its port and the others keep their order; a word of `CPORT` is accepted only when `BUSY = 0`. On the turn of a
port's agent (the sequencer's with `BUSY = 0`) the first word of that port is accepted, whatever stands on the other port before
it, and if the port has no word the agent has nothing to do. The turns are the model's own (log entry 5). Derived from R89, R90,
R111. -/
def Obligations.AcceptanceKeepsPortOrder : Prop :=
  (∀ w : Word64, portOf w = if opField w = 0x02#8 then .pport else .cport) ∧
  (∀ (s : State) (w : Word64) (rest : List Word64), s.nextMove = .accept w rest →
    (∃ before after, s.waiting = before ++ w :: after ∧ rest = before ++ after ∧ ∀ x ∈ before, portOf x ≠ portOf w) ∧
    (portOf w = .cport → s.busy = false)) ∧
  (∀ (s : State) (w : Word64) (before after : List Word64) (ts : List Agent),
    s.turns = agentOf (portOf w) :: ts → (portOf w = .cport → s.busy = false) →
    s.waiting = before ++ w :: after → (∀ x ∈ before, portOf x ≠ portOf w) →
    s.nextMove = .accept w (before ++ after)) ∧
  ∀ (s : State) (p : Port) (ts : List Agent),
    s.turns = agentOf p :: ts → (p = .cport → s.busy = false) → (∀ x ∈ s.waiting, portOf x ≠ p) → s.nextMove = .idle

/-- On the parameter writer's turn the first SET_PARAM word is performed, whether or not a block is in progress and whatever words
of `CPORT` are held back before it: nothing but the register of its index changes, and nothing at all for an index above 20. That
the writer moves is laid down in the model's own `turns` (log entry 5). Derived from R87, R283, R288. -/
def Obligations.SetParamAcceptedAtAnyTime : Prop :=
  ∀ (s : State) (w : Word64) (before after : List Word64) (ts : List Agent),
    s.turns = .writer :: ts → s.waiting = before ++ w :: after → (∀ x ∈ before, opField x ≠ 0x02#8) → opField w = 0x02#8 →
    (∀ p : Param, aField w = indexOfParam p →
      step s = .next { s with pend := s.pend.write p (cField w), waiting := before ++ after, turns := ts }) ∧
    (20 < (aField w).toNat → step s = .next { s with waiting := before ++ after, turns := ts })

/-- While a block is in progress and ticks remain, the audio sequencer's step is one tick and the advance of `BLK.n`; `BUSY` falls
when no tick remains. With none left at the start, which no run reaches (log entry 12), `BUSY` falls and nothing else changes.
Derived from R263, R287, R288. -/
def Obligations.BusyStepIsOneTick : Prop :=
  ∀ s : State, s.busy = true → s.turns = [] ∨ s.turns.head? = some .sequencer →
    (s.blk.n.toNat < s.blk.num.toNat → step s = .next { s.voiceTick s.blk.n with
      turns := s.turns.tail
      blk := { s.blk with n := s.blk.n + 1#32 }
      busy := decide ((s.blk.n + 1#32).toNat < s.blk.num.toNat) }) ∧
    (s.blk.num.toNat ≤ s.blk.n.toNat → step s = .next { s with turns := s.turns.tail, busy := false })

/-- A RENDER_BLOCK on a voice that is not idle runs to completion in one step and `num` ticks of a sequential host: the machine then
stands in the state of RENDER_BLOCK as one transition, `BUSY` has fallen and `BLK.n = BLK.num`. That an empty list of turns is a
sequential host is the model's choice (log entry 5), that a tick is a step of its own its reading of R280 (log entry 7). Derived
from R263, R280, R287. -/
def Obligations.WholeBlockBySteps : Prop :=
  ∀ (s : State) (nch : BitVec 8) (num : BitVec 16) (start : Word) (rest : List Word64),
    s.turns = [] → s.busy = false → s.waiting = encode (.renderBlock nch num start) :: rest → s.life ≠ .idle →
    let t := State.renderWhole nch num start { s with waiting := rest }
    Host.Core.run Sys2Proof.core (num.toNat + 1) s = .next t ∧
      t.busy = false ∧ t.blk = { n := num.setWidth 32, num := num, start := start, nch := nch }

/-- Splitting a run of samples into blocks differently gives the same samples and the same state, provided no parameter changed in
between and the voice is not idle where the second block starts; only the block registers tell the two apart. Where the voice goes
idle in the first block the two differ, and nothing is said: the second block then writes nothing (R287), while one block would have
gone on to its end (R263). Derived from R263. -/
def Obligations.BlocksSplitEvenly : Prop :=
  ∀ (s : State) (nch : BitVec 8) (a b : BitVec 16) (start : Word),
    s.life ≠ .idle → a.toNat + b.toNat < 2 ^ 16 → (State.renderWhole nch a start s).life ≠ .idle →
    State.renderWhole nch b (start + a.setWidth 32) (State.renderWhole nch a start s) =
      { State.renderWhole nch (a + b) start s with
        blk := { n := b.setWidth 32, num := b, start := start + a.setWidth 32, nch := nch } }

/-- A SET_PARAM between two ticks has no effect on the block in progress: any number of ticks after it give what they give before
it, but for the pending register. Derived from R88. -/
def Obligations.SetParamInvisibleToBlock : Prop :=
  ∀ (s : State) (p : Param) (value : Word) (k : Nat),
    State.blockTicks k (s.writeParam p value) = (State.blockTicks k s).writeParam p value

/-- A SET_PARAM and a `CPORT` command without a snapshot point give the same state in either order. Derived from R314. -/
def Obligations.SetParamCommutesWithoutSnapshot : Prop :=
  ∀ (i : Instr) (s t : State) (p : Param) (value : Word),
    opcodeOf i ≠ 0x02#8 → snapshotPoint i s = false → exec i s = .next t →
    exec i (s.writeParam p value) = .next (t.writeParam p value)

/-! ## The commands (48_commands.md) -/

/-- R281: NOP changes nothing, whatever its other fields. -/
def Obligations.NopChangesNothing : Prop :=
  (∀ s : State, exec .nop s = .next s) ∧
  ∀ (w : Word64) (s : State), opField w = 0x00#8 → exec (decode w) s = .next s

/-- R289, R115: a reserved opcode behaves exactly as NOP, on `CPORT`. -/
def Obligations.ReservedOpcodeIsNop : Prop :=
  (∀ (op : BitVec 8) (s : State), exec (.reserved op) s = .next s) ∧
  ∀ (w : Word64) (s : State), 0x06 ≤ (opField w).toNat → portOf w = .cport ∧ exec (decode w) s = exec .nop s

/-- PREPARE sets `FS` and puts every datapath register at its reset value; both banks, the block registers and `OUT` stay; so it
leaves the reset state but for `FS`, the two banks, the block registers and what is not the core's. Derived from R282, R342. -/
def Obligations.PrepareResult : Prop :=
  (∀ (rate : Word) (s : State), exec (.prepare rate) s = .next { s with
    fs := clampN (f32 rate) (f32 0x472C4400#32) (f32 0x493B8000#32)
    baseF := f32 0#32
    oscA := { prim := { phase := f32 0#32, freq := f32 0#32, shape := f32 0#32 }
              up := { phase := f32 0#32, freq := f32 0#32 }
              down := { phase := f32 0#32, freq := f32 0#32 } }
    oscB := { prim := { phase := f32 0#32, freq := f32 0#32, shape := f32 0#32 }
              up := { phase := f32 0#32, freq := f32 0#32 }
              down := { phase := f32 0#32, freq := f32 0#32 } }
    lfoPhase := f32 0#32
    aenv := { stage := .idle, level := f32 0#32, step := f32 0#32, target := f32 0#32, cnt := 0#32 }
    fenv := { stage := .idle, level := f32 0#32, step := f32 0#32, target := f32 0#32, cnt := 0#32 }
    filt := { s1 := f32 0#32, s2 := f32 0#32, cutoff := f32 0x469C4000#32, res := f32 0x3F800000#32 }
    life := .idle
    xmod := f32 0#32 }) ∧
  ∀ (rate : Word) (s : State), exec (.prepare rate) s = .next { State.reset with
    fs := clampN (f32 rate) fsMin fsMax
    pend := s.pend, snap := s.snap, busy := s.busy, blk := s.blk
    out := s.out, waiting := s.waiting, turns := s.turns }

/-- Each row of SET_PARAM stores its word raw in its register and changes nothing else. Derived from R283, R114. -/
def Obligations.SetParamRowResults : Prop :=
  ∀ (v : Word) (s : State),
    exec (.setParamOscAShape v) s = .next { s with pend := { s.pend with oscAShape := v } } ∧
    exec (.setParamOscBShape v) s = .next { s with pend := { s.pend with oscBShape := v } } ∧
    exec (.setParamOscASemi v) s = .next { s with pend := { s.pend with oscASemi := v } } ∧
    exec (.setParamOscBSemi v) s = .next { s with pend := { s.pend with oscBSemi := v } } ∧
    exec (.setParamUnisonMode v) s = .next { s with pend := { s.pend with unisonMode := v } } ∧
    exec (.setParamDetuneCents v) s = .next { s with pend := { s.pend with detuneCents := v } } ∧
    exec (.setParamFoldDrive v) s = .next { s with pend := { s.pend with foldDrive := v } } ∧
    exec (.setParamFiltCutoff v) s = .next { s with pend := { s.pend with filtCutoff := v } } ∧
    exec (.setParamFiltRes v) s = .next { s with pend := { s.pend with filtRes := v } } ∧
    exec (.setParamFiltEnvAmt v) s = .next { s with pend := { s.pend with filtEnvAmt := v } } ∧
    exec (.setParamLfoRate v) s = .next { s with pend := { s.pend with lfoRate := v } } ∧
    exec (.setParamLfoDepth v) s = .next { s with pend := { s.pend with lfoDepth := v } } ∧
    exec (.setParamLfoDest v) s = .next { s with pend := { s.pend with lfoDest := v } } ∧
    exec (.setParamAenvAttack v) s = .next { s with pend := { s.pend with aenvAttack := v } } ∧
    exec (.setParamAenvDecay v) s = .next { s with pend := { s.pend with aenvDecay := v } } ∧
    exec (.setParamAenvSustain v) s = .next { s with pend := { s.pend with aenvSustain := v } } ∧
    exec (.setParamAenvRelease v) s = .next { s with pend := { s.pend with aenvRelease := v } } ∧
    exec (.setParamFenvAttack v) s = .next { s with pend := { s.pend with fenvAttack := v } } ∧
    exec (.setParamFenvDecay v) s = .next { s with pend := { s.pend with fenvDecay := v } } ∧
    exec (.setParamFenvSustain v) s = .next { s with pend := { s.pend with fenvSustain := v } } ∧
    exec (.setParamFenvRelease v) s = .next { s with pend := { s.pend with fenvRelease := v } }

/-- R283, R117: a SET_PARAM word stands on `PPORT`; it writes `P[a]` and nothing else for `a <= 20`, and changes nothing for
`a > 20`; the generic constructor too. The register written then holds the word and every other register of `P` what it held. -/
def Obligations.SetParamByIndex : Prop :=
  (∀ w : Word64, opField w = 0x02#8 → portOf w = .pport) ∧
  (∀ (w : Word64) (s : State) (p : Param), opField w = 0x02#8 → aField w = indexOfParam p →
    exec (decode w) s = .next { s with pend := s.pend.write p (cField w) }) ∧
  (∀ (w : Word64) (s : State), opField w = 0x02#8 → 20 < (aField w).toNat → exec (decode w) s = .next s) ∧
  (∀ (idx : BitVec 8) (v : Word) (s : State), 20 < idx.toNat → exec (.setParam idx v) s = .next s) ∧
  (∀ (p : Param) (v : Word) (s : State), exec (.setParam (indexOfParam p) v) s = .next { s with pend := s.pend.write p v }) ∧
  (∀ a : BitVec 8, a.toNat ≤ 20 → ∃ p, a = indexOfParam p) ∧
  ∀ (b : PendingBank) (p q : Param) (c : Word), (b.write p c).read q = if q = p then c else b.read q

/-- SNAPSHOT sanitises all of `P` into `S` register by register, leaves `P` and every other register, makes every `S[i]` legal, is
idempotent, and changes nothing on the defaults. Derived from R284, R51. -/
def Obligations.SnapshotSanitises : Prop :=
  (∀ s : State, s.snapshot = { s with snap := {
    oscAShape := clampN (f32 s.pend.oscAShape) (f32 0#32) (f32 0x3F800000#32)
    oscBShape := clampN (f32 s.pend.oscBShape) (f32 0#32) (f32 0x3F800000#32)
    oscASemi := clampN (f32 s.pend.oscASemi) (f32 0xC2400000#32) (f32 0x42400000#32)
    oscBSemi := clampN (f32 s.pend.oscBSemi) (f32 0xC2400000#32) (f32 0x42400000#32)
    unisonMode := if s.pend.unisonMode = 3#32 then 3#32 else 1#32
    detuneCents := clampN (f32 s.pend.detuneCents) (f32 0#32) (f32 0x42C80000#32)
    foldDrive := clampN (f32 s.pend.foldDrive) (f32 0#32) (f32 0x3F800000#32)
    filtCutoff := clampN (f32 s.pend.filtCutoff) (f32 0x41A00000#32) (f32 0x469C4000#32)
    filtRes := clampN (f32 s.pend.filtRes) (f32 0x3F000000#32) (f32 0x41800000#32)
    filtEnvAmt := clampN (f32 s.pend.filtEnvAmt) (f32 0xC69C4000#32) (f32 0x469C4000#32)
    lfoRate := clampN (f32 s.pend.lfoRate) (f32 0#32) (f32 0x469C4000#32)
    lfoDepth := clampN (f32 s.pend.lfoDepth) (f32 0#32) (f32 0x3F800000#32)
    lfoDest := s.pend.lfoDest
    aenvAttack := clampN (f32 s.pend.aenvAttack) (f32 0#32) (f32 0x42700000#32)
    aenvDecay := clampN (f32 s.pend.aenvDecay) (f32 0#32) (f32 0x42700000#32)
    aenvSustain := clampN (f32 s.pend.aenvSustain) (f32 0#32) (f32 0x3F800000#32)
    aenvRelease := clampN (f32 s.pend.aenvRelease) (f32 0#32) (f32 0x42700000#32)
    fenvAttack := clampN (f32 s.pend.fenvAttack) (f32 0#32) (f32 0x42700000#32)
    fenvDecay := clampN (f32 s.pend.fenvDecay) (f32 0#32) (f32 0x42700000#32)
    fenvSustain := clampN (f32 s.pend.fenvSustain) (f32 0#32) (f32 0x3F800000#32)
    fenvRelease := clampN (f32 s.pend.fenvRelease) (f32 0#32) (f32 0x42700000#32) } }) ∧
  (∀ s : State, s.snapshot.snap.legal = true) ∧
  (∀ s : State, s.snapshot.snapshot = s.snapshot) ∧
  State.reset.snapshot = State.reset

/-- START_NOTE: the snapshot, the clamped base frequency, phases and integrators at 0, both envelopes noted on from their level
with the snapshot just taken, `LIFE` at SOUNDING, which agrees with the amplitude envelope; the LFO phase and every other register
stay. Derived from R285. -/
def Obligations.StartNoteResult : Prop :=
  (∀ (freq : Word) (s : State), exec (.startNote freq) s = .next { s with
    snap := s.pend.sanitise
    baseF := clampN (f32 freq) (f32 0#32) (f32 0x469C4000#32)
    oscA := { prim := { s.oscA.prim with phase := f32 0#32 }
              up := { s.oscA.up with phase := f32 0#32 }
              down := { s.oscA.down with phase := f32 0#32 } }
    oscB := { prim := { s.oscB.prim with phase := f32 0#32 }
              up := { s.oscB.up with phase := f32 0#32 }
              down := { s.oscB.down with phase := f32 0#32 } }
    filt := { s.filt with s1 := f32 0#32, s2 := f32 0#32 }
    aenv := s.aenv.noteOn s.fs s.pend.sanitise.ampEnv
    fenv := s.fenv.noteOn s.fs s.pend.sanitise.filtEnv
    life := .sounding }) ∧
  ∀ s : State, (s.aenv.noteOn s.fs s.pend.sanitise.ampEnv).stage ≠ .idle

/-- STOP_NOTE: nothing on an idle voice; with tail-off the snapshot, both envelopes noted off with it, and `LIFE` from the
amplitude envelope's stage; without tail-off both envelopes and `LIFE` at IDLE; every other register stays. Derived from R286. -/
def Obligations.StopNoteResult : Prop :=
  ∀ s : State,
    (s.life = .idle → ∀ tail : Bool, exec (.stopNote tail) s = .next s) ∧
    (s.life ≠ .idle → exec (.stopNote true) s = .next { s with
      snap := s.pend.sanitise
      aenv := s.aenv.noteOff s.fs s.pend.sanitise.ampEnv
      fenv := s.fenv.noteOff s.fs s.pend.sanitise.filtEnv
      life := if (s.aenv.noteOff s.fs s.pend.sanitise.ampEnv).stage = .idle then .idle else .releasing }) ∧
    (s.life ≠ .idle → exec (.stopNote false) s = .next { s with
      aenv := { stage := .idle, level := f32 0#32, step := f32 0#32, target := f32 0#32, cnt := 0#32 }
      fenv := { stage := .idle, level := f32 0#32, step := f32 0#32, target := f32 0#32, cnt := 0#32 }
      life := .idle })

/-- RENDER_BLOCK up to its loop: nothing on an idle voice; else the snapshot, the resonance from it, the block registers, and
`BUSY` while a tick remains (none for `num = 0`); every other register and `OUT` stay. The ticks are the steps that follow (log
entry 7). Derived from R287, R288. -/
def Obligations.RenderBlockStart : Prop :=
  ∀ (nch : BitVec 8) (num : BitVec 16) (start : Word) (s : State),
    (s.life = .idle → exec (.renderBlock nch num start) s = .next s) ∧
    (s.life ≠ .idle → exec (.renderBlock nch num start) s = .next { s with
      snap := s.pend.sanitise
      filt := { s.filt with res := clampN s.pend.sanitise.filtRes (f32 0x3F000000#32) (f32 0x41800000#32) }
      blk := { n := 0#32, num := num, start := start, nch := nch }
      busy := decide (num ≠ 0#16) })

/-! ## Who writes what -/

/-- The snapshot points and no other place: a command that is one leaves `S` sanitised from `P`, every other command and every
tick leave `S` alone; of all steps, only a reset pulse writes `S` beside them, with its reset values. Derived from R88, R291,
R340. -/
def Obligations.SnapshotOnlyAtItsPoints : Prop :=
  (∀ (i : Instr) (s t : State), exec i s = .next t →
    t.snap = if snapshotPoint i s then s.pend.sanitise else s.snap) ∧
  (∀ s : State, s.blockTick.snap = s.snap) ∧
  ∀ s t : State, step s = .next t → t.snap =
    match s.nextMove with
    | .reset => SnapshotBank.reset
    | .accept w _ => if snapshotPoint (decode w) s then s.pend.sanitise else s.snap
    | .tick => s.snap
    | .idle => s.snap

/-- `PPORT` can write `P` and nothing else; `CPORT` can do everything except write `P`. Derived from R317. -/
def Obligations.PortWriteRights : Prop :=
  ∀ (s t : State) (w : Word64) (rest : List Word64), s.nextMove = .accept w rest → step s = .next t →
    (portOf w = .pport → t = { s with pend := t.pend, waiting := rest, turns := s.turns.tail }) ∧
    (portOf w = .cport → t.pend = s.pend)

/-- `FS` is written only by PREPARE and by reset. Derived from R31. -/
def Obligations.SampleRateWriters : Prop :=
  ∀ s t : State, step s = .next t → t.fs ≠ s.fs →
    s.nextMove = .reset ∨ ∃ w rest, s.nextMove = .accept w rest ∧ opField w = 0x01#8

/-- The LFO moves and `XMOD` is written only in a tick, by PREPARE and by reset. Derived from R46, R173. -/
def Obligations.LfoPhaseAndXmodWriters : Prop :=
  ∀ s t : State, step s = .next t → t.lfoPhase ≠ s.lfoPhase ∨ t.xmod ≠ s.xmod →
    s.nextMove = .reset ∨ s.nextMove = .tick ∨ ∃ w rest, s.nextMove = .accept w rest ∧ opField w = 0x01#8

/-- No command changes a word of `OUT`, and of the steps only a tick of a block in progress does. Derived from R84, R259, R341. -/
def Obligations.OutputWriters : Prop :=
  (∀ (i : Instr) (s t : State), exec i s = .next t → ∀ a, outRead t.out a = outRead s.out a) ∧
  ∀ s t : State, step s = .next t → t.out ≠ s.out → s.nextMove = .tick ∧ s.blk.n.toNat < s.blk.num.toNat

/-- `BUSY` rises only in a RENDER_BLOCK past the idle guard, and falls only in a reset or with the last tick. Derived from R288. -/
def Obligations.BusyRisesAndFalls : Prop :=
  ∀ s t : State, step s = .next t →
    (s.busy = false → t.busy = true →
      (∃ w rest, s.nextMove = .accept w rest ∧ opField w = 0x05#8) ∧ s.life ≠ .idle ∧ t.blk.n = 0#32) ∧
    (s.busy = true → t.busy = false →
      s.nextMove = .reset ∨ (s.nextMove = .tick ∧ t.blk.num.toNat ≤ t.blk.n.toNat))

/-- What ends idleness is START_NOTE and nothing else. Derived from R321. -/
def Obligations.IdleEndsOnlyByStartNote : Prop :=
  ∀ s t : State, step s = .next t → s.life = .idle → t.life ≠ .idle →
    ∃ w rest, s.nextMove = .accept w rest ∧ opField w = 0x03#8

/-! ## The tick (47_voice_renderer.md) -/

/-- VOICE_TICK written out in the order of its ten steps: the registers and the words of `OUT` it leaves, and what it keeps. Derived
from R250. -/
def Obligations.VoiceTickOrder : Prop :=
  ∀ (n : Word) (s : State),
    let phase := phaseAdv s.lfoPhase (fdiv s.snap.lfoRate s.fs)
    let l := fmul (sin2pi phase) s.snap.lfoDepth
    let m := route s.snap.lfoDest
    let pmod := fmul (fmul l (f32 0x41400000#32)) m.pitch
    let nyquist := fmul s.fs half
    let fA := clampN (fmul s.baseF (exp2 (fdiv (fadd s.snap.oscASemi pmod) (f32 0x41400000#32)))) zero nyquist
    let fB := clampN (fmul s.baseF (exp2 (fdiv (fadd s.snap.oscBSemi pmod) (f32 0x41400000#32)))) zero nyquist
    let a := (Slot.setFreq s.fs s.snap { s.oscA with prim := s.oscA.prim.setShape s.snap.oscAShape } fA).tick s.fs s.snap
    let b := (Slot.setFreq s.fs s.snap { s.oscB with prim := s.oscB.prim.setShape s.snap.oscBShape } fB).tick s.fs s.snap
    let mix := fmul (fadd a.2 b.2) half
    let drv := clampN (fadd s.snap.foldDrive (fmul l m.fold)) zero one
    let z := fold mix drv
    let fe := s.fenv.next s.fs s.snap.filtEnv
    let fc := clampN (fadd (fadd s.snap.filtCutoff (fmul s.snap.filtEnvAmt fe.level))
      (fmul (fmul l (f32 0x44FA0000#32)) m.cutoff)) (f32 0x41A00000#32) (f32 0x469C4000#32)
    let w := (s.filt.setCutoff fc).process s.fs z
    let ae := s.aenv.next s.fs s.snap.ampEnv
    let trem := clampN (fadd one (fmul l m.amp)) zero one
    let y := fmul w.2 (fmul ae.level trem)
    s.voiceTick n = { s with
      lfoPhase := phase, oscA := a.1, oscB := b.1, fenv := fe, filt := w.1, aenv := ae
      out := writeChannels s.out (s.blk.start + n) y s.blk.nch.toNat
      xmod := fmul l m.xmod
      life := if ae.stage = .idle then .idle else s.life }

/-- A tick overwrites the word at sample index `(BLK.start + BLK.n) mod 2^32` of channels 0 to `BLK.nch - 1` with the sample, and
every other word of `OUT` reads as before. Derived from R259, R262. -/
def Obligations.TickOutputWords : Prop :=
  ∀ (s : State) (ch : Fin 255) (i : Word), s.blk.n.toNat < s.blk.num.toNat →
    s.blockTick.outMap ch i =
      if ch.val < s.blk.nch.toNat ∧ i = s.blk.start + s.blk.n then bits32 s.tickSample else s.outMap ch i

/-- `OUT` is a total map: a write overwrites the word of its channel and index and no other; every map from the 255 channels and
all indices is the `OUT` of a canonical list, and of one only. The list form is the model's (log entry 4). Derived from R80, R82,
R83. -/
def Obligations.OutIsATotalMap : Prop :=
  (∀ (m : List OutCell) (ch ch' : Nat) (i i' : Word) (v : Num32),
    outRead (memWrite m ch i v) (outAddr ch' i') = if ch' = ch ∧ i' = i then bits32 v else outRead m (outAddr ch' i')) ∧
  (∀ (s : State) (f : Fin 255 → Word → Word), ∃ m, Memory.wf m = true ∧ ∀ ch i, { s with out := m }.outMap ch i = f ch i) ∧
  ∀ s t : State, Memory.wf s.out = true → Memory.wf t.out = true → (∀ ch i, s.outMap ch i = t.outMap ch i) → s.out = t.out

/-- The bounds of the values a tick forms in a legal state, the six oscillators' frequencies and phase increments, the LFO's
increment, the two slot outputs and their mean among them. Derived from R265. -/
def Obligations.TickValueBounds : Prop :=
  ∀ s : State, s.legal = true →
    inRange s.tickLfo minusOne one = true ∧
    inRange s.tickPitchMod (f32 0xC1400000#32) (f32 0x41400000#32) = true ∧
    inRange (fadd s.snap.oscASemi s.tickPitchMod) (f32 0xC2700000#32) (f32 0x42700000#32) = true ∧
    inRange (fadd s.snap.oscBSemi s.tickPitchMod) (f32 0xC2700000#32) (f32 0x42700000#32) = true ∧
    inRange (fdiv (fadd s.snap.oscASemi s.tickPitchMod) semitonesPerOctave) minusFive five = true ∧
    inRange (fdiv (fadd s.snap.oscBSemi s.tickPitchMod) semitonesPerOctave) minusFive five = true ∧
    inRange s.tickFreqA zero (fmul s.fs half) = true ∧
    inRange s.tickFreqB zero (fmul s.fs half) = true ∧
    (∀ f ∈ [s.tickSlotA.1.prim.freq, s.tickSlotA.1.up.freq, s.tickSlotA.1.down.freq,
        s.tickSlotB.1.prim.freq, s.tickSlotB.1.up.freq, s.tickSlotB.1.down.freq],
      inRange f zero (fmul s.fs half) = true ∧ inRange (fdiv f s.fs) zero half = true) ∧
    inRange (fdiv s.snap.lfoRate s.fs) zero half = true ∧
    inRange s.tickSlotA.2 minusOne one = true ∧
    inRange s.tickSlotB.2 minusOne one = true ∧
    inRange s.tickMix minusOne one = true ∧
    inRange s.tickDrive zero one = true ∧
    inRange s.tickFolded minusOne one = true ∧
    inRange s.tickFenv.level zero one = true ∧
    inRange s.tickCutoff cutoffMin cutoffMax = true ∧
    inRange s.tickAenv.level zero one = true ∧
    inRange s.tickTremolo zero one = true ∧
    inRange s.tickAmp zero one = true ∧
    inRange s.tickXmod minusOne one = true

/-- The ticks that remain after the voice went idle in the middle of a block write `+0` or `-0`, the filter's output being finite.
Derived from R261. -/
def Obligations.IdleTicksWriteZeros : Prop :=
  ∀ s : State, s.legal = true → s.aenv.stage = .idle → s.tickFilter.2.isFinite = true →
    s.tickSample = f32 0x00000000#32 ∨ s.tickSample = f32 0x80000000#32

/-! ## Reset and the invariants -/

/-- A reset pulse, at any moment and in any state, puts every register at its reset value and leaves `OUT` as it is. That the
words on the ports stay is the model's choice (log entry 6). Derived from R340, R341. -/
def Obligations.ResetPulse : Prop :=
  ∀ (s : State) (ts : List Agent), s.turns = .reset :: ts →
    step s = .next { State.reset with out := s.out, waiting := s.waiting, turns := ts }

/-- R75: the value of every register after reset. -/
def Obligations.ResetValues : Prop :=
  let e0 : Envelope := { stage := .idle, level := f32 0#32, step := f32 0#32, target := f32 0#32, cnt := 0#32 }
  let k0 : Slot := { prim := { phase := f32 0#32, freq := f32 0#32, shape := f32 0#32 }
                     up := { phase := f32 0#32, freq := f32 0#32 }
                     down := { phase := f32 0#32, freq := f32 0#32 } }
  let r := State.reset
  r.fs = f32 0x472C4400#32 ∧ r.baseF = f32 0#32 ∧ r.oscA = k0 ∧ r.oscB = k0 ∧ r.lfoPhase = f32 0#32 ∧
  r.aenv = e0 ∧ r.fenv = e0 ∧
  r.filt = { s1 := f32 0#32, s2 := f32 0#32, cutoff := f32 0x469C4000#32, res := f32 0x3F800000#32 } ∧
  r.life = .idle ∧ r.xmod = f32 0#32 ∧ r.busy = false ∧
  r.blk = { n := 0#32, num := 0#16, start := 0#32, nch := 0#8 } ∧
  r.pend = { oscAShape := 0#32, oscBShape := 0#32, oscASemi := 0#32, oscBSemi := 0#32, unisonMode := 1#32
             detuneCents := 0#32, foldDrive := 0#32, filtCutoff := 0x469C4000#32, filtRes := 0x3F800000#32
             filtEnvAmt := 0#32, lfoRate := 0#32, lfoDepth := 0#32, lfoDest := 0#32
             aenvAttack := 0#32, aenvDecay := 0#32, aenvSustain := 0x3F800000#32, aenvRelease := 0#32
             fenvAttack := 0#32, fenvDecay := 0#32, fenvSustain := 0x3F800000#32, fenvRelease := 0#32 } ∧
  r.snap = { oscAShape := f32 0#32, oscBShape := f32 0#32, oscASemi := f32 0#32, oscBSemi := f32 0#32, unisonMode := 1#32
             detuneCents := f32 0#32, foldDrive := f32 0#32, filtCutoff := f32 0x469C4000#32, filtRes := f32 0x3F800000#32
             filtEnvAmt := f32 0#32, lfoRate := f32 0#32, lfoDepth := f32 0#32, lfoDest := 0#32
             aenvAttack := f32 0#32, aenvDecay := f32 0#32, aenvSustain := f32 0x3F800000#32, aenvRelease := f32 0#32
             fenvAttack := f32 0#32, fenvDecay := f32 0#32, fenvSustain := f32 0x3F800000#32, fenvRelease := f32 0#32 }

/-- The reset state is legal. Its part about `OUT`, that the reset list is canonical, is about the model's form of `OUT` and its
choice of an empty list at reset (log entry 4, DESIGN CHOICE); of the filter integrators it says nothing (log entry 12), ResetValues
does. Derived from R75 and the legal values of R31 to R51. -/
def Obligations.ResetIsLegal : Prop := State.reset.legal = true

/-- Every step keeps the legal values of every register but the filter integrators `FILT.s1` and `FILT.s2`, on which `State.legal`
puts no bound: that they stay finite (R42) is not proven by the spec (46_filter.md R236 (d); log entry 12, DESIGN CHOICE). It
keeps the phase, envelope, filter-cutoff and lifecycle invariants and the canonical form of `OUT`. The canonical form is the
model's (log entry 4, DESIGN CHOICE), and so is that a tick remains while `BUSY = 1`, since the last tick and the fall of `BUSY`
are one step (`State.blockOk`; log entry 7, DEDUCED). Derived from R31 to R37, R41 to R43, R45, R46, R48, R51, R288. -/
def Obligations.StepKeepsLegal : Prop :=
  ∀ s t : State, s.legal = true → step s = .next t → t.legal = true

/-- `LIFE = IDLE` if and only if the amplitude envelope is in IDLE: every step keeps it, whatever the other registers hold, and
`ACTIVE` then is ENV_IS_ACTIVE(AENV). The four status outputs: `ACTIVE` is 1 if `LIFE` is not IDLE, `LIFE` stands with its code,
`BUSY` and the bits of `XMOD` as the registers hold them; and the stage codes. Derived from R45, R47, R121, R122, R290. -/
def Obligations.LifeAgreesAndStatusOutputs : Prop :=
  (∀ s t : State, s.lifeAgrees = true → step s = .next t → t.lifeAgrees = true) ∧
  (∀ s : State, s.lifeAgrees = true → s.status.active = s.aenv.isActive) ∧
  (∀ s : State, s.status = { active := decide (s.life ≠ .idle), life := s.life.code, busy := s.busy, xmod := s.xmod.bits }) ∧
  (Life.idle.code = 0#2 ∧ Life.sounding.code = 1#2 ∧ Life.releasing.code = 2#2) ∧
  (Stage.idle.code = 0#3 ∧ Stage.attack.code = 1#3 ∧ Stage.decay.code = 2#3 ∧ Stage.sustain.code = 3#3 ∧
    Stage.release.code = 4#3)

/-- Every step keeps the canonical form of `OUT`, whatever the registers hold. The form is the model's (log entry 4). Derived from
R80. -/
def Obligations.OutStaysCanonical : Prop :=
  ∀ s t : State, Memory.wf s.out = true → step s = .next t → Memory.wf t.out = true

/-- `FILT.cutoff` is within [20, 20000] Hz after a tick from any state at all. Derived from R43, R231. -/
def Obligations.CutoffClampedByTick : Prop :=
  ∀ (s : State) (n : Word), inRange (s.voiceTick n).filt.cutoff (f32 0x41A00000#32) (f32 0x469C4000#32) = true

/-! ## Arithmetic (00_scope.md R8 to R11) -/

/-- Each of `+`, `-`, `*`, `/` on finite operands, where its result is finite, is the exact result rounded to nearest, ties to
even. Derived from R8; results that overflow are not covered. -/
def Obligations.RoundingIsNearestEven : Prop :=
  ∀ x y z : Num32, x.isFinite = true → y.isFinite = true → z.isFinite = true →
    ((fadd x y).isFinite = true → nearestEven (fadd x y) z (x.val + y.val) 1) ∧
    ((fsub x y).isFinite = true → nearestEven (fsub x y) z (x.val - y.val) 1) ∧
    ((fmul x y).isFinite = true → nearestEven (fmul x y) z (x.val * y.val) (2 ^ 149)) ∧
    (y.val ≠ 0 → (fdiv x y).isFinite = true → nearestEven (fdiv x y) z (x.val * 2 ^ 149) y.val)

/-- R10: the clamp. -/
def Obligations.ClampBehaviour : Prop :=
  ∀ v lo hi : Num32, fle lo hi = true →
    (inRange v lo hi = true → clampN v lo hi = v) ∧
    (flt v lo = true → clampN v lo hi = lo) ∧
    (flt hi v = true → clampN v lo hi = hi) ∧
    (v.isNaN = true → clampN v lo hi = lo) ∧
    (v = f32 0x7F800000#32 → clampN v lo hi = hi) ∧
    (v = f32 0xFF800000#32 → clampN v lo hi = lo)

/-- `floor` is the exact floor of every finite value, and `toU32` the exact integer on its domain. Derived from R11. -/
def Obligations.FloorAndIntegerConversion : Prop :=
  (∀ x : Num32, x.isFinite = true → (ffloor x).isFinite = true ∧ (ffloor x).val = x.val / 2 ^ 149 * 2 ^ 149) ∧
  ∀ x : Num32, x.isFinite = true → 0 ≤ x.val → x.val % 2 ^ 149 = 0 → x.val < 2 ^ 32 * 2 ^ 149 →
    ((toU32 x).toNat : Int) * 2 ^ 149 = x.val

/-- The configuration functions have the required exact values and range properties. Derived from R9; the ends of the range of
`tanpi` are taken as binary32 quotients (log entry 2). -/
def Obligations.ConfigurationFunctions : Prop :=
  sin2pi zero = zero ∧ sin2pi quarter = one ∧ sin2pi half = zero ∧ sin2pi threeQuarters = minusOne ∧
  exp2 zero = one ∧ exp2 one = two ∧ exp2 minusOne = half ∧ tanpi quarter = one ∧
  (∀ p, phaseOk p = true → inRange (sin2pi p) minusOne one = true) ∧
  (∀ x, inRange x minusFive five = true → (exp2 x).isFinite = true ∧ flt zero (exp2 x) = true) ∧
  (∀ x y, fle minusFive x = true → fle x y = true → fle y five = true → fle (exp2 x) (exp2 y) = true) ∧
  (∀ w, inRange w tanpiArgMin tanpiArgMax = true → (tanpi w).isFinite = true ∧ flt zero (tanpi w) = true) ∧
  ∀ w v, fle tanpiArgMin w = true → fle w v = true → fle v tanpiArgMax = true → fle (tanpi w) (tanpi v) = true

/-! ## The components -/

/-- Every phase stays in [0, 1) through OSC_TICK, UNISON_TICK and LFO_TICK, and the one subtraction of the wrap is exact. Derived
from R35, R144, R149. -/
def Obligations.PhasesStayInUnit : Prop :=
  (∀ (fs : Num32) (o : Osc), inRange fs fsMin fsMax = true → phaseOk o.phase = true →
    inRange o.freq zero (fmul fs half) = true → phaseOk (o.tick fs).1.phase = true) ∧
  (∀ (fs : Num32) (sn : SnapshotBank) (k : Slot), inRange fs fsMin fsMax = true → k.legal fs = true →
    phaseOk (k.tick fs sn).1.prim.phase = true ∧ phaseOk (k.tick fs sn).1.up.phase = true ∧
      phaseOk (k.tick fs sn).1.down.phase = true) ∧
  (∀ s : State, s.legal = true → phaseOk s.lfoAdvance.lfoPhase = true) ∧
  ∀ p inc : Num32, phaseOk p = true → inRange inc zero half = true → fge (fadd p inc) one = true →
    (phaseAdv p inc).val = (fadd p inc).val - 2 ^ 149

/-- PHASE_ADV, lerp and OSC_WAVE written out at every phase and shape; OSC_SET_FREQ stores unchanged, OSC_SET_SHAPE clamps, OSC_TICK
advances first and samples the new phase, OSC_RESET zeroes the three phases of a slot. Derived from R141 to R147. -/
def Obligations.OscillatorOperations : Prop :=
  (∀ p inc : Num32, phaseAdv p inc =
    if fle (f32 0x3F800000#32) (fadd p inc) then fsub (fadd p inc) (f32 0x3F800000#32) else fadd p inc) ∧
  (∀ x y t : Num32, lerp x y t = fadd (fmul (fsub (f32 0x3F800000#32) t) x) (fmul t y)) ∧
  (∀ p shape : Num32,
    let sine := sin2pi p
    let saw := fsub (fmul (f32 0x40000000#32) p) (f32 0x3F800000#32)
    let square := if flt p (f32 0x3F000000#32) then f32 0x3F800000#32 else f32 0xBF800000#32
    oscWave p shape =
      if fle shape (f32 0x3F000000#32) then lerp sine saw (fdiv shape (f32 0x3F000000#32))
      else lerp saw square (fdiv (fsub shape (f32 0x3F000000#32)) (f32 0x3F000000#32))) ∧
  (∀ (o : Osc) (hz : Num32), o.setFreq hz = { phase := o.phase, freq := hz, shape := o.shape }) ∧
  (∀ (o : Osc) (x : Num32), o.setShape x = { phase := o.phase, freq := o.freq, shape := clampN x (f32 0#32) (f32 0x3F800000#32) }) ∧
  (∀ (o : Osc) (fs : Num32), o.tick fs =
    ({ phase := phaseAdv o.phase (fdiv o.freq fs), freq := o.freq, shape := o.shape },
      oscWave (phaseAdv o.phase (fdiv o.freq fs)) o.shape)) ∧
  ∀ k : Slot, k.resetPhases =
    { prim := { phase := f32 0#32, freq := k.prim.freq, shape := k.prim.shape }
      up := { phase := f32 0#32, freq := k.up.freq }
      down := { phase := f32 0#32, freq := k.down.freq } }

/-- The waveform is in [-1, 1] at every phase and every shape in [0, 1], and no NaN; at the three shapes it is the sine at 0 (as
values: a zero may change its sign), exactly `2p - 1` at 0.5 and exactly the square at 1. Derived from R148. -/
def Obligations.WaveformRangeAndEndpoints : Prop :=
  (∀ p shape : Num32, phaseOk p = true → inRange shape zero one = true →
    inRange (oscWave p shape) minusOne one = true) ∧
  ∀ p : Num32, phaseOk p = true →
    feq (oscWave p zero) (sin2pi p) = true ∧
    oscWave p half = fsub (fmul two p) one ∧
    oscWave p one = if flt p half then one else minusOne

/-- UNISON_SET_FREQ at every detune: the primary at `f`, the copy U at `f` times the ratio `exp2(cents / 1200)` and D at `f`
divided by it, each clamped to [0, FS/2], phases and shape kept. UNISON_TICK in mode 1 gives the primary's OSC_TICK sample
untouched, in mode 3 the average, and the two copies advance in both modes; the average of three samples in [-1, 1] is in [-1, 1].
Derived from R161, R162, R163, R165, R166. -/
def Obligations.UnisonFrequenciesAndModes : Prop :=
  (∀ (fs f : Num32) (sn : SnapshotBank) (k : Slot),
    let ratio := exp2 (fdiv sn.detuneCents (f32 0x44960000#32))
    let nyquist := fmul fs (f32 0x3F000000#32)
    Slot.setFreq fs sn k f =
      { prim := { phase := k.prim.phase, freq := f, shape := k.prim.shape }
        up := { phase := k.up.phase, freq := clampN (fmul f ratio) (f32 0#32) nyquist }
        down := { phase := k.down.phase, freq := clampN (fdiv f ratio) (f32 0#32) nyquist } }) ∧
  (∀ xp xu xd : Num32, inRange xp minusOne one = true → inRange xu minusOne one = true → inRange xd minusOne one = true →
    inRange (unisonMean xp xu xd) minusOne one = true) ∧
  ∀ (fs : Num32) (sn : SnapshotBank) (k : Slot),
    (k.tick fs sn).1.prim = (k.prim.tick fs).1 ∧
    (k.tick fs sn).1.up = { k.up with phase := phaseAdv k.up.phase (fdiv k.up.freq fs) } ∧
    (k.tick fs sn).1.down = { k.down with phase := phaseAdv k.down.phase (fdiv k.down.freq fs) } ∧
    (sn.unisonMode ≠ 3#32 → (k.tick fs sn).2 = (k.prim.tick fs).2) ∧
    (sn.unisonMode = 3#32 → (k.tick fs sn).2 =
      fdiv (fadd (fadd (k.prim.tick fs).2 (oscWave (phaseAdv k.up.phase (fdiv k.up.freq fs)) k.prim.shape))
        (oscWave (phaseAdv k.down.phase (fdiv k.down.freq fs)) k.prim.shape)) (f32 0x40400000#32))

/-- At detune 0 and with equal phases the three oscillators of a slot stay together: equal frequencies, equal phases, equal samples,
so that mode 3 averages three equal samples. Derived from R161, R162, R166. -/
def Obligations.ZeroDetuneCollapses : Prop :=
  ∀ (fs : Num32) (sn : SnapshotBank) (k : Slot) (shape f : Num32),
    inRange fs fsMin fsMax = true → inRange f zero (fmul fs half) = true → feq sn.detuneCents zero = true →
    k.up.phase = k.prim.phase → k.down.phase = k.prim.phase →
    let r := k.render fs sn shape f
    let x := oscWave r.1.prim.phase r.1.prim.shape
    r.1.prim.freq = f ∧ r.1.up.freq = f ∧ r.1.down.freq = f ∧
    r.1.up.phase = r.1.prim.phase ∧ r.1.down.phase = r.1.prim.phase ∧
    r.2 = if sn.unisonMode = 3#32 then fdiv (fadd (fadd x x) x) unisonCount else x

/-- The LFO sample of a tick is no NaN and lies in [-depth, +depth]. Derived from R171. -/
def Obligations.LfoWithinDepth : Prop :=
  ∀ s : State, s.legal = true → s.tickLfo.isNaN = false ∧ s.tickLfo.mag ≤ s.snap.lfoDepth.mag

/-- R181, R182: the router's multipliers, and that at most one is 1. -/
def Obligations.RouterIsOneHot : Prop :=
  (∀ dest : Word,
    (route dest).pitch = (if dest = 1#32 then f32 0x3F800000#32 else f32 0#32) ∧
    (route dest).cutoff = (if dest = 2#32 then f32 0x3F800000#32 else f32 0#32) ∧
    (route dest).amp = (if dest = 3#32 then f32 0x3F800000#32 else f32 0#32) ∧
    (route dest).fold = (if dest = 4#32 then f32 0x3F800000#32 else f32 0#32) ∧
    (route dest).xmod = (if dest = 5#32 then f32 0x3F800000#32 else f32 0#32)) ∧
  ∀ dest : Word,
    let ms := [(route dest).pitch, (route dest).cutoff, (route dest).amp, (route dest).fold, (route dest).xmod]
    (1 ≤ dest.toNat ∧ dest.toNat ≤ 5 → ms.count (f32 0x3F800000#32) = 1 ∧ ms.count (f32 0#32) = 4) ∧
    (¬(1 ≤ dest.toNat ∧ dest.toNat ≤ 5) → ms.count (f32 0#32) = 5)

/-- The parameters (a, d, s, r) of each envelope, and the entries of an envelope: note-on, the entry of the decay, note-off and
reset, with the stage length `floor(t * FS)`. Derived from R123, R194 to R198. -/
def Obligations.EnvelopeParametersAndEntries : Prop :=
  (∀ sn : SnapshotBank,
    sn.ampEnv = { attack := sn.aenvAttack, decay := sn.aenvDecay, sustain := sn.aenvSustain, release := sn.aenvRelease } ∧
    sn.filtEnv = { attack := sn.fenvAttack, decay := sn.fenvDecay, sustain := sn.fenvSustain, release := sn.fenvRelease }) ∧
  ∀ (fs : Num32) (q : EnvParams) (e : Envelope),
    let na := ffloor (fmul q.attack fs)
    let nd := ffloor (fmul q.decay fs)
    let nr := ffloor (fmul q.release fs)
    let idle : Envelope := { stage := .idle, level := zero, step := zero, target := zero, cnt := 0#32 }
    (fge na one = true → e.noteOn fs q =
      { stage := .attack, level := e.level, step := fdiv (fsub one e.level) na, target := one, cnt := toU32 na }) ∧
    (fge na one = false → e.noteOn fs q = Envelope.enterDecay fs q { e with level := one }) ∧
    (fge nd one = true → e.enterDecay fs q =
      { stage := .decay, level := e.level, step := fdiv (fsub e.level q.sustain) nd, target := q.sustain, cnt := toU32 nd }) ∧
    (fge nd one = false → e.enterDecay fs q =
      { stage := .sustain, level := q.sustain, step := zero, target := q.sustain, cnt := 0#32 }) ∧
    (e.stage = .idle → e.noteOff fs q = e) ∧
    (e.stage ≠ .idle → fge nr one = true → e.noteOff fs q =
      { stage := .release, level := e.level, step := fdiv e.level nr, target := zero, cnt := toU32 nr }) ∧
    (e.stage ≠ .idle → fge nr one = false → e.noteOff fs q = idle) ∧
    e.toReset = idle

/-- ENV_NEXT stage by stage, the counter being at least 1 in a ramp stage; `min` and `max` as 44_envelope.md defines them. Derived
from R199 to R204. -/
def Obligations.EnvelopeNextByStage : Prop :=
  (∀ x y : Num32, fmin x y = (if fle x y then x else y) ∧ fmax x y = if fge x y then x else y) ∧
  ∀ (fs : Num32) (q : EnvParams) (e : Envelope),
    (e.stage = .attack → 2 ≤ e.cnt.toNat →
      e.next fs q = { e with level := fmin (fadd e.level e.step) one, cnt := e.cnt - 1#32 }) ∧
    (e.stage = .attack → e.cnt = 1#32 → e.next fs q = Envelope.enterDecay fs q { e with level := one }) ∧
    (e.stage = .decay → 2 ≤ e.cnt.toNat →
      e.next fs q = { e with level := fmax (fsub e.level e.step) e.target, cnt := e.cnt - 1#32 }) ∧
    (e.stage = .decay → e.cnt = 1#32 →
      e.next fs q = { stage := .sustain, level := e.target, step := zero, target := e.target, cnt := 0#32 }) ∧
    (e.stage = .sustain → e.next fs q = e) ∧
    (e.stage = .release → 2 ≤ e.cnt.toNat →
      e.next fs q = { e with level := fmax (fsub e.level e.step) zero, cnt := e.cnt - 1#32 }) ∧
    (e.stage = .release → e.cnt = 1#32 →
      e.next fs q = { stage := .idle, level := zero, step := zero, target := zero, cnt := 0#32 }) ∧
    (e.stage = .idle → e.next fs q = e)

/-- A ramp stage with counter `n` lasts exactly `n` calls of ENV_NEXT and then is the next stage, whatever its step: the attack at
level 1 into the decay, the decay at its target into the sustain, the release at 0 into IDLE. Derived from R205, R207. -/
def Obligations.RampLastsItsCount : Prop :=
  ∀ (fs : Num32) (q : EnvParams) (e : Envelope), e.cnt ≠ 0#32 →
    (e.stage = .attack ∨ e.stage = .decay ∨ e.stage = .release →
      ∀ k : Nat, k < e.cnt.toNat →
        ((Envelope.next fs q)^[k] e).stage = e.stage ∧ ((Envelope.next fs q)^[k] e).cnt.toNat = e.cnt.toNat - k) ∧
    (e.stage = .attack → (Envelope.next fs q)^[e.cnt.toNat] e = Envelope.enterDecay fs q { e with level := one }) ∧
    (e.stage = .decay → (Envelope.next fs q)^[e.cnt.toNat] e =
      { stage := .sustain, level := e.target, step := zero, target := e.target, cnt := 0#32 }) ∧
    (e.stage = .release → (Envelope.next fs q)^[e.cnt.toNat] e =
      { stage := .idle, level := zero, step := zero, target := zero, cnt := 0#32 })

/-- The level does not decrease in the attack (until the call that ends it into a decay shorter than one sample), does not
increase in the decay and the release, does not go below the target in the decay, and is constant in the sustain. Derived from
R207, R208. -/
def Obligations.EnvelopeIsMonotone : Prop :=
  ∀ (fs : Num32) (q : EnvParams) (e : Envelope),
    inRange fs fsMin fsMax = true → q.legal = true → e.legal = true →
    (e.stage = .attack → (e.next fs q).stage ≠ .sustain → fle e.level (e.next fs q).level = true) ∧
    (e.stage = .attack → (e.next fs q).stage = .sustain → (e.next fs q).level = q.sustain) ∧
    (e.stage = .decay → fle (e.next fs q).level e.level = true ∧ fle e.target (e.next fs q).level = true) ∧
    (e.stage = .sustain → (e.next fs q).level = e.level) ∧
    (e.stage = .release → fle (e.next fs q).level e.level = true)

/-- FOLD written out: the gain `1 + 3 * clampN(drive, 0, 1)`, two reflections at 1 and -1, the final clamp. Its result is in [-1,
1] for every input and drive, NaN and infinities included; at drive 0 or NaN it is the identity on [-1, 1], bit for bit. Derived
from R221, R222, R223. -/
def Obligations.FoldCurveBoundsAndIdentity : Prop :=
  (∀ x drive : Num32,
    let reflect1 (u : Num32) : Num32 :=
      if flt (f32 0x3F800000#32) u then fsub (f32 0x40000000#32) u
      else if flt u (f32 0xBF800000#32) then fsub (f32 0xC0000000#32) u else u
    let gain := fadd (f32 0x3F800000#32)
      (fmul (f32 0x40400000#32) (clampN drive (f32 0#32) (f32 0x3F800000#32)))
    fold x drive = clampN (reflect1 (reflect1 (fmul gain x))) (f32 0xBF800000#32) (f32 0x3F800000#32)) ∧
  (∀ x drive : Num32, inRange (fold x drive) minusOne one = true) ∧
  ∀ x drive : Num32, inRange x minusOne one = true → feq drive zero = true ∨ drive.isNaN = true → fold x drive = x

/-- The filter's setters, its reset, and one call of FILT_PROCESS written out. Derived from R231 to R235. -/
def Obligations.FilterOperations : Prop :=
  (∀ (f : SvFilter) (hz : Num32), f.setCutoff hz = { f with cutoff := clampN hz (f32 0x41A00000#32) (f32 0x469C4000#32) }) ∧
  (∀ (f : SvFilter) (q : Num32), f.setRes q = { f with res := clampN q (f32 0x3F000000#32) (f32 0x41800000#32) }) ∧
  (∀ f : SvFilter, f.resetIntegrators = { f with s1 := f32 0#32, s2 := f32 0#32 }) ∧
  ∀ (fs : Num32) (f : SvFilter) (x : Num32),
    let g := tanpi (fdiv f.cutoff fs)
    let r2 := fdiv one f.res
    let h := fdiv one (fadd (fadd one (fmul r2 g)) (fmul g g))
    let hp := fmul h (fsub (fsub x (fmul f.s1 (fadd g r2))) f.s2)
    let v1 := fmul g hp
    let bp := fadd v1 f.s1
    let v2 := fmul g bp
    let lp := fadd v2 f.s2
    f.process fs x = ({ f with s1 := fadd bp v1, s2 := fadd lp v2 }, lp)

/-- For legal parameter registers and sample rate the gain is finite and positive and the damping lies in [0.0625, 2]. Derived from
R234; the ends of the range of `tanpi` are taken as binary32 quotients (log entry 2). -/
def Obligations.FilterCoefficientBounds : Prop :=
  ∀ (fs : Num32) (f : SvFilter), inRange fs fsMin fsMax = true → f.legal = true →
    (f.gain fs).isFinite = true ∧ flt zero (f.gain fs) = true ∧
      inRange f.damping (f32 0x3D800000#32) (f32 0x40000000#32) = true

end
end

