-- ==== Sys2Proof/Laws/Rounding.lean ====
section
/-! SUPPORT. The one rounding: what `packNum` builds, that `roundMag` never crosses a representable magnitude, and that it is
exact on one. -/

namespace Sys2Proof

set_option Elab.async false

/-- The magnitude encoded by bits 30:0, in units of 2^-149. -/
def magOf (m : Nat) : Nat :=
  if m / 2 ^ 23 = 0 then m % 2 ^ 23 else (2 ^ 23 + m % 2 ^ 23) * 2 ^ (m / 2 ^ 23 - 1)

theorem packNum_toNat {m : Nat} (s : Bool) (h : m < 2 ^ 31) :
    (packNum s m).bits.toNat = (if s then 2 ^ 31 else 0) + m := by
  simp only [packNum, BitVec.toNat_ofNat]
  cases s
  · simp only [Bool.false_eq_true, if_false]; omega
  · simp only [if_true]; omega

theorem lt_of_le_infMag {m : Nat} (h : m ≤ infMag) : m < 2 ^ 31 := lt_of_le_of_lt h (by decide)

theorem packNum_sign {m : Nat} (s : Bool) (h : m ≤ infMag) : (packNum s m).sign = s := by
  unfold Num32.sign; rw [packNum_toNat s (lt_of_le_infMag h)]; unfold infMag at h
  cases s <;> simp; omega

theorem packNum_expo {m : Nat} (s : Bool) (h : m ≤ infMag) : (packNum s m).expo = m / 2 ^ 23 := by
  unfold Num32.expo; rw [packNum_toNat s (lt_of_le_infMag h)]; unfold infMag at h
  cases s <;> simp <;> omega

theorem packNum_frac {m : Nat} (s : Bool) (h : m ≤ infMag) : (packNum s m).frac = m % 2 ^ 23 := by
  unfold Num32.frac; rw [packNum_toNat s (lt_of_le_infMag h)]; unfold infMag at h
  cases s <;> simp <;> omega

theorem packNum_mag {m : Nat} (s : Bool) (h : m ≤ infMag) : (packNum s m).mag = magOf m := by
  unfold Num32.mag magOf; rw [packNum_expo s h, packNum_frac s h]

theorem packNum_isNaN {m : Nat} (s : Bool) (h : m ≤ infMag) : (packNum s m).isNaN = false := by
  unfold Num32.isNaN; rw [packNum_expo s h, packNum_frac s h]; unfold infMag at h
  have h' : m / 8388608 = 255 → m % 8388608 = 0 := by omega
  simpa using h'

theorem packNum_val {m : Nat} (s : Bool) (h : m ≤ infMag) :
    (packNum s m).val = if s then -(magOf m : Int) else (magOf m : Int) := by
  unfold Num32.val; rw [packNum_sign s h, packNum_mag s h]

/-- The bits 30:0 of a value. -/
def lowBits (x : Num32) : Nat := x.bits.toNat % 2 ^ 31

theorem lowBits_lt (x : Num32) : lowBits x < 2 ^ 31 := Nat.mod_lt _ (by decide)

theorem expo_eq (x : Num32) : x.expo = lowBits x / 2 ^ 23 := by
  unfold Num32.expo lowBits; have := x.bits.isLt; omega

theorem frac_eq (x : Num32) : x.frac = lowBits x % 2 ^ 23 := by
  unfold Num32.frac lowBits; have := x.bits.isLt; omega

theorem mag_eq (x : Num32) : x.mag = magOf (lowBits x) := by
  unfold Num32.mag magOf; rw [expo_eq, frac_eq]

theorem lowBits_le_infMag {x : Num32} (h : x.isNaN = false) : lowBits x ≤ infMag := by
  unfold Num32.isNaN at h; rw [expo_eq, frac_eq] at h
  have := lowBits_lt x
  unfold infMag
  have h' : lowBits x / 8388608 = 255 → lowBits x % 8388608 = 0 := by simpa using h
  omega

/-- A value that is no NaN is built from its sign and its bits 30:0. -/
theorem packNum_lowBits (x : Num32) : packNum x.sign (lowBits x) = x := by
  have h : (packNum x.sign (lowBits x)).bits = x.bits := by
    apply BitVec.eq_of_toNat_eq
    rw [packNum_toNat _ (lowBits_lt x)]
    have := x.bits.isLt
    unfold Num32.sign lowBits
    by_cases h : 2 ^ 31 ≤ x.bits.toNat
    · simp only [h, decide_true, if_true]; omega
    · simp only [h, decide_false, Bool.false_eq_true, if_false]; omega
  cases x; cases h' : packNum _ _; simp_all

/-- Every encoded magnitude is a significand of at most 24 bits times a power of two, and the encoding is the exponent
times 2^23 plus the significand. -/
theorem magOf_split (j : Nat) :
    ∃ k q, magOf j = q * 2 ^ k ∧ j = k * 2 ^ 23 + q ∧ q < 2 ^ 24 ∧ (0 < k → 2 ^ 23 ≤ q) := by
  unfold magOf
  by_cases h : j / 2 ^ 23 = 0
  · refine ⟨0, j, ?_, by omega, by omega, by omega⟩
    rw [if_pos h]; simp; omega
  · refine ⟨j / 2 ^ 23 - 1, 2 ^ 23 + j % 2 ^ 23, by rw [if_neg h], ?_, by omega, by omega⟩
    obtain ⟨e, he⟩ : ∃ e, j / 2 ^ 23 = e + 1 := ⟨j / 2 ^ 23 - 1, by omega⟩
    rw [he]; simp only [Nat.add_sub_cancel]; omega

/-- The exponent that `roundMag` takes. -/
theorem log_bounds (t : Nat) :
    t < 2 ^ (t.log2 - 23 + 24) ∧ (0 < t.log2 - 23 → 2 ^ (t.log2 - 23 + 23) ≤ t) := by
  constructor
  · by_cases h : 23 ≤ t.log2
    · rw [show t.log2 - 23 + 24 = t.log2 + 1 by omega]; exact Nat.lt_log2_self
    · calc t < 2 ^ (t.log2 + 1) := Nat.lt_log2_self
        _ ≤ _ := Nat.pow_le_pow_right (by decide) (by omega)
  · intro h
    rw [show t.log2 - 23 + 23 = t.log2 by omega]
    exact Nat.log2_self_le (by rintro rfl; simp at h)

/-- The significand before the rounding decision is in range. -/
theorem significand_bounds (n d : Nat) :
    n / (d * 2 ^ ((n / d).log2 - 23)) < 2 ^ 24 ∧
      (0 < (n / d).log2 - 23 → 2 ^ 23 ≤ n / (d * 2 ^ ((n / d).log2 - 23))) := by
  obtain ⟨h1, h2⟩ := log_bounds (n / d)
  have hk : 0 < 2 ^ ((n / d).log2 - 23) := Nat.pos_of_ne_zero (by positivity)
  rw [← Nat.div_div_eq_div_mul]
  constructor
  · rw [Nat.div_lt_iff_lt_mul hk, ← pow_add, add_comm]; exact h1
  · intro h
    rw [Nat.le_div_iff_mul_le hk, ← pow_add, add_comm]; exact h2 h

theorem roundMag_le_infMag (n d : Nat) : roundMag n d ≤ infMag := Nat.min_le_right _ _

/-- Rounding does not go above a representable magnitude that is not below the exact value. -/
theorem roundMag_le {n d j : Nat} (hd : 0 < d) (h : n ≤ magOf j * d) : roundMag n d ≤ j := by
  obtain ⟨kj, qj, hm, hj, hq, hn⟩ := magOf_split j
  obtain ⟨hs1, hs2⟩ := significand_bounds n d
  obtain ⟨hl1, hl2⟩ := log_bounds (n / d)
  rw [hm] at h
  unfold roundMag
  refine le_trans (Nat.min_le_left _ _) ?_
  generalize hkk : (n / d).log2 - 23 = k at *
  have hunit : 0 < d * 2 ^ k := Nat.mul_pos hd (by positivity)
  have ht : n / d ≤ qj * 2 ^ kj := Nat.div_le_of_le_mul (by rw [mul_comm d]; exact h)
  rcases lt_trichotomy k kj with hlt | heq | hgt
  · have := hn (by omega)
    have hmul : (k + 1) * 2 ^ 23 ≤ kj * 2 ^ 23 := Nat.mul_le_mul_right _ hlt
    rw [hj]
    split <;> omega
  · subst heq
    have hle : n / (d * 2 ^ k) ≤ qj := Nat.div_le_of_le_mul (by
      calc n ≤ qj * 2 ^ k * d := h
        _ = d * 2 ^ k * qj := by ring)
    rcases Nat.lt_or_eq_of_le hle with hlt | heq
    · rw [hj]; split <;> omega
    · have hr : n % (d * 2 ^ k) = 0 := by
        have hdm := Nat.div_add_mod n (d * 2 ^ k)
        rw [heq] at hdm
        have : n ≤ d * 2 ^ k * qj := by
          calc n ≤ qj * 2 ^ k * d := h
            _ = d * 2 ^ k * qj := by ring
        omega
      rw [hr, if_neg (by omega), hj, heq]; omega
  · exfalso
    have h3 := hl2 (by omega)
    have h4 : qj * 2 ^ kj < 2 ^ (k + 23) := by
      calc qj * 2 ^ kj < 2 ^ 24 * 2 ^ kj := Nat.mul_lt_mul_of_pos_right hq (by positivity)
        _ = 2 ^ (24 + kj) := by rw [pow_add]
        _ ≤ 2 ^ (k + 23) := Nat.pow_le_pow_right (by decide) (by omega)
    omega

/-- Rounding does not go below a representable magnitude that is not above the exact value. -/
theorem le_roundMag {n d j : Nat} (hd : 0 < d) (hj' : j ≤ infMag) (h : magOf j * d ≤ n) : j ≤ roundMag n d := by
  obtain ⟨kj, qj, hm, hj, hq, hn⟩ := magOf_split j
  obtain ⟨hs1, hs2⟩ := significand_bounds n d
  obtain ⟨hl1, hl2⟩ := log_bounds (n / d)
  rw [hm] at h
  unfold roundMag
  refine le_min ?_ hj'
  generalize hkk : (n / d).log2 - 23 = k at *
  have ht : qj * 2 ^ kj ≤ n / d := (Nat.le_div_iff_mul_le hd).2 h
  have hunit : 0 < d * 2 ^ k := Nat.mul_pos hd (by positivity)
  rcases lt_trichotomy k kj with hlt | heq | hgt
  · exfalso
    have := hn (by omega)
    have h4 : 2 ^ (k + 24) ≤ qj * 2 ^ kj := by
      calc 2 ^ (k + 24) ≤ 2 ^ (23 + kj) := Nat.pow_le_pow_right (by decide) (by omega)
        _ = 2 ^ 23 * 2 ^ kj := by rw [pow_add]
        _ ≤ qj * 2 ^ kj := Nat.mul_le_mul_right _ this
    omega
  · subst heq
    have : qj ≤ n / (d * 2 ^ k) := (Nat.le_div_iff_mul_le hunit).2 (by
      calc qj * (d * 2 ^ k) = qj * 2 ^ k * d := by ring
        _ ≤ n := h)
    omega
  · have h3 := hs2 (by omega)
    have hmul : (kj + 1) * 2 ^ 23 ≤ k * 2 ^ 23 := Nat.mul_le_mul_right _ hgt
    omega

/-- Rounding is exact on a representable magnitude. -/
theorem roundMag_exact {d j : Nat} (hd : 0 < d) (hj : j ≤ infMag) : roundMag (magOf j * d) d = j :=
  le_antisymm (roundMag_le hd le_rfl) (le_roundMag hd hj le_rfl)

/-- Encoded magnitudes are ordered as their encodings. -/
theorem magOf_le_iff {i j : Nat} (hi : i ≤ infMag) (hj : j ≤ infMag) : magOf i ≤ magOf j ↔ i ≤ j := by
  constructor
  · intro h
    have := roundMag_le (n := magOf i * 1) (d := 1) (j := j) (by decide) (by omega)
    rwa [roundMag_exact (by decide) hi] at this
  · intro h
    by_contra hc
    have := roundMag_le (n := magOf j * 1) (d := 1) (j := i) (by decide) (by omega)
    rw [roundMag_exact (by decide) hj] at this
    have : i = j := le_antisymm h this
    subst this; omega

/-- The rounded magnitude is at most a representable one that is not below the exact value. -/
theorem magOf_roundMag_le {n d : Nat} {b : Num32} (hd : 0 < d) (hb : b.isNaN = false) (h : n ≤ b.mag * d) :
    magOf (roundMag n d) ≤ b.mag := by
  rw [mag_eq] at *
  exact (magOf_le_iff (roundMag_le_infMag _ _) (lowBits_le_infMag hb)).2 (roundMag_le hd h)

/-- The rounded magnitude is at least a representable one that is not above the exact value. -/
theorem le_magOf_roundMag {n d : Nat} {b : Num32} (hd : 0 < d) (hb : b.isNaN = false) (h : b.mag * d ≤ n) :
    b.mag ≤ magOf (roundMag n d) := by
  rw [mag_eq] at *
  exact (magOf_le_iff (lowBits_le_infMag hb) (roundMag_le_infMag _ _)).2 (le_roundMag hd (lowBits_le_infMag hb) h)

/-- The magnitude of an exponent and a significand; a significand of 2^24 is the next exponent's 2^23. -/
theorem magOf_mk {k q : Nat} (hq : q ≤ 2 ^ 24) (hk : 0 < k → 2 ^ 23 ≤ q) : magOf (k * 2 ^ 23 + q) = q * 2 ^ k := by
  unfold magOf
  rcases Nat.lt_or_ge q (2 ^ 23) with h | h
  · obtain rfl : k = 0 := by by_contra hc; have := hk (by omega); omega
    rw [if_pos (by omega)]; simp; omega
  · rcases Nat.lt_or_eq_of_le hq with h' | h'
    · rw [if_neg (by omega), show (k * 2 ^ 23 + q) / 2 ^ 23 - 1 = k by omega,
        show 2 ^ 23 + (k * 2 ^ 23 + q) % 2 ^ 23 = q by omega]
    · rw [if_neg (by omega), show (k * 2 ^ 23 + q) / 2 ^ 23 - 1 = k + 1 by omega,
        show 2 ^ 23 + (k * 2 ^ 23 + q) % 2 ^ 23 = 2 ^ 23 by omega, h', pow_succ]; ring

/-- A rounded magnitude that does not overflow is a nearest representable one, and of two nearest the even one. -/
theorem roundMag_nearest {n d j : Nat} (hd : 0 < d) (hj : j ≤ infMag) (hf : roundMag n d < infMag) :
    ((magOf (roundMag n d) * d : Nat) - (n : Int)).natAbs ≤ ((magOf j * d : Nat) - (n : Int)).natAbs ∧
    (((magOf (roundMag n d) * d : Nat) - (n : Int)).natAbs = ((magOf j * d : Nat) - (n : Int)).natAbs →
      magOf j ≠ magOf (roundMag n d) → roundMag n d % 2 = 0) := by
  obtain ⟨hs1, hs2⟩ := significand_bounds n d
  have hres : roundMag n d = ((n / d).log2 - 23) * 2 ^ 23 + (n / (d * 2 ^ ((n / d).log2 - 23)) +
      if d * 2 ^ ((n / d).log2 - 23) < 2 * (n % (d * 2 ^ ((n / d).log2 - 23))) ∨
        (2 * (n % (d * 2 ^ ((n / d).log2 - 23))) = d * 2 ^ ((n / d).log2 - 23) ∧
          n / (d * 2 ^ ((n / d).log2 - 23)) % 2 = 1) then 1 else 0) := by
    unfold roundMag at hf ⊢
    rcases Nat.le_total infMag (((n / d).log2 - 23) * 2 ^ 23 + (n / (d * 2 ^ ((n / d).log2 - 23)) +
      if d * 2 ^ ((n / d).log2 - 23) < 2 * (n % (d * 2 ^ ((n / d).log2 - 23))) ∨
        (2 * (n % (d * 2 ^ ((n / d).log2 - 23))) = d * 2 ^ ((n / d).log2 - 23) ∧
          n / (d * 2 ^ ((n / d).log2 - 23)) % 2 = 1) then 1 else 0)) with h | h
    · rw [Nat.min_eq_right h] at hf; omega
    · exact Nat.min_eq_left h
  generalize (n / d).log2 - 23 = k at *
  have hunit : 0 < d * 2 ^ k := Nat.mul_pos hd (by positivity)
  have hdm := Nat.div_add_mod n (d * 2 ^ k)
  have hr := Nat.mod_lt n hunit
  generalize n / (d * 2 ^ k) = q at *
  generalize n % (d * 2 ^ k) = r at *
  have hL : magOf (k * 2 ^ 23 + q) * d = d * 2 ^ k * q := by rw [magOf_mk (by omega) hs2]; ring
  have hU : magOf (k * 2 ^ 23 + (q + 1)) * d = d * 2 ^ k * q + d * 2 ^ k := by
    rw [magOf_mk (by omega) (fun h => by have := hs2 h; omega)]; ring
  have hcode : k * 2 ^ 23 + q < infMag := by rw [hres] at hf; omega
  have hside : magOf j * d ≤ magOf (k * 2 ^ 23 + q) * d ∨ magOf (k * 2 ^ 23 + (q + 1)) * d ≤ magOf j * d := by
    rcases Nat.lt_or_ge (k * 2 ^ 23 + q) j with h | h
    · exact .inr (Nat.mul_le_mul_right _ ((magOf_le_iff (by omega) hj).2 (by omega)))
    · exact .inl (Nat.mul_le_mul_right _ ((magOf_le_iff hj (by omega)).2 h))
  have hne : magOf j ≠ magOf (roundMag n d) → magOf j * d ≠ magOf (roundMag n d) * d := fun h h' =>
    h (Nat.eq_of_mul_eq_mul_right hd h')
  rw [hL, hU] at hside
  rw [hres] at hne ⊢
  generalize magOf j * d = a at *
  generalize d * 2 ^ k = unit at *
  generalize magOf j = mj at *
  split at hne <;> rename_i hup
  · rw [if_pos hup, hU] at *
    refine ⟨by omega, fun h h' => ?_⟩
    have := hne h'
    omega
  · rw [if_neg hup, Nat.add_zero, hL] at *
    refine ⟨by omega, fun h h' => ?_⟩
    have := hne h'
    omega

end Sys2Proof
end

