-- ==== Sys2Proof/Laws/Arith.lean ====
section
/-! SUPPORT. What each binary32 operation can give: no NaN for the operands the rules feed it, and a result that lies on the
same side of every representable value as the exact result. Ranges and monotonicity of every rule follow from these. -/

namespace Sys2Proof

set_option Elab.async false

theorem fle_iff {x y : Num32} : fle x y = true ↔ x.isNaN = false ∧ y.isNaN = false ∧ x.val ≤ y.val := by
  simp [fle, and_assoc]

theorem flt_iff {x y : Num32} : flt x y = true ↔ x.isNaN = false ∧ y.isNaN = false ∧ x.val < y.val := by
  simp [flt, and_assoc]

theorem feq_iff {x y : Num32} : feq x y = true ↔ x.isNaN = false ∧ y.isNaN = false ∧ x.val = y.val := by
  simp [feq, and_assoc]

theorem fle_refl {x : Num32} (h : x.isNaN = false) : fle x x = true := fle_iff.2 ⟨h, h, le_rfl⟩

/-- For operands that are no NaN, `not (x < y)` is `y <= x`. -/
theorem flt_eq_false {x y : Num32} (hx : x.isNaN = false) (hy : y.isNaN = false) :
    flt x y = false ↔ fle y x = true := by
  simp [flt, fle, hx, hy]

/-! ## Sign and value -/

theorem isNaN_of_isFinite {x : Num32} (h : x.isFinite = true) : x.isNaN = false := by
  unfold Num32.isFinite at h; unfold Num32.isNaN; simp_all

theorem isInf_of_isFinite {x : Num32} (h : x.isFinite = true) : x.isInf = false := by
  unfold Num32.isFinite at h; unfold Num32.isInf; simp_all

theorem val_eq_mag {x : Num32} (h : 0 ≤ x.val) : x.val = x.mag := by
  unfold Num32.val at *; split at h <;> simp_all

theorem val_eq_neg_mag {x : Num32} (h : x.val < 0) : x.val = -(x.mag : Int) := by
  unfold Num32.val at *; split at h <;> simp_all
  omega

theorem natAbs_val (x : Num32) : x.val.natAbs = x.mag := by
  unfold Num32.val; split <;> simp

theorem mag_eq_zero_iff {x : Num32} : x.mag = 0 ↔ x.val = 0 := by
  rw [← natAbs_val]; exact Int.natAbs_eq_zero

theorem magOf_infMag : magOf infMag = 2 ^ 277 := by decide +kernel

/-- A value that is no NaN is finite exactly when it is smaller than 2^277 units. -/
theorem isFinite_iff {x : Num32} (h : x.isNaN = false) : x.isFinite = true ↔ x.mag < 2 ^ 277 := by
  have hle := lowBits_le_infMag h
  rw [mag_eq, ← magOf_infMag, ← not_le, magOf_le_iff (le_refl _) hle]
  unfold Num32.isFinite infMag at *
  rw [expo_eq]
  have := lowBits_lt x
  simp only [bne_iff_ne, ne_eq, not_le]
  omega

theorem isFinite_of_le {x b : Num32} (hx : x.isNaN = false) (hb : b.isFinite = true) (h : x.mag ≤ b.mag) :
    x.isFinite = true :=
  (isFinite_iff hx).2 (lt_of_le_of_lt h ((isFinite_iff (isNaN_of_isFinite hb)).1 hb))

/-- A value between finite values is finite. -/
theorem isFinite_between {x lo hi : Num32} (h₁ : fle lo x = true) (h₂ : fle x hi = true)
    (hlo : lo.isFinite = true) (hhi : hi.isFinite = true) : x.isFinite = true := by
  have hl := (isFinite_iff (isNaN_of_isFinite hlo)).1 hlo
  have hh := (isFinite_iff (isNaN_of_isFinite hhi)).1 hhi
  rw [fle_iff] at h₁ h₂
  rw [isFinite_iff h₂.1]
  rw [← natAbs_val] at *
  omega

/-! ## Rounding with a sign -/

/-- The exact signed numerator. -/
def signed (neg : Bool) (n : Nat) : Int := if neg then -(n : Int) else (n : Int)

theorem signed_val (x : Num32) : signed x.sign x.mag = x.val := rfl

theorem packed_not_nan (neg : Bool) (n d : Nat) : (packNum neg (roundMag n d)).isNaN = false :=
  packNum_isNaN neg (roundMag_le_infMag n d)

/-- A rounded value does not go above a representable value that is not below the exact one. -/
theorem packed_le {neg : Bool} {n d : Nat} {b : Num32} (hd : 0 < d) (hb : b.isNaN = false)
    (h : signed neg n ≤ b.val * d) : (packNum neg (roundMag n d)).val ≤ b.val := by
  have hd' : (0 : Int) < d := by exact_mod_cast hd
  rw [packNum_val neg (roundMag_le_infMag n d)]
  cases neg
  · simp only [signed, Bool.false_eq_true, if_false] at h ⊢
    have hb0 : 0 ≤ b.val := by
      by_contra hc
      have : b.val * d < 0 := Int.mul_neg_of_neg_of_pos (by omega) hd'
      omega
    rw [val_eq_mag hb0] at h ⊢
    have h' : n ≤ b.mag * d := by exact_mod_cast h
    exact_mod_cast magOf_roundMag_le hd hb h'
  · simp only [signed, if_true] at h ⊢
    by_cases hb0 : 0 ≤ b.val
    · omega
    · rw [val_eq_neg_mag (by omega), neg_mul] at h
      have h' : (b.mag : Int) * d ≤ n := by omega
      have := le_magOf_roundMag (n := n) hd hb (by exact_mod_cast h')
      rw [val_eq_neg_mag (by omega)]; omega

/-- A rounded value does not go below a representable value that is not above the exact one. -/
theorem le_packed {neg : Bool} {n d : Nat} {b : Num32} (hd : 0 < d) (hb : b.isNaN = false)
    (h : b.val * d ≤ signed neg n) : b.val ≤ (packNum neg (roundMag n d)).val := by
  have hd' : (0 : Int) < d := by exact_mod_cast hd
  rw [packNum_val neg (roundMag_le_infMag n d)]
  cases neg
  · simp only [signed, Bool.false_eq_true, if_false] at h ⊢
    by_cases hb0 : 0 ≤ b.val
    · rw [val_eq_mag hb0] at h ⊢
      have h' : b.mag * d ≤ n := by exact_mod_cast h
      exact_mod_cast le_magOf_roundMag hd hb h'
    · omega
  · simp only [signed, if_true] at h ⊢
    have hb0 : b.val ≤ 0 := by
      by_contra hc
      have : 0 < b.val * d := Int.mul_pos (by omega) hd'
      omega
    have hbm : b.val = -(b.mag : Int) := by
      rcases lt_or_eq_of_le hb0 with h0 | h0
      · exact val_eq_neg_mag h0
      · have := mag_eq_zero_iff.2 h0; omega
    rw [hbm, neg_mul] at h
    have h' : (n : Int) ≤ (b.mag : Int) * d := by omega
    have := magOf_roundMag_le (n := n) hd hb (by exact_mod_cast h')
    omega

/-! ## Sum and difference -/

theorem magOf_zero : magOf 0 = 0 := by decide

/-- The value `addSigned` gives on finite operands: an exact zero, or the rounded exact sum. -/
theorem addSigned_finite {op : Config.FloatOp} {flip : Bool} {x y : Num32} (hx : x.isFinite = true)
    (hy : y.isFinite = true) :
    addSigned op flip x y =
      let v := x.val + (if flip then -y.val else y.val)
      if v = 0 then packNum (x.sign && (y.sign ^^ flip)) 0
      else packNum (decide (v < 0)) (roundMag v.natAbs 1) := by
  unfold addSigned
  simp [isNaN_of_isFinite hx, isNaN_of_isFinite hy, isInf_of_isFinite hx, isInf_of_isFinite hy]

theorem signed_natAbs (v : Int) : signed (decide (v < 0)) v.natAbs = v := by
  unfold signed
  by_cases h : v < 0
  · rw [decide_eq_true h, if_pos rfl]; omega
  · rw [decide_eq_false h, if_neg (by decide)]; omega

theorem addSigned_spec {op : Config.FloatOp} {flip : Bool} {x y : Num32} (hx : x.isFinite = true)
    (hy : y.isFinite = true) :
    (addSigned op flip x y).isNaN = false ∧
      ∀ b : Num32, b.isNaN = false →
        ((x.val + (if flip then -y.val else y.val) ≤ b.val → (addSigned op flip x y).val ≤ b.val) ∧
          (b.val ≤ x.val + (if flip then -y.val else y.val) → b.val ≤ (addSigned op flip x y).val)) := by
  rw [addSigned_finite hx hy]
  generalize x.val + (if flip then -y.val else y.val) = v
  simp only
  by_cases hv : v = 0
  · rw [if_pos hv]
    refine ⟨packNum_isNaN _ (by decide), fun b _ => ?_⟩
    rw [packNum_val _ (by decide : (0 : Nat) ≤ infMag), magOf_zero, hv]
    simp
  · rw [if_neg hv]
    refine ⟨packed_not_nan _ _ _, fun b hb => ⟨fun h => packed_le (by decide) hb ?_, fun h => le_packed (by decide) hb ?_⟩⟩
    · rw [signed_natAbs]; simpa using h
    · rw [signed_natAbs]; simpa using h

theorem fadd_not_nan {x y : Num32} (hx : x.isFinite = true) (hy : y.isFinite = true) : (fadd x y).isNaN = false :=
  (addSigned_spec hx hy).1

theorem fadd_le {x y b : Num32} (hx : x.isFinite = true) (hy : y.isFinite = true) (hb : b.isNaN = false)
    (h : x.val + y.val ≤ b.val) : (fadd x y).val ≤ b.val :=
  ((addSigned_spec hx hy).2 b hb).1 (by simpa using h)

theorem le_fadd {x y b : Num32} (hx : x.isFinite = true) (hy : y.isFinite = true) (hb : b.isNaN = false)
    (h : b.val ≤ x.val + y.val) : b.val ≤ (fadd x y).val :=
  ((addSigned_spec hx hy).2 b hb).2 (by simpa using h)

theorem fsub_not_nan {x y : Num32} (hx : x.isFinite = true) (hy : y.isFinite = true) : (fsub x y).isNaN = false :=
  (addSigned_spec hx hy).1

theorem fsub_le {x y b : Num32} (hx : x.isFinite = true) (hy : y.isFinite = true) (hb : b.isNaN = false)
    (h : x.val - y.val ≤ b.val) : (fsub x y).val ≤ b.val :=
  ((addSigned_spec hx hy).2 b hb).1 (by simpa [sub_eq_add_neg] using h)

theorem le_fsub {x y b : Num32} (hx : x.isFinite = true) (hy : y.isFinite = true) (hb : b.isNaN = false)
    (h : b.val ≤ x.val - y.val) : b.val ≤ (fsub x y).val :=
  ((addSigned_spec hx hy).2 b hb).2 (by simpa [sub_eq_add_neg] using h)

/-! ## Product -/

theorem fmul_finite {x y : Num32} (hx : x.isFinite = true) (hy : y.isFinite = true) :
    fmul x y = packNum (x.sign ^^ y.sign) (roundMag (x.mag * y.mag) (2 ^ 149)) := by
  unfold fmul
  simp [isNaN_of_isFinite hx, isNaN_of_isFinite hy, isInf_of_isFinite hx, isInf_of_isFinite hy]

theorem signed_mul (x y : Num32) : signed (x.sign ^^ y.sign) (x.mag * y.mag) = x.val * y.val := by
  unfold signed Num32.val
  cases x.sign <;> cases y.sign <;> simp

theorem fmul_not_nan {x y : Num32} (hx : x.isFinite = true) (hy : y.isFinite = true) : (fmul x y).isNaN = false := by
  rw [fmul_finite hx hy]; exact packed_not_nan _ _ _

theorem fmul_le {x y b : Num32} (hx : x.isFinite = true) (hy : y.isFinite = true) (hb : b.isNaN = false)
    (h : x.val * y.val ≤ b.val * 2 ^ 149) : (fmul x y).val ≤ b.val := by
  rw [fmul_finite hx hy]
  exact packed_le (by positivity) hb (by rw [signed_mul]; exact_mod_cast h)

theorem le_fmul {x y b : Num32} (hx : x.isFinite = true) (hy : y.isFinite = true) (hb : b.isNaN = false)
    (h : b.val * 2 ^ 149 ≤ x.val * y.val) : b.val ≤ (fmul x y).val := by
  rw [fmul_finite hx hy]
  exact le_packed (by positivity) hb (by rw [signed_mul]; exact_mod_cast h)

/-! ## Quotient by a positive value -/

theorem fdiv_finite {x y : Num32} (hx : x.isFinite = true) (hy : y.isFinite = true) (h0 : 0 < y.val) :
    fdiv x y = packNum (x.sign ^^ y.sign) (roundMag (x.mag * 2 ^ 149) y.mag) := by
  have hz : y.isZero = false := by
    unfold Num32.isZero
    have : y.mag ≠ 0 := fun h => by have := mag_eq_zero_iff.1 h; omega
    simpa using this
  unfold fdiv
  simp [isNaN_of_isFinite hx, isNaN_of_isFinite hy, isInf_of_isFinite hx, isInf_of_isFinite hy, hz]

theorem sign_of_pos {y : Num32} (h0 : 0 < y.val) : y.sign = false := by
  unfold Num32.val at h0
  cases h : y.sign
  · rfl
  · rw [h, if_pos rfl] at h0; omega

theorem fdiv_not_nan {x y : Num32} (hx : x.isFinite = true) (hy : y.isFinite = true) (h0 : 0 < y.val) :
    (fdiv x y).isNaN = false := by
  rw [fdiv_finite hx hy h0]; exact packed_not_nan _ _ _

theorem signed_div {x y : Num32} (h0 : 0 < y.val) :
    signed (x.sign ^^ y.sign) (x.mag * 2 ^ 149) = x.val * 2 ^ 149 := by
  rw [sign_of_pos h0]
  unfold signed Num32.val
  cases x.sign <;> simp

theorem fdiv_le {x y b : Num32} (hx : x.isFinite = true) (hy : y.isFinite = true) (h0 : 0 < y.val)
    (hb : b.isNaN = false) (h : x.val * 2 ^ 149 ≤ b.val * y.val) : (fdiv x y).val ≤ b.val := by
  rw [fdiv_finite hx hy h0]
  have hm := val_eq_mag (le_of_lt h0)
  exact packed_le (by omega) hb (by rw [signed_div h0, ← hm]; exact h)

theorem le_fdiv {x y b : Num32} (hx : x.isFinite = true) (hy : y.isFinite = true) (h0 : 0 < y.val)
    (hb : b.isNaN = false) (h : b.val * y.val ≤ x.val * 2 ^ 149) : b.val ≤ (fdiv x y).val := by
  rw [fdiv_finite hx hy h0]
  have hm := val_eq_mag (le_of_lt h0)
  exact le_packed (by omega) hb (by rw [signed_div h0, ← hm]; exact h)

/-! ## Exact cases -/

/-- Two values that are no NaN, with the same sign and the same magnitude, are the same value. -/
theorem eq_of_sign_mag {x y : Num32} (hx : x.isNaN = false) (hy : y.isNaN = false) (hs : x.sign = y.sign)
    (hm : x.mag = y.mag) : x = y := by
  rw [mag_eq, mag_eq] at hm
  have hxl := lowBits_le_infMag hx
  have hyl := lowBits_le_infMag hy
  have : lowBits x = lowBits y :=
    le_antisymm ((magOf_le_iff hxl hyl).1 hm.le) ((magOf_le_iff hyl hxl).1 hm.ge)
  rw [← packNum_lowBits x, ← packNum_lowBits y, hs, this]

theorem roundMag_mag {x : Num32} {d : Nat} (hd : 0 < d) (hx : x.isNaN = false) :
    roundMag (x.mag * d) d = lowBits x := by
  rw [mag_eq]; exact roundMag_exact hd (lowBits_le_infMag hx)

/-- `x * 1 = x`, bit for bit. -/
theorem fmul_one {x : Num32} (hx : x.isFinite = true) : fmul x one = x := by
  rw [fmul_finite hx (by decide +kernel), show one.mag = 2 ^ 149 by decide +kernel,
    show one.sign = false by decide +kernel, roundMag_mag (by positivity) (isNaN_of_isFinite hx), Bool.xor_false,
    packNum_lowBits]

/-- `1 * x = x`, bit for bit. -/
theorem one_fmul {x : Num32} (hx : x.isFinite = true) : fmul one x = x := by
  rw [fmul_finite (by decide +kernel) hx, show one.mag = 2 ^ 149 by decide +kernel,
    show one.sign = false by decide +kernel, mul_comm, roundMag_mag (by positivity) (isNaN_of_isFinite hx),
    Bool.false_xor, packNum_lowBits]

/-- `x / 1 = x`, bit for bit. -/
theorem fdiv_one {x : Num32} (hx : x.isFinite = true) : fdiv x one = x := by
  rw [fdiv_finite hx (by decide +kernel) (by decide +kernel), show one.mag = 2 ^ 149 by decide +kernel,
    show one.sign = false by decide +kernel, roundMag_mag (by positivity) (isNaN_of_isFinite hx), Bool.xor_false,
    packNum_lowBits]

/-- A sum with a zero has the value of the other operand. -/
theorem fadd_val_zero {x z : Num32} (hx : x.isFinite = true) (hz : z.isFinite = true) (h : z.val = 0) :
    (fadd x z).val = x.val :=
  le_antisymm (fadd_le hx hz (isNaN_of_isFinite hx) (by omega)) (le_fadd hx hz (isNaN_of_isFinite hx) (by omega))

/-- A value that is no zero is determined by its signed magnitude. -/
theorem eq_of_val {x y : Num32} (hx : x.isNaN = false) (hy : y.isNaN = false) (h : x.val = y.val) (h0 : x.val ≠ 0) :
    x = y := by
  have hm : x.mag = y.mag := by rw [← natAbs_val, ← natAbs_val, h]
  refine eq_of_sign_mag hx hy ?_ hm
  unfold Num32.val at *
  cases hxs : x.sign <;> cases hys : y.sign <;> simp_all

/-- A value that is no zero plus a zero is that value, bit for bit. -/
theorem fadd_zero_right {x z : Num32} (hx : x.isFinite = true) (hz : z.isFinite = true) (h : z.val = 0)
    (h0 : x.val ≠ 0) : fadd x z = x := by
  have := fadd_val_zero hx hz h
  exact eq_of_val (fadd_not_nan hx hz) (isNaN_of_isFinite hx) this (by omega)

/-! ## Configuration functions -/

/-- `sin2pi` is the configuration function: the written-out values are the required ones. -/
theorem sin2pi_eq (p : Num32) : sin2pi p = Config.functions.sin2pi p := by
  unfold sin2pi
  split
  · next h => rw [h, Config.functions.sin2pi_zero]
  · split
    · next h => rw [h, Config.functions.sin2pi_quarter]
    · split
      · next h => rw [h, Config.functions.sin2pi_half]
      · split
        · next h => rw [h, Config.functions.sin2pi_threeQuarters]
        · rfl

/-- `exp2` is the configuration function. -/
theorem exp2_eq (x : Num32) : exp2 x = Config.functions.exp2 x := by
  unfold exp2
  split
  · next h => rw [h, Config.functions.exp2_zero]
  · split
    · next h => rw [h, Config.functions.exp2_one]
    · split
      · next h => rw [h, Config.functions.exp2_minusOne]
      · rfl

/-- `tanpi` is the configuration function. -/
theorem tanpi_eq (w : Num32) : tanpi w = Config.functions.tanpi w := by
  unfold tanpi
  split
  · next h => rw [h, Config.functions.tanpi_quarter]
  · rfl

/-! ## NaN results -/

theorem expo_of_or (v : Word) : (v ||| 0x7F800000#32).toNat / 2 ^ 23 % 2 ^ 8 = 255 := by
  rw [← Nat.shiftRight_eq_div_pow, ← Nat.and_two_pow_sub_one_eq_mod]
  apply Nat.eq_of_testBit_eq
  intro i
  have h255 : ∀ j, Nat.testBit 255 j = decide (j < 8) := fun j => Nat.testBit_two_pow_sub_one 8 j
  have hm : ∀ j, Nat.testBit 0x7F800000 (23 + j) = decide (j < 8) := fun j => by
    rw [show (0x7F800000 : Nat) = 255 <<< 23 by decide, Nat.testBit_shiftLeft, h255]; simp
  rw [Nat.testBit_and, Nat.testBit_two_pow_sub_one, Nat.testBit_shiftRight, BitVec.toNat_or, Nat.testBit_or,
    show (0x7F800000#32).toNat = 0x7F800000 from rfl, hm]
  cases decide (i < 8) <;> simp

theorem frac_eq_zero_iff (v : Word) : v &&& 0x007FFFFF#32 = 0#32 ↔ v.toNat % 2 ^ 23 = 0 := by
  rw [← BitVec.toNat_inj, BitVec.toNat_and, ← Nat.and_two_pow_sub_one_eq_mod]; rfl

/-- An operation that makes a NaN makes one. -/
theorem nanResult_isNaN (op : Config.FloatOp) (x y : Num32) : (nanResult op x y).isNaN = true := by
  unfold nanResult Num32.isNaN Num32.expo Num32.frac
  generalize Config.freeNan op x y = v
  by_cases h : (v ||| 0x7F800000#32) &&& 0x007FFFFF#32 = 0#32
  · have hb : (v ||| 0x7F800000#32 ||| 0x00400000#32).toNat % 2 ^ 23 ≠ 0 := by
      intro hc
      have := congrArg (fun n => n.testBit 22) hc
      rw [Nat.testBit_mod_two_pow, BitVec.toNat_or, Nat.testBit_or, show Nat.testBit (0x00400000#32).toNat 22 = true by decide]
        at this
      simp at this
    have he : (v ||| 0x7F800000#32 ||| 0x00400000#32).toNat / 2 ^ 23 % 2 ^ 8 = 255 := by
      rw [show v ||| 0x7F800000#32 ||| 0x00400000#32 = (v ||| 0x00400000#32) ||| 0x7F800000#32 by
        rw [BitVec.or_assoc, BitVec.or_assoc, BitVec.or_comm (0x7F800000#32)]]
      exact expo_of_or _
    simp only [h, if_true, f32]
    rw [he]; simpa using hb
  · have hb := (frac_eq_zero_iff _).not.1 h
    simp only [h, if_false, f32]
    rw [expo_of_or]; simpa using hb

end Sys2Proof
end

