-- ==== Sys2Proof/Laws/Constants.lean ====
section
/-! SUPPORT. The bit patterns of Sys2Proof/Machine/Constants.lean against the decimal values of 00_scope.md R12 and of the
pseudocode: `val` counts units of 2^-149. -/

namespace Sys2Proof

/-- The integral constants. -/
theorem constants_integral :
    [zero, one, minusOne, two, minusTwo, five, minusFive, unisonCount, semitonesPerOctave, centsPerOctave, fsDefault, fsMin,
      fsMax, cutoffMin, cutoffMax, pitchRange, cutoffModRange, semiMin, semiMax, detuneMax, qMax, qDefault, envAmtMin, envAmtMax,
      lfoRateMax, tMax, basefMax, foldK].map Num32.val =
    ([0, 1, -1, 2, -2, 5, -5, 3, 12, 1200, 44100, 44100,
      768000, 20, 20000, 12, 2000, -48, 48, 100, 16, 1, -20000, 20000,
      20000, 60, 20000, 3] : List Int).map (· * 2 ^ 149) := by decide +kernel

/-- The constants below 1: 0.25, 0.5, 0.75 and `Q_MIN` = 0.5. -/
theorem constants_fractional :
    [quarter, half, threeQuarters, qMin].map (fun c => c.val * 4) = ([1, 2, 3, 2] : List Int).map (· * 2 ^ 149) := by
  decide +kernel

/-- The ends of the range of `tanpi` (00_scope.md R9) are the binary32 quotients of the constants. -/
theorem constants_tanpi : tanpiArgMin = fdiv cutoffMin fsMax ∧ tanpiArgMax = fdiv cutoffMax fsMin := by decide +kernel

end Sys2Proof
end

