-- ==== Sys2Proof/Laws/Encoding.lean ====
section
/-! SUPPORT. The fields of a command word laid out from its fields (30_encoding.md R110). -/

namespace Sys2Proof

@[simp] theorem opField_commandWord (op a : BitVec 8) (b : BitVec 16) (c : Word) :
    opField (commandWord op a b c) = op := by
  ext i hi
  simp only [opField, commandWord, BitVec.getElem_extractLsb', BitVec.getLsbD_append]
  rw [if_neg (by omega), if_neg (by omega), if_neg (by omega), ← BitVec.getLsbD_eq_getElem]
  congr 1; omega

@[simp] theorem aField_commandWord (op a : BitVec 8) (b : BitVec 16) (c : Word) :
    aField (commandWord op a b c) = a := by
  ext i hi
  simp only [aField, commandWord, BitVec.getElem_extractLsb', BitVec.getLsbD_append]
  rw [if_neg (by omega), if_neg (by omega), if_pos (by omega), ← BitVec.getLsbD_eq_getElem]
  congr 1; omega

@[simp] theorem bField_commandWord (op a : BitVec 8) (b : BitVec 16) (c : Word) :
    bField (commandWord op a b c) = b := by
  ext i hi
  simp only [bField, commandWord, BitVec.getElem_extractLsb', BitVec.getLsbD_append]
  rw [if_neg (by omega), if_pos (by omega), ← BitVec.getLsbD_eq_getElem]
  congr 1; omega

@[simp] theorem cField_commandWord (op a : BitVec 8) (b : BitVec 16) (c : Word) :
    cField (commandWord op a b c) = c := by
  ext i hi
  simp only [cField, commandWord, BitVec.getElem_extractLsb', BitVec.getLsbD_append]
  rw [if_pos (by omega), ← BitVec.getLsbD_eq_getElem]
  congr 1; omega

/-- The named rows of SET_PARAM and their indices (30_encoding.md R114). -/
@[simp] theorem paramOfIndex_indexOfParam (p : Param) : paramOfIndex (indexOfParam p) = some p := by
  cases p <;> rfl

/-- An index that names no register is 21 or above (30_encoding.md R117). -/
theorem paramOfIndex_eq_none {idx : BitVec 8} (h : 21 ≤ idx.toNat) : paramOfIndex idx = none := by
  have : idx.toNat < 256 := idx.isLt
  unfold paramOfIndex
  split <;> first | omega | rfl

end Sys2Proof
end

