-- ==== Sys2Proof/Laws/Ranges.lean ====
section
/-! SUPPORT. Ranges of the shared operations: the clamp, the phase advance, the stage length, the LFO sample. -/

namespace Sys2Proof.Machine

set_option Elab.async false

theorem inRange_iff {v lo hi : Num32} :
    inRange v lo hi = true ↔ fle lo v = true ∧ fle v hi = true := by
  simp [inRange]

theorem inRange_finite {v lo hi : Num32} (h : inRange v lo hi = true) (hlo : lo.isFinite = true)
    (hhi : hi.isFinite = true) : v.isFinite = true :=
  isFinite_between (inRange_iff.1 h).1 (inRange_iff.1 h).2 hlo hhi

/-- The bounds of a range, on values. -/
theorem inRange_val {v lo hi : Num32} (h : inRange v lo hi = true) : lo.val ≤ v.val ∧ v.val ≤ hi.val :=
  ⟨(fle_iff.1 (inRange_iff.1 h).1).2.2, (fle_iff.1 (inRange_iff.1 h).2).2.2⟩

theorem inRange_of_val {v lo hi : Num32} (hv : v.isNaN = false) (hlo : lo.isNaN = false) (hhi : hi.isNaN = false)
    (h₁ : lo.val ≤ v.val) (h₂ : v.val ≤ hi.val) : inRange v lo hi = true :=
  inRange_iff.2 ⟨fle_iff.2 ⟨hlo, hv, h₁⟩, fle_iff.2 ⟨hv, hhi, h₂⟩⟩

/-- `clampN` gives a value of its range, whatever the value clamped, a NaN included (00_scope.md R10). -/
theorem clampN_inRange (v : Num32) {lo hi : Num32} (h : fle lo hi = true) : inRange (clampN v lo hi) lo hi = true := by
  have hl := (fle_iff.1 h).1
  have hh := (fle_iff.1 h).2.1
  unfold clampN fge
  by_cases h₁ : fle lo v = true
  · rw [if_pos h₁]
    by_cases h₂ : fle v hi = true
    · rw [if_pos h₂]; exact inRange_iff.2 ⟨h₁, h₂⟩
    · rw [if_neg h₂]; exact inRange_iff.2 ⟨h, fle_refl hh⟩
  · rw [if_neg h₁]; exact inRange_iff.2 ⟨fle_refl hl, h⟩

/-- `clampN` is the identity on its range, bit for bit (00_scope.md R10). -/
theorem clampN_of_inRange {v lo hi : Num32} (h : inRange v lo hi = true) : clampN v lo hi = v := by
  rw [inRange_iff] at h
  simp [clampN, fge, h.1, h.2]

theorem finite_consts : zero.isFinite = true ∧ one.isFinite = true ∧ minusOne.isFinite = true ∧ half.isFinite = true ∧
    fsMin.isFinite = true ∧ fsMax.isFinite = true ∧ tMax.isFinite = true ∧ lfoRateMax.isFinite = true := by decide +kernel

/-! ## The sample rate and half of it -/

theorem fs_finite {fs : Num32} (h : inRange fs fsMin fsMax = true) : fs.isFinite = true :=
  inRange_finite h finite_consts.2.2.2.2.1 finite_consts.2.2.2.2.2.1

theorem fs_pos {fs : Num32} (h : inRange fs fsMin fsMax = true) : 0 < fs.val :=
  lt_of_lt_of_le (by decide +kernel : (0 : Int) < fsMin.val) (inRange_val h).1

/-- Halving is exact on a value that is not tiny. -/
theorem half_exact {x : Num32} (hx : x.isFinite = true) (hs : x.sign = false) (he : 2 ≤ x.expo) :
    (fmul x half).val * 2 = x.val := by
  have hnan := isNaN_of_isFinite hx
  have hle := lowBits_le_infMag hnan
  rw [expo_eq] at he
  have hb : lowBits x - 2 ^ 23 ≤ infMag := le_trans (Nat.sub_le _ _) hle
  set b := packNum false (lowBits x - 2 ^ 23) with hbdef
  have hbn : b.isNaN = false := packNum_isNaN _ hb
  have hbv : b.val * 2 = x.val := by
    have h1 : b.val = (magOf (lowBits x - 2 ^ 23) : Int) := by rw [hbdef, packNum_val _ hb]; rfl
    have h2 : x.val = (magOf (lowBits x) : Int) := by
      unfold Num32.val; rw [hs, mag_eq]; rfl
    rw [h1, h2]
    have hm : magOf (lowBits x - 2 ^ 23) * 2 = magOf (lowBits x) := by
      obtain ⟨e, he'⟩ : ∃ e, lowBits x / 2 ^ 23 = e + 2 := ⟨lowBits x / 2 ^ 23 - 2, by omega⟩
      have h3 : (lowBits x - 2 ^ 23) / 2 ^ 23 = e + 1 := by omega
      have h4 : (lowBits x - 2 ^ 23) % 2 ^ 23 = lowBits x % 2 ^ 23 := by omega
      unfold magOf
      rw [h3, h4, he', if_neg (by omega), if_neg (by omega)]
      simp only [Nat.add_sub_cancel]
      rw [show e + 2 - 1 = e + 1 by omega, pow_succ]; ring
    exact_mod_cast hm
  have hh : half.val = 2 ^ 148 := by decide +kernel
  have hf : half.isFinite = true := finite_consts.2.2.2.1
  have h1 := fmul_le hx hf hbn (by rw [hh]; omega)
  have h2 := le_fmul hx hf hbn (by rw [hh]; omega)
  omega

theorem expo_mono {x y : Num32} (hx : x.isNaN = false) (hy : y.isNaN = false) (h : x.mag ≤ y.mag) : x.expo ≤ y.expo := by
  rw [mag_eq, mag_eq, magOf_le_iff (lowBits_le_infMag hx) (lowBits_le_infMag hy)] at h
  rw [expo_eq, expo_eq]; exact Nat.div_le_div_right h

theorem fs_half {fs : Num32} (h : inRange fs fsMin fsMax = true) : (fmul fs half).val * 2 = fs.val := by
  have hp := fs_pos h
  refine half_exact (fs_finite h) (sign_of_pos hp) ?_
  have hm : fsMin.mag ≤ fs.mag := by
    have := (inRange_val h).1
    rw [val_eq_mag (le_of_lt hp), val_eq_mag (by decide +kernel : 0 ≤ fsMin.val)] at this
    exact_mod_cast this
  exact le_trans (by decide +kernel : 2 ≤ fsMin.expo)
    (expo_mono (by decide +kernel) (isNaN_of_isFinite (fs_finite h)) hm)

theorem half_fs_not_nan {fs : Num32} (h : inRange fs fsMin fsMax = true) : (fmul fs half).isNaN = false :=
  fmul_not_nan (fs_finite h) finite_consts.2.2.2.1

theorem zero_le_half_fs {fs : Num32} (h : inRange fs fsMin fsMax = true) : fle zero (fmul fs half) = true := by
  refine fle_iff.2 ⟨by decide +kernel, half_fs_not_nan h, ?_⟩
  have := fs_half h
  have := fs_pos h
  have hz : zero.val = 0 := by decide +kernel
  omega

theorem half_fs_finite {fs : Num32} (h : inRange fs fsMin fsMax = true) : (fmul fs half).isFinite = true := by
  refine isFinite_between (lo := zero) (hi := fs) (zero_le_half_fs h) ?_ finite_consts.1 (fs_finite h)
  refine fle_iff.2 ⟨half_fs_not_nan h, isNaN_of_isFinite (fs_finite h), ?_⟩
  have := fs_half h
  have := fs_pos h
  omega

/-! ## Phase accumulators -/

theorem phaseOk_iff {p : Num32} : phaseOk p = true ↔ fle zero p = true ∧ flt p one = true := by simp [phaseOk]

theorem zero_val : zero.val = 0 := by decide +kernel
theorem one_val : one.val = 2 ^ 149 := by decide +kernel
theorem half_val : half.val = 2 ^ 148 := by decide +kernel
theorem minusOne_val : minusOne.val = -2 ^ 149 := by decide +kernel

theorem phase_finite {p : Num32} (h : phaseOk p = true) : p.isFinite = true := by
  rw [phaseOk_iff, flt_iff] at h
  exact isFinite_between h.1 (fle_iff.2 ⟨h.2.1, h.2.2.1, le_of_lt h.2.2.2⟩) finite_consts.1 finite_consts.2.1

theorem zero_phaseOk : phaseOk zero = true := by decide +kernel

/-- 40_oscillator.md R149 for the helper: from `0 <= p < 1` and `0 <= inc <= 0.5` the advanced phase is in [0, 1), never NaN. -/
theorem phaseAdv_ok {p inc : Num32} (hp : phaseOk p = true) (hi : inRange inc zero half = true) :
    phaseOk (phaseAdv p inc) = true := by
  have hpf := phase_finite hp
  have hif := inRange_finite hi finite_consts.1 finite_consts.2.2.2.1
  rw [phaseOk_iff, fle_iff, flt_iff] at hp
  have hiv := inRange_val hi
  rw [zero_val, half_val] at hiv
  have hp1 := hp.1.2.2
  have hp2 := hp.2.2.2
  rw [zero_val] at hp1
  rw [one_val] at hp2
  have hqn := fadd_not_nan hpf hif
  have hq0 : 0 ≤ (fadd p inc).val := by
    have := le_fadd (b := zero) hpf hif (by decide +kernel) (by rw [zero_val]; omega)
    rwa [zero_val] at this
  have hone : one.isNaN = false := by decide +kernel
  unfold phaseAdv fge
  simp only
  by_cases h : fle one (fadd p inc) = true
  · rw [if_pos h]
    have h2 : (fadd p inc).val ≤ two.val :=
      fadd_le hpf hif (by decide +kernel) (by rw [show two.val = 2 ^ 150 by decide +kernel]; omega)
    have hthree : (fadd p inc).val ≤ (f32 0x3FC00000#32).val :=
      fadd_le hpf hif (by decide +kernel)
        (by rw [show (f32 0x3FC00000#32).val = 2 ^ 149 + 2 ^ 148 by decide +kernel]; omega)
    rw [show (f32 0x3FC00000#32).val = 2 ^ 149 + 2 ^ 148 by decide +kernel] at hthree
    have hqf : (fadd p inc).isFinite = true :=
      isFinite_between h (fle_iff.2 ⟨hqn, by decide +kernel, h2⟩) finite_consts.2.1 (by decide +kernel)
    have hq1 := (fle_iff.1 h).2.2
    rw [one_val] at hq1
    have hsn := fsub_not_nan hqf finite_consts.2.1
    refine phaseOk_iff.2 ⟨fle_iff.2 ⟨by decide +kernel, hsn, ?_⟩, flt_iff.2 ⟨hsn, hone, ?_⟩⟩
    · exact le_fsub hqf finite_consts.2.1 (by decide +kernel) (by rw [zero_val, one_val]; omega)
    · have := fsub_le (b := half) hqf finite_consts.2.1 (by decide +kernel) (by rw [half_val, one_val]; omega)
      rw [half_val] at this
      rw [one_val]; omega
  · rw [if_neg h]
    refine phaseOk_iff.2 ⟨fle_iff.2 ⟨by decide +kernel, hqn, by rw [zero_val]; exact hq0⟩, ?_⟩
    by_contra hc
    exact h ((flt_eq_false hqn hone).1 (by simpa using hc))

/-- The phase increment of an oscillator is in [0, 0.5] (47_voice_renderer.md R265). -/
theorem increment_ok {fs f : Num32} (h : inRange fs fsMin fsMax = true) (hf : inRange f zero (fmul fs half) = true) :
    inRange (fdiv f fs) zero half = true := by
  have hff := inRange_finite hf finite_consts.1 (half_fs_finite h)
  have hp := fs_pos h
  have hv := inRange_val hf
  rw [zero_val] at hv
  have hh := fs_half h
  refine inRange_of_val (fdiv_not_nan hff (fs_finite h) hp) (by decide +kernel) (by decide +kernel) ?_ ?_
  · refine le_fdiv hff (fs_finite h) hp (by decide +kernel) ?_
    rw [zero_val, zero_mul]; exact mul_nonneg hv.1 (by positivity)
  · refine fdiv_le hff (fs_finite h) hp (by decide +kernel) ?_
    rw [half_val]; omega

/-- The LFO increment is in [0, 0.5] (42_lfo.md R170). -/
theorem lfo_increment_ok {fs r : Num32} (h : inRange fs fsMin fsMax = true) (hr : inRange r zero lfoRateMax = true) :
    inRange (fdiv r fs) zero half = true := by
  refine increment_ok h (inRange_iff.2 ⟨(inRange_iff.1 hr).1, fle_iff.2
    ⟨isNaN_of_isFinite (inRange_finite hr finite_consts.1 finite_consts.2.2.2.2.2.2.2), half_fs_not_nan h, ?_⟩⟩)
  have h1 := (inRange_val hr).2
  have h2 := (inRange_val h).1
  have h3 := fs_half h
  have h4 : lfoRateMax.val * 2 ≤ fsMin.val := by decide +kernel
  omega

/-! ## Products of levels -/

/-- A product of a value in [-1, 1] and a value in [0, 1] is in [-1, 1]. -/
theorem fmul_unit {x d : Num32} (hx : inRange x minusOne one = true) (hd : inRange d zero one = true) :
    inRange (fmul x d) minusOne one = true := by
  have hxf := inRange_finite hx finite_consts.2.2.1 finite_consts.2.1
  have hdf := inRange_finite hd finite_consts.1 finite_consts.2.1
  have hxv := inRange_val hx
  have hdv := inRange_val hd
  rw [minusOne_val, one_val] at hxv
  rw [zero_val, one_val] at hdv
  refine inRange_of_val (fmul_not_nan hxf hdf) (by decide +kernel) (by decide +kernel) ?_ ?_
  · refine le_fmul hxf hdf (by decide +kernel) ?_
    rw [minusOne_val]
    calc (-2 ^ 149 * 2 ^ 149 : Int) ≤ -2 ^ 149 * d.val := by
            rw [neg_mul, neg_mul]; exact neg_le_neg (mul_le_mul_of_nonneg_left hdv.2 (by positivity))
      _ ≤ x.val * d.val := mul_le_mul_of_nonneg_right hxv.1 hdv.1
  · refine fmul_le hxf hdf (by decide +kernel) ?_
    rw [one_val]
    calc x.val * d.val ≤ 2 ^ 149 * d.val := mul_le_mul_of_nonneg_right hxv.2 hdv.1
      _ ≤ 2 ^ 149 * 2 ^ 149 := mul_le_mul_of_nonneg_left hdv.2 (by positivity)

/-- A product of values in [0, 1] is in [0, 1]. -/
theorem fmul_unit_pos {x d : Num32} (hx : inRange x zero one = true) (hd : inRange d zero one = true) :
    inRange (fmul x d) zero one = true := by
  have hxf := inRange_finite hx finite_consts.1 finite_consts.2.1
  have hdf := inRange_finite hd finite_consts.1 finite_consts.2.1
  have hxv := inRange_val hx
  have hdv := inRange_val hd
  rw [zero_val, one_val] at hxv hdv
  refine inRange_of_val (fmul_not_nan hxf hdf) (by decide +kernel) (by decide +kernel) ?_ ?_
  · refine le_fmul hxf hdf (by decide +kernel) ?_
    rw [zero_val, zero_mul]; exact mul_nonneg hxv.1 hdv.1
  · refine fmul_le hxf hdf (by decide +kernel) ?_
    rw [one_val]
    calc x.val * d.val ≤ 2 ^ 149 * d.val := mul_le_mul_of_nonneg_right hxv.2 hdv.1
      _ ≤ 2 ^ 149 * 2 ^ 149 := mul_le_mul_of_nonneg_left hdv.2 (by positivity)

/-- A multiplier is 0 or 1 (43_router.md R180). -/
theorem multiplier_unit (dest code : Word) : inRange (multiplier dest code) zero one = true := by
  unfold multiplier; split <;> decide +kernel

end Sys2Proof.Machine
end

