-- ==== Sys2Proof/Laws/StageLen.lean ====
section
/-! SUPPORT. Stage lengths and counters (44_envelope.md R196, R205; 00_scope.md R11): the length is an integral value in the stated
domain of `toU32`, so a ramp stage is entered with a counter of at least 1. -/

namespace Sys2Proof.Machine

set_option Elab.async false

/-- A significand below 2^24 times a power of two is an encoded magnitude. -/
theorem exists_magOf {a k : Nat} (ha : a < 2 ^ 24) (hk : 23 ≤ k) (hk' : k ≤ 230) :
    ∃ j, j ≤ infMag ∧ magOf j = a * 2 ^ k := by
  rcases Nat.eq_zero_or_pos a with h0 | h0
  · exact ⟨0, by decide, by subst h0; simp [magOf]⟩
  · have hl1 := Nat.log2_self_le (by omega : a ≠ 0)
    have hl2 : a < 2 ^ (a.log2 + 1) := Nat.lt_log2_self
    have hl3 : a.log2 < 24 := (Nat.log2_lt (by omega)).2 ha
    set q := a * 2 ^ (23 - a.log2) with hq
    have hq1 : 2 ^ 23 ≤ q := by
      calc 2 ^ 23 = 2 ^ a.log2 * 2 ^ (23 - a.log2) := by rw [← pow_add]; congr 1; omega
        _ ≤ q := Nat.mul_le_mul_right _ hl1
    have hq2 : q < 2 ^ 24 := by
      calc q < 2 ^ (a.log2 + 1) * 2 ^ (23 - a.log2) := Nat.mul_lt_mul_of_pos_right hl2 (by positivity)
        _ = 2 ^ 24 := by rw [← pow_add]; congr 1; omega
    refine ⟨(k - (23 - a.log2)) * 2 ^ 23 + q, ?_, ?_⟩
    · unfold infMag; omega
    · unfold magOf
      have h1 : ((k - (23 - a.log2)) * 2 ^ 23 + q) / 2 ^ 23 = k - (23 - a.log2) + 1 := by omega
      have h2 : ((k - (23 - a.log2)) * 2 ^ 23 + q) % 2 ^ 23 = q - 2 ^ 23 := by omega
      rw [h1, h2, if_neg (by omega), Nat.add_sub_cancel, show 2 ^ 23 + (q - 2 ^ 23) = q by omega, hq, mul_assoc,
        ← pow_add]
      congr 2; omega

/-- The floor of a magnitude, in whole units of 1, is an encoded magnitude. -/
theorem exists_floor (x : Num32) (hx : x.isFinite = true) :
    ∃ j, j ≤ infMag ∧ magOf j = x.mag / 2 ^ 149 * 2 ^ 149 := by
  have hle := lowBits_le_infMag (isNaN_of_isFinite hx)
  obtain ⟨k, q, hm, hj, hq, hn⟩ := magOf_split (lowBits x)
  rw [mag_eq, hm]
  by_cases hk : 149 ≤ k
  · refine ⟨lowBits x, hle, ?_⟩
    rw [hm, show q * 2 ^ k = q * 2 ^ (k - 149) * 2 ^ 149 by rw [mul_assoc, ← pow_add]; congr 2; omega,
      Nat.mul_div_cancel _ (by positivity)]
  · refine exists_magOf (Nat.lt_of_le_of_lt ?_ hq) (by decide) (by decide)
    calc q * 2 ^ k / 2 ^ 149 ≤ q * 2 ^ k / 2 ^ k := Nat.div_le_div_left (Nat.pow_le_pow_right (by decide) (by omega)) (by positivity)
      _ = q := Nat.mul_div_cancel _ (by positivity)

/-- `floor` of a finite value that is not negative: the whole part, exactly (00_scope.md R11). -/
theorem ffloor_val {x : Num32} (hx : x.isFinite = true) (h0 : 0 ≤ x.val) :
    (ffloor x).isNaN = false ∧ (ffloor x).val = x.val / 2 ^ 149 * 2 ^ 149 := by
  unfold ffloor
  rw [isNaN_of_isFinite hx, if_neg (by decide), isInf_of_isFinite hx]
  by_cases hz : x.isZero = true
  · rw [hz, Bool.or_true, if_pos rfl]
    have : x.val = 0 := mag_eq_zero_iff.1 (by simpa [Num32.isZero] using hz)
    rw [this]; exact ⟨isNaN_of_isFinite hx, by decide⟩
  · have hz' : x.isZero = false := by simpa using hz
    rw [hz', Bool.or_false, if_neg (by decide)]
    have hpos : 0 < x.val := by
      rcases lt_or_eq_of_le h0 with h | h
      · exact h
      · exact absurd (mag_eq_zero_iff.2 h.symm) (by simpa [Num32.isZero] using hz)
    obtain ⟨j, hj, hjm⟩ := exists_floor x hx
    have habs : (x.val / 2 ^ 149 * 2 ^ 149).natAbs = x.mag / 2 ^ 149 * 2 ^ 149 := by
      rw [val_eq_mag h0]; norm_cast
    rw [habs, ← hjm, sign_of_pos hpos]
    have hr := roundMag_exact (d := 1) (by decide) hj
    rw [mul_one] at hr
    rw [hr]
    refine ⟨packNum_isNaN _ hj, ?_⟩
    rw [packNum_val _ hj, hjm, val_eq_mag h0, if_neg (by decide)]
    norm_cast

/-- 46080000, the longest stage (44_envelope.md R196). -/
def maxStage : Num32 := f32 0x4C2FC800#32

/-- 44_envelope.md R196: the length of a stage is an integral value between 0 and 46080000, in units of 2^-149. -/
theorem stageLen_spec {fs t : Num32} (h : inRange fs fsMin fsMax = true) (ht : inRange t zero tMax = true) :
    (stageLen fs t).isNaN = false ∧ 0 ≤ (stageLen fs t).val ∧ (stageLen fs t).val ≤ 46080000 * 2 ^ 149 ∧
      (stageLen fs t).val % 2 ^ 149 = 0 := by
  have htf := inRange_finite ht finite_consts.1 finite_consts.2.2.2.2.2.2.1
  have hff := fs_finite h
  have htv := inRange_val ht
  have hfv := inRange_val h
  rw [zero_val] at htv
  have hm : maxStage.val = 46080000 * 2 ^ 149 := by decide +kernel
  have h60 : tMax.val = 60 * 2 ^ 149 := by decide +kernel
  have h768 : fsMax.val = 768000 * 2 ^ 149 := by decide +kernel
  have hp0 : 0 ≤ (fmul t fs).val := by
    have := le_fmul (b := zero) htf hff (by decide +kernel)
      (by rw [zero_val, zero_mul]; exact mul_nonneg htv.1 (le_of_lt (fs_pos h)))
    rwa [zero_val] at this
  have hp1 : (fmul t fs).val ≤ maxStage.val := by
    refine fmul_le htf hff (by decide +kernel) ?_
    calc t.val * fs.val ≤ tMax.val * fs.val := mul_le_mul_of_nonneg_right htv.2 (le_of_lt (fs_pos h))
      _ ≤ tMax.val * fsMax.val := mul_le_mul_of_nonneg_left hfv.2 (by rw [h60]; positivity)
      _ ≤ _ := by rw [hm, h60, h768]; norm_num
  have hpn := fmul_not_nan htf hff
  have hpf : (fmul t fs).isFinite = true :=
    isFinite_between (lo := zero) (hi := maxStage) (fle_iff.2 ⟨by decide +kernel, hpn, by rw [zero_val]; exact hp0⟩)
      (fle_iff.2 ⟨hpn, by decide +kernel, hp1⟩) finite_consts.1 (by decide +kernel)
  obtain ⟨hn, hv⟩ := ffloor_val hpf hp0
  unfold stageLen
  rw [hv]
  refine ⟨hn, by positivity, ?_, Int.mul_emod_left _ _⟩
  rw [hm] at hp1
  omega

/-- The counter a ramp stage is entered with is the length, at least 1 (44_envelope.md R196, R205). -/
theorem toU32_stageLen {fs t : Num32} (h : inRange fs fsMin fsMax = true) (ht : inRange t zero tMax = true)
    (h1 : fge (stageLen fs t) one = true) :
    ((toU32 (stageLen fs t)).toNat : Int) * 2 ^ 149 = (stageLen fs t).val ∧ toU32 (stageLen fs t) ≠ 0#32 := by
  obtain ⟨hn, h0, hle, hmod⟩ := stageLen_spec h ht
  have hone := (fle_iff.1 (show fle one (stageLen fs t) = true from h1)).2.2
  rw [one_val] at hone
  have hfin : (stageLen fs t).isFinite = true :=
    isFinite_between (lo := zero) (hi := maxStage) (fle_iff.2 ⟨by decide +kernel, hn, by rw [zero_val]; exact h0⟩)
      (fle_iff.2 ⟨hn, by decide +kernel, by rw [show maxStage.val = 46080000 * 2 ^ 149 by decide +kernel]; exact hle⟩)
      finite_consts.1 (by decide +kernel)
  have hdom : inU32Domain (stageLen fs t) = true := by
    unfold inU32Domain
    simp only [hfin, Bool.true_and, Bool.and_eq_true, decide_eq_true_eq]
    refine ⟨⟨h0, hmod⟩, ?_⟩
    omega
  have hmag : (stageLen fs t).val = ((stageLen fs t).mag : Int) := val_eq_mag h0
  unfold toU32
  rw [if_pos hdom]
  rw [hmag] at h0 hle hmod hone ⊢
  clear hmag hdom
  generalize (stageLen fs t).mag = m at *
  have hdiv : m / 2 ^ 149 < 2 ^ 32 := by omega
  have hnat : (BitVec.ofNat 32 (m / 2 ^ 149)).toNat = m / 2 ^ 149 := by
    rw [BitVec.toNat_ofNat]; exact Nat.mod_eq_of_lt hdiv
  refine ⟨by rw [hnat]; omega, fun hc => ?_⟩
  rw [hc] at hnat
  simp only [BitVec.toNat_ofNat, Nat.zero_mod] at hnat
  omega

/-- Decrement of a counter that is not zero (44_envelope.md R205). -/
theorem decCount_toNat {c : Word} (h : c ≠ 0#32) : (decCount c).toNat = c.toNat - 1 := by
  unfold decCount
  rw [if_neg h]
  have : c.toNat ≠ 0 := fun hc => h (BitVec.eq_of_toNat_eq (by simpa using hc))
  have := c.isLt
  rw [BitVec.toNat_sub]
  simp only [BitVec.toNat_ofNat]
  omega

end Sys2Proof.Machine
end

