-- ==== Sys2Proof/Laws/Envelope.lean ====
section
/-! SUPPORT. Envelope operations (44_envelope.md): each gives a legal envelope from a legal one (10_state.md R37, R41), and in
which stage it ends. -/

namespace Sys2Proof.Machine

set_option Elab.async false

theorem Envelope.legal_iff {e : Envelope} : e.legal = true ↔
    inRange e.level zero one = true ∧ inRange e.step zero one = true ∧ inRange e.target zero one = true ∧
      e.stageOk = true := by
  simp [Envelope.legal, and_assoc]

theorem EnvParams.legal_iff {q : EnvParams} : q.legal = true ↔
    inRange q.attack zero tMax = true ∧ inRange q.decay zero tMax = true ∧ inRange q.sustain zero one = true ∧
      inRange q.release zero tMax = true := by
  simp [EnvParams.legal, and_assoc]

theorem unit_finite {v : Num32} (h : inRange v zero one = true) : v.isFinite = true :=
  inRange_finite h finite_consts.1 finite_consts.2.1

theorem zero_unit : inRange zero zero one = true := by decide +kernel
theorem one_unit : inRange one zero one = true := by decide +kernel

/-- A difference of unit values that is not negative is a unit value. -/
theorem fsub_unit {x y : Num32} (hx : inRange x zero one = true) (hy : inRange y zero one = true)
    (h : fle y x = true) : inRange (fsub x y) zero one = true := by
  have hxf := unit_finite hx
  have hyf := unit_finite hy
  have hxv := inRange_val hx
  have hyv := inRange_val hy
  have hle := (fle_iff.1 h).2.2
  rw [zero_val, one_val] at hxv hyv
  refine inRange_of_val (fsub_not_nan hxf hyf) (by decide +kernel) (by decide +kernel) ?_ ?_
  · exact le_fsub hxf hyf (by decide +kernel) (by rw [zero_val]; omega)
  · exact fsub_le hxf hyf (by decide +kernel) (by rw [one_val]; omega)

/-- A unit value divided by a stage length of at least 1 is a unit value. -/
theorem fdiv_unit {x n : Num32} (hx : inRange x zero one = true) (hn : n.isFinite = true) (h : fle one n = true) :
    inRange (fdiv x n) zero one = true := by
  have hxf := unit_finite hx
  have hxv := inRange_val hx
  have hnv := (fle_iff.1 h).2.2
  rw [zero_val, one_val] at hxv
  rw [one_val] at hnv
  have hpos : 0 < n.val := by omega
  refine inRange_of_val (fdiv_not_nan hxf hn hpos) (by decide +kernel) (by decide +kernel) ?_ ?_
  · refine le_fdiv hxf hn hpos (by decide +kernel) ?_
    rw [zero_val, zero_mul]; exact mul_nonneg hxv.1 (by positivity)
  · refine fdiv_le hxf hn hpos (by decide +kernel) ?_
    rw [one_val]; omega

theorem stageLen_finite {fs t : Num32} (h : inRange fs fsMin fsMax = true) (ht : inRange t zero tMax = true) :
    (stageLen fs t).isFinite = true := by
  obtain ⟨hn, h0, hle, _⟩ := stageLen_spec h ht
  exact isFinite_between (lo := zero) (hi := maxStage) (fle_iff.2 ⟨by decide +kernel, hn, by rw [zero_val]; exact h0⟩)
    (fle_iff.2 ⟨hn, by decide +kernel, by rw [show maxStage.val = 46080000 * 2 ^ 149 by decide +kernel]; exact hle⟩)
    finite_consts.1 (by decide +kernel)

theorem Envelope.toReset_legal (e : Envelope) : e.toReset.legal = true := by
  unfold Envelope.toReset; decide +kernel

theorem Envelope.enterDecay_legal {fs : Num32} {q : EnvParams} {e : Envelope} (h : inRange fs fsMin fsMax = true)
    (hq : q.legal = true) (hl : e.level = one) : (Envelope.enterDecay fs q e).legal = true := by
  obtain ⟨_, hd, hs, _⟩ := EnvParams.legal_iff.1 hq
  unfold Envelope.enterDecay
  simp only
  split
  · next hnf =>
    have hle : fle q.sustain e.level = true := by rw [hl]; exact (inRange_iff.1 hs).2
    refine Envelope.legal_iff.2 ⟨by rw [hl]; exact one_unit,
      fdiv_unit (fsub_unit (by rw [hl]; exact one_unit) hs hle) (stageLen_finite h hd) hnf, hs, ?_⟩
    simp only [Envelope.stageOk, hle, Bool.true_and, decide_eq_true_eq]
    exact (toU32_stageLen h hd hnf).2
  · exact Envelope.legal_iff.2 ⟨hs, zero_unit, hs, by simp [Envelope.stageOk]⟩

theorem Envelope.noteOn_legal {fs : Num32} {q : EnvParams} {e : Envelope} (h : inRange fs fsMin fsMax = true)
    (hq : q.legal = true) (he : e.legal = true) : (Envelope.noteOn fs q e).legal = true := by
  obtain ⟨ha, _, _, _⟩ := EnvParams.legal_iff.1 hq
  obtain ⟨hl, _, _, _⟩ := Envelope.legal_iff.1 he
  unfold Envelope.noteOn
  simp only
  split
  · next hnf =>
    refine Envelope.legal_iff.2 ⟨hl, fdiv_unit (fsub_unit one_unit hl (inRange_iff.1 hl).2) (stageLen_finite h ha) hnf,
      one_unit, ?_⟩
    simp only [Envelope.stageOk, decide_true, Bool.true_and, decide_eq_true_eq]
    exact (toU32_stageLen h ha hnf).2
  · exact Envelope.enterDecay_legal h hq rfl

theorem Envelope.noteOff_legal {fs : Num32} {q : EnvParams} {e : Envelope} (h : inRange fs fsMin fsMax = true)
    (hq : q.legal = true) (he : e.legal = true) : (Envelope.noteOff fs q e).legal = true := by
  obtain ⟨_, _, _, hr⟩ := EnvParams.legal_iff.1 hq
  obtain ⟨hl, _, _, _⟩ := Envelope.legal_iff.1 he
  unfold Envelope.noteOff
  simp only
  split
  · exact he
  · split
    · next hnf =>
      refine Envelope.legal_iff.2 ⟨hl, fdiv_unit hl (stageLen_finite h hr) hnf, zero_unit, ?_⟩
      simp only [Envelope.stageOk, decide_true, Bool.true_and, decide_eq_true_eq]
      exact (toU32_stageLen h hr hnf).2
    · exact e.toReset_legal

/-! ## The level of a ramp -/

/-- An attack step stays in [level, 1] (44_envelope.md R200). -/
theorem attack_level {l st : Num32} (hl : inRange l zero one = true) (hs : inRange st zero one = true) :
    inRange (fmin (fadd l st) one) zero one = true ∧ fle l (fmin (fadd l st) one) = true := by
  have hlf := unit_finite hl
  have hsf := unit_finite hs
  have hsv := inRange_val hs
  rw [zero_val] at hsv
  have hn := fadd_not_nan hlf hsf
  have hge : l.val ≤ (fadd l st).val := le_fadd hlf hsf (isNaN_of_isFinite hlf) (by omega)
  have hl0 := inRange_val hl
  unfold fmin
  split
  · next h =>
    exact ⟨inRange_iff.2 ⟨fle_iff.2 ⟨by decide +kernel, hn, by omega⟩, h⟩, fle_iff.2 ⟨isNaN_of_isFinite hlf, hn, hge⟩⟩
  · exact ⟨one_unit, (inRange_iff.1 hl).2⟩

/-- A decay or release step stays in [floor, level] (44_envelope.md R201, R203). -/
theorem fall_level {l st b : Num32} (hl : inRange l zero one = true) (hs : inRange st zero one = true)
    (hb : inRange b zero one = true) (hbl : fle b l = true) :
    inRange (fmax (fsub l st) b) zero one = true ∧ fle (fmax (fsub l st) b) l = true ∧
      fle b (fmax (fsub l st) b) = true := by
  have hlf := unit_finite hl
  have hsf := unit_finite hs
  have hsv := inRange_val hs
  rw [zero_val] at hsv
  have hn := fsub_not_nan hlf hsf
  have hle : (fsub l st).val ≤ l.val := fsub_le hlf hsf (isNaN_of_isFinite hlf) (by omega)
  have hlv := inRange_val hl
  have hbv := inRange_val hb
  unfold fmax fge
  split
  · next h =>
    have hb' := (fle_iff.1 h).2.2
    exact ⟨inRange_of_val hn (by decide +kernel) (by decide +kernel) (by omega) (by omega),
      fle_iff.2 ⟨hn, isNaN_of_isFinite hlf, hle⟩, h⟩
  · exact ⟨hb, hbl, fle_refl (isNaN_of_isFinite (unit_finite hb))⟩

theorem Envelope.next_legal {fs : Num32} {q : EnvParams} {e : Envelope} (h : inRange fs fsMin fsMax = true)
    (hq : q.legal = true) (he : e.legal = true) : (Envelope.next fs q e).legal = true := by
  obtain ⟨hl, hst, ht, hok⟩ := Envelope.legal_iff.1 he
  unfold Envelope.next
  split
  · next hs =>
    simp only [Envelope.stageOk, hs, Bool.and_eq_true, decide_eq_true_eq] at hok
    unfold Envelope.nextAttack
    simp only
    split
    · exact Envelope.enterDecay_legal h hq rfl
    · next hc =>
      refine Envelope.legal_iff.2 ⟨(attack_level hl hst).1, hst, ht, ?_⟩
      simp only [Envelope.stageOk, hs, hok.1, decide_true, Bool.true_and, decide_eq_true_eq]
      exact hc
  · next hs =>
    simp only [Envelope.stageOk, hs, Bool.and_eq_true, decide_eq_true_eq] at hok
    unfold Envelope.nextDecay
    simp only
    split
    · exact Envelope.legal_iff.2 ⟨ht, zero_unit, ht, by simp_all [Envelope.stageOk]⟩
    · next hc =>
      obtain ⟨h1, _, h3⟩ := fall_level hl hst ht hok.1
      refine Envelope.legal_iff.2 ⟨h1, hst, ht, ?_⟩
      simp only [Envelope.stageOk, hs, h3, Bool.true_and, decide_eq_true_eq]
      exact hc
  · exact he
  · next hs =>
    simp only [Envelope.stageOk, hs, Bool.and_eq_true, decide_eq_true_eq] at hok
    unfold Envelope.nextRelease
    simp only
    split
    · exact Envelope.toReset_legal _
    · next hc =>
      obtain ⟨h1, _, _⟩ := fall_level hl hst zero_unit (inRange_iff.1 hl).1
      refine Envelope.legal_iff.2 ⟨h1, hst, ht, ?_⟩
      simp only [Envelope.stageOk, hs, hok.1, decide_true, Bool.true_and, decide_eq_true_eq]
      exact hc
  · exact he

/-! ## Stages -/

theorem Envelope.enterDecay_stage (fs : Num32) (q : EnvParams) (e : Envelope) :
    (Envelope.enterDecay fs q e).stage = .decay ∨ (Envelope.enterDecay fs q e).stage = .sustain := by
  unfold Envelope.enterDecay; simp only; split
  · exact Or.inl rfl
  · exact Or.inr rfl

/-- ENV_NOTE_ON never ends in IDLE (44_envelope.md R207). -/
theorem Envelope.noteOn_not_idle (fs : Num32) (q : EnvParams) (e : Envelope) :
    (Envelope.noteOn fs q e).stage ≠ .idle := by
  unfold Envelope.noteOn; simp only; split
  · exact Stage.noConfusion
  · rcases Envelope.enterDecay_stage fs q { e with level := one } with h | h <;> rw [h] <;> decide

/-- An idle envelope stays as it is (44_envelope.md R204). -/
theorem Envelope.next_of_idle {fs : Num32} {q : EnvParams} {e : Envelope} (h : e.stage = .idle) :
    Envelope.next fs q e = e := by
  unfold Envelope.next; rw [h]

end Sys2Proof.Machine
end

