-- ==== Sys2Proof/Laws/Memory.lean ====
section
/-! SUPPORT. The output memory: every write keeps the canonical form, a read after a write to the same key gives the word
written, a write leaves every other key alone (20_memory.md R83). -/

namespace Sys2Proof.Machine

theorem outSortedFrom_cons {lo a : Nat} {w : Word} {rest : List OutCell} : outSortedFrom lo ((a, w) :: rest) = true ↔
    lo ≤ a ∧ a < outSize ∧ w ≠ outUnlisted ∧ outSortedFrom (a + 1) rest = true := by
  simp [outSortedFrom, and_assoc]

theorem outSortedFrom_mono {lo lo' : Nat} (h : lo ≤ lo') : ∀ {m : List OutCell},
    outSortedFrom lo' m = true → outSortedFrom lo m = true
  | [], _ => rfl
  | (_, _) :: _, hm => by
    rw [outSortedFrom_cons] at *
    exact ⟨by omega, hm.2⟩

theorem outErase_sorted {lo : Nat} (a : Nat) : ∀ {m : List OutCell},
    outSortedFrom lo m = true → outSortedFrom lo (outErase m a) = true
  | [], _ => rfl
  | (b, w) :: rest, hm => by
    rw [outSortedFrom_cons] at hm
    unfold outErase
    split
    · exact outSortedFrom_mono (by omega) (outErase_sorted a hm.2.2.2)
    · exact outSortedFrom_cons.2 ⟨hm.1, hm.2.1, hm.2.2.1, outErase_sorted a hm.2.2.2⟩

theorem outInsert_sorted {lo a : Nat} {v : Word} (ha : lo ≤ a) (ha' : a < outSize) (hv : v ≠ outUnlisted) :
    ∀ {m : List OutCell}, (∀ c ∈ m, c.1 ≠ a) → outSortedFrom lo m = true → outSortedFrom lo (outInsert m a v) = true
  | [], _, _ => outSortedFrom_cons.2 ⟨ha, ha', hv, rfl⟩
  | (b, w) :: rest, hm, hs => by
    have hb : b ≠ a := hm (b, w) (by simp)
    rw [outSortedFrom_cons] at hs
    unfold outInsert
    split
    · next h => exact outSortedFrom_cons.2 ⟨ha, ha', hv, outSortedFrom_cons.2 ⟨by omega, hs.2⟩⟩
    · next h =>
      exact outSortedFrom_cons.2 ⟨hs.1, hs.2.1, hs.2.2.1,
        outInsert_sorted (by omega) ha' hv (fun c hc => hm c (by simp [hc])) hs.2.2.2⟩

theorem outErase_not_mem (a : Nat) : ∀ {m : List OutCell}, ∀ c ∈ outErase m a, c.1 ≠ a
  | [], _, h => by simp [outErase] at h
  | (b, w) :: rest, c, h => by
    unfold outErase at h
    split at h
    · exact outErase_not_mem a c h
    · next hb =>
      rcases List.mem_cons.1 h with rfl | h
      · exact fun e => hb e.symm
      · exact outErase_not_mem a c h

/-- Every write inside `OUT` keeps the canonical form. -/
theorem outWrite_wf {m : List OutCell} {a : Nat} (v : Word) (ha : a < outSize) (h : Memory.wf m = true) :
    Memory.wf (outWrite m a v) = true := by
  unfold outWrite
  split
  · exact outErase_sorted a h
  · next hv => exact outInsert_sorted (Nat.zero_le _) ha hv (outErase_not_mem a) (outErase_sorted a h)

/-- A key that the list has no entry for reads as an unlisted one. -/
theorem outRead_not_mem {a : Nat} : ∀ {m : List OutCell}, (∀ c ∈ m, c.1 ≠ a) → outRead m a = outUnlisted
  | [], _ => rfl
  | (b, w) :: rest, h => by
    unfold outRead
    rw [if_neg (fun e => h (b, w) (by simp) e.symm)]
    exact outRead_not_mem (fun c hc => h c (by simp [hc]))

theorem outRead_outErase_other {a b : Nat} (h : b ≠ a) : ∀ m : List OutCell, outRead (outErase m a) b = outRead m b
  | [] => rfl
  | (c, w) :: rest => by
    unfold outErase
    split
    · next hc => subst hc; simp [outRead, h, outRead_outErase_other h rest]
    · simp only [outRead, outRead_outErase_other h rest]

theorem outRead_outInsert {a : Nat} (v : Word) (b : Nat) : ∀ {m : List OutCell}, (∀ c ∈ m, c.1 ≠ a) →
    outRead (outInsert m a v) b = if b = a then v else outRead m b
  | [], _ => rfl
  | (c, w) :: rest, hm => by
    have hc : c ≠ a := hm (c, w) (by simp)
    unfold outInsert
    split
    · rfl
    · have ih := outRead_outInsert v b (m := rest) (fun x hx => hm x (by simp [hx]))
      simp only [outRead, ih]
      by_cases hb : b = c
      · rw [if_pos hb, if_neg (fun e => hc (hb.symm.trans e))]
        simp [hb]
      · simp [hb]

/-- A read after a write, at every key of every list: the word written at its key, what was there elsewhere. -/
theorem outRead_outWrite (m : List OutCell) (a b : Nat) (v : Word) :
    outRead (outWrite m a v) b = if b = a then v else outRead m b := by
  unfold outWrite
  split
  · next hv =>
    by_cases h : b = a
    · rw [if_pos h, h, hv, outRead_not_mem (outErase_not_mem a)]
    · rw [if_neg h, outRead_outErase_other h]
  · rw [outRead_outInsert v b (outErase_not_mem a)]
    by_cases h : b = a
    · rw [if_pos h, if_pos h]
    · rw [if_neg h, if_neg h, outRead_outErase_other h]

theorem outAddr_lt {ch : Nat} {i : Word} (h : ch < 255) : outAddr ch i < outSize := by
  unfold outAddr outSize; have := i.isLt; omega

/-- The numbering of the pairs (channel, index) is injective. -/
theorem outAddr_inj {ch ch' : Nat} {i i' : Word} (h : outAddr ch i = outAddr ch' i') : ch = ch' ∧ i = i' := by
  unfold outAddr at h
  have := i.isLt
  have := i'.isLt
  exact ⟨by omega, BitVec.eq_of_toNat_eq (by omega)⟩

/-- The channel loop keeps the canonical form (47_voice_renderer.md R259). -/
theorem writeChannels_wf (i : Word) (v : Num32) {m : List OutCell} (hm : Memory.wf m = true) :
    ∀ {k : Nat}, k ≤ 255 → Memory.wf (writeChannels m i v k) = true
  | 0, _ => hm
  | _ + 1, h => outWrite_wf _ (outAddr_lt (by omega)) (writeChannels_wf i v hm (by omega))

/-- What the channel loop leaves in `OUT`: the sample in the channels written, every other word as before. -/
theorem outRead_writeChannels (m : List OutCell) (i : Word) (v : Num32) (k ch : Nat) (j : Word) :
    outRead (writeChannels m i v k) (outAddr ch j) =
      if j = i ∧ ch < k then bits32 v else outRead m (outAddr ch j) := by
  induction k with
  | zero => simp [writeChannels]
  | succ k ih =>
    unfold writeChannels memWrite
    rw [outRead_outWrite, ih]
    by_cases h : ch = k ∧ j = i
    · rw [h.1, h.2, if_pos rfl, if_pos ⟨rfl, by omega⟩]
    · rw [if_neg (fun hc => h (outAddr_inj hc))]
      by_cases hj : j = i
      · have hne : ch ≠ k := fun hc => h ⟨hc, hj⟩
        by_cases hlt : ch < k
        · rw [if_pos ⟨hj, hlt⟩, if_pos ⟨hj, by omega⟩]
        · rw [if_neg (fun hc => hlt hc.2), if_neg (fun hc => by omega)]
      · rw [if_neg (fun hc => hj hc.1), if_neg (fun hc => hj hc.1)]

end Sys2Proof.Machine
end

