-- ==== Sys2Proof/Laws/PerInstr.lean ====
section
/-! SUPPORT. Statements made per constructor of `Instr`: the encoder puts a command's opcode (30_encoding.md R113) into
the field `op`. -/

namespace Sys2Proof.Laws.OpcodeField

/-- The field `op` of a command's word is the command's opcode. -/
def Statement (i : Instr) : Prop := opField (encode i) = opcodeOf i

theorem nop : Statement (.nop) := opField_commandWord _ _ _ _

theorem prepare (rate : Word) : Statement (.prepare rate) := opField_commandWord _ _ _ _

theorem setParam (idx : BitVec 8) (value : Word) : Statement (.setParam idx value) := opField_commandWord _ _ _ _

theorem startNote (freq : Word) : Statement (.startNote freq) := opField_commandWord _ _ _ _

theorem stopNote (allowTailOff : Bool) : Statement (.stopNote allowTailOff) := opField_commandWord _ _ _ _

theorem renderBlock (nch : BitVec 8) (num : BitVec 16) (start : Word) : Statement (.renderBlock nch num start) := opField_commandWord _ _ _ _

theorem setParamOscAShape (value : Word) : Statement (.setParamOscAShape value) := opField_commandWord _ _ _ _

theorem setParamOscBShape (value : Word) : Statement (.setParamOscBShape value) := opField_commandWord _ _ _ _

theorem setParamOscASemi (value : Word) : Statement (.setParamOscASemi value) := opField_commandWord _ _ _ _

theorem setParamOscBSemi (value : Word) : Statement (.setParamOscBSemi value) := opField_commandWord _ _ _ _

theorem setParamUnisonMode (value : Word) : Statement (.setParamUnisonMode value) := opField_commandWord _ _ _ _

theorem setParamDetuneCents (value : Word) : Statement (.setParamDetuneCents value) := opField_commandWord _ _ _ _

theorem setParamFoldDrive (value : Word) : Statement (.setParamFoldDrive value) := opField_commandWord _ _ _ _

theorem setParamFiltCutoff (value : Word) : Statement (.setParamFiltCutoff value) := opField_commandWord _ _ _ _

theorem setParamFiltRes (value : Word) : Statement (.setParamFiltRes value) := opField_commandWord _ _ _ _

theorem setParamFiltEnvAmt (value : Word) : Statement (.setParamFiltEnvAmt value) := opField_commandWord _ _ _ _

theorem setParamLfoRate (value : Word) : Statement (.setParamLfoRate value) := opField_commandWord _ _ _ _

theorem setParamLfoDepth (value : Word) : Statement (.setParamLfoDepth value) := opField_commandWord _ _ _ _

theorem setParamLfoDest (value : Word) : Statement (.setParamLfoDest value) := opField_commandWord _ _ _ _

theorem setParamAenvAttack (value : Word) : Statement (.setParamAenvAttack value) := opField_commandWord _ _ _ _

theorem setParamAenvDecay (value : Word) : Statement (.setParamAenvDecay value) := opField_commandWord _ _ _ _

theorem setParamAenvSustain (value : Word) : Statement (.setParamAenvSustain value) := opField_commandWord _ _ _ _

theorem setParamAenvRelease (value : Word) : Statement (.setParamAenvRelease value) := opField_commandWord _ _ _ _

theorem setParamFenvAttack (value : Word) : Statement (.setParamFenvAttack value) := opField_commandWord _ _ _ _

theorem setParamFenvDecay (value : Word) : Statement (.setParamFenvDecay value) := opField_commandWord _ _ _ _

theorem setParamFenvSustain (value : Word) : Statement (.setParamFenvSustain value) := opField_commandWord _ _ _ _

theorem setParamFenvRelease (value : Word) : Statement (.setParamFenvRelease value) := opField_commandWord _ _ _ _

theorem reserved (op : BitVec 8) : Statement (.reserved op) := opField_commandWord _ _ _ _

end Sys2Proof.Laws.OpcodeField
end

