-- ==== Sys2Proof/Laws/Slots.lean ====
section
/-! SUPPORT. Slots, LFO, filter and snapshot: each operation of a tick gives legal registers from legal ones (10_state.md R33 to R36,
R42, R43, R46). -/

namespace Sys2Proof.Machine

set_option Elab.async false

theorem Slot.legal_iff {fs : Num32} {k : Slot} : k.legal fs = true ↔
    phaseOk k.prim.phase = true ∧ inRange k.prim.freq zero (fmul fs half) = true ∧
      inRange k.prim.shape zero one = true ∧
      (phaseOk k.up.phase = true ∧ inRange k.up.freq zero (fmul fs half) = true) ∧
      (phaseOk k.down.phase = true ∧ inRange k.down.freq zero (fmul fs half) = true) := by
  simp [Slot.legal, UnisonCopy.legal, and_assoc]

theorem zero_freq {fs : Num32} (h : inRange fs fsMin fsMax = true) : inRange zero zero (fmul fs half) = true :=
  inRange_iff.2 ⟨by decide +kernel, zero_le_half_fs h⟩

/-- A slot with every register zero is legal (PREPARE, reset). -/
theorem Slot.zero_legal {fs : Num32} (h : inRange fs fsMin fsMax = true) : Slot.reset.legal fs = true :=
  Slot.legal_iff.2 ⟨zero_phaseOk, zero_freq h, zero_unit, ⟨zero_phaseOk, zero_freq h⟩, ⟨zero_phaseOk, zero_freq h⟩⟩

theorem Slot.resetPhases_legal {fs : Num32} {k : Slot} (hk : k.legal fs = true) : k.resetPhases.legal fs = true := by
  obtain ⟨_, hf, hs, ⟨_, huf⟩, _, hdf⟩ := Slot.legal_iff.1 hk
  exact Slot.legal_iff.2 ⟨zero_phaseOk, hf, hs, ⟨zero_phaseOk, huf⟩, zero_phaseOk, hdf⟩

/-- Step 4 of a tick keeps a slot legal, whatever the shape and the base frequency (47_voice_renderer.md R255, R265). -/
theorem Slot.render_legal {fs : Num32} {sn : SnapshotBank} {shape baseF semi pmod : Num32} {k : Slot}
    (h : inRange fs fsMin fsMax = true) (hk : k.legal fs = true) :
    (k.render fs sn shape (slotFreq fs baseF semi pmod)).1.legal fs = true := by
  obtain ⟨hp, _, _, ⟨hup, _⟩, hdp, _⟩ := Slot.legal_iff.1 hk
  have hz := zero_le_half_fs h
  have hf := clampN_inRange (fmul baseF (exp2 (fdiv (fadd semi pmod) semitonesPerOctave))) hz
  have hu := clampN_inRange (fmul (slotFreq fs baseF semi pmod) (detuneRatio sn)) hz
  have hd := clampN_inRange (fdiv (slotFreq fs baseF semi pmod) (detuneRatio sn)) hz
  exact Slot.legal_iff.2
    ⟨phaseAdv_ok hp (increment_ok h hf), hf, clampN_inRange shape (by decide +kernel),
      ⟨phaseAdv_ok hup (increment_ok h hu), hu⟩, phaseAdv_ok hdp (increment_ok h hd), hd⟩

/-- The range of `sin2pi` on phases (00_scope.md R9). -/
theorem sin2pi_range {p : Num32} (hp : phaseOk p = true) : inRange (sin2pi p) minusOne one = true := by
  rw [sin2pi_eq]
  obtain ⟨h1, h2⟩ := phaseOk_iff.1 hp
  exact inRange_iff.2 (Config.functions.sin2pi_range p h1 h2)

/-- The LFO sample is in [-1, 1] (42_lfo.md R171). -/
theorem lfoSample_range {s : State} (hp : phaseOk s.lfoPhase = true) (hd : inRange s.snap.lfoDepth zero one = true) :
    inRange s.lfoSample minusOne one = true :=
  fmul_unit (sin2pi_range hp) hd

theorem SvFilter.legal_iff {f : SvFilter} : f.legal = true ↔
    inRange f.cutoff cutoffMin cutoffMax = true ∧ inRange f.res qMin qMax = true := by
  simp [SvFilter.legal]

theorem SvFilter.setCutoff_legal {f : SvFilter} (hz : Num32) (hf : f.legal = true) : (f.setCutoff hz).legal = true :=
  SvFilter.legal_iff.2 ⟨clampN_inRange hz (by decide +kernel), (SvFilter.legal_iff.1 hf).2⟩

theorem SvFilter.setRes_legal {f : SvFilter} (q : Num32) (hf : f.legal = true) : (f.setRes q).legal = true :=
  SvFilter.legal_iff.2 ⟨(SvFilter.legal_iff.1 hf).1, clampN_inRange q (by decide +kernel)⟩

theorem SvFilter.resetIntegrators_legal {f : SvFilter} (hf : f.legal = true) : f.resetIntegrators.legal = true := hf

/-- FILT_PROCESS leaves the two parameter registers alone (46_filter.md R235). -/
@[simp] theorem SvFilter.process_cutoff (fs : Num32) (f : SvFilter) (x : Num32) : (f.process fs x).1.cutoff = f.cutoff := rfl
@[simp] theorem SvFilter.process_res (fs : Num32) (f : SvFilter) (x : Num32) : (f.process fs x).1.res = f.res := rfl

/-- The facts of a legal snapshot that a tick uses. -/
theorem SnapshotBank.legal_lfo {sn : SnapshotBank} (h : sn.legal = true) :
    inRange sn.lfoRate zero lfoRateMax = true ∧ inRange sn.lfoDepth zero one = true := by
  simp only [SnapshotBank.legal, Bool.and_eq_true] at h
  exact ⟨h.1.1.1.2, h.1.1.2⟩

theorem SnapshotBank.legal_env {sn : SnapshotBank} (h : sn.legal = true) :
    sn.ampEnv.legal = true ∧ sn.filtEnv.legal = true := by
  simp only [SnapshotBank.legal, Bool.and_eq_true] at h
  exact ⟨h.1.2, h.2⟩

end Sys2Proof.Machine
end

