-- ==== Sys2Proof/Laws/State.lean ====
section
/-! SUPPORT. What each update of the state does to each field, one lemma per field, so that no proof unfolds a record update. -/

namespace Sys2Proof.Machine

variable (s : State)

/-! ## `State.writeParam` (48_commands.md R283) -/

@[simp] theorem State.writeParam_fs (p : Param) (c : Word) : (s.writeParam p c).fs = s.fs := rfl
@[simp] theorem State.writeParam_baseF (p : Param) (c : Word) : (s.writeParam p c).baseF = s.baseF := rfl
@[simp] theorem State.writeParam_oscA (p : Param) (c : Word) : (s.writeParam p c).oscA = s.oscA := rfl
@[simp] theorem State.writeParam_oscB (p : Param) (c : Word) : (s.writeParam p c).oscB = s.oscB := rfl
@[simp] theorem State.writeParam_lfoPhase (p : Param) (c : Word) : (s.writeParam p c).lfoPhase = s.lfoPhase := rfl
@[simp] theorem State.writeParam_aenv (p : Param) (c : Word) : (s.writeParam p c).aenv = s.aenv := rfl
@[simp] theorem State.writeParam_fenv (p : Param) (c : Word) : (s.writeParam p c).fenv = s.fenv := rfl
@[simp] theorem State.writeParam_filt (p : Param) (c : Word) : (s.writeParam p c).filt = s.filt := rfl
@[simp] theorem State.writeParam_life (p : Param) (c : Word) : (s.writeParam p c).life = s.life := rfl
@[simp] theorem State.writeParam_xmod (p : Param) (c : Word) : (s.writeParam p c).xmod = s.xmod := rfl
@[simp] theorem State.writeParam_busy (p : Param) (c : Word) : (s.writeParam p c).busy = s.busy := rfl
@[simp] theorem State.writeParam_blk (p : Param) (c : Word) : (s.writeParam p c).blk = s.blk := rfl
@[simp] theorem State.writeParam_pend (p : Param) (c : Word) : (s.writeParam p c).pend = s.pend.write p c := rfl
@[simp] theorem State.writeParam_snap (p : Param) (c : Word) : (s.writeParam p c).snap = s.snap := rfl
@[simp] theorem State.writeParam_out (p : Param) (c : Word) : (s.writeParam p c).out = s.out := rfl
@[simp] theorem State.writeParam_waiting (p : Param) (c : Word) : (s.writeParam p c).waiting = s.waiting := rfl
@[simp] theorem State.writeParam_turns (p : Param) (c : Word) : (s.writeParam p c).turns = s.turns := rfl

/-! ## `State.snapshot` (48_commands.md R284) -/

@[simp] theorem State.snapshot_fs : s.snapshot.fs = s.fs := rfl
@[simp] theorem State.snapshot_baseF : s.snapshot.baseF = s.baseF := rfl
@[simp] theorem State.snapshot_oscA : s.snapshot.oscA = s.oscA := rfl
@[simp] theorem State.snapshot_oscB : s.snapshot.oscB = s.oscB := rfl
@[simp] theorem State.snapshot_lfoPhase : s.snapshot.lfoPhase = s.lfoPhase := rfl
@[simp] theorem State.snapshot_aenv : s.snapshot.aenv = s.aenv := rfl
@[simp] theorem State.snapshot_fenv : s.snapshot.fenv = s.fenv := rfl
@[simp] theorem State.snapshot_filt : s.snapshot.filt = s.filt := rfl
@[simp] theorem State.snapshot_life : s.snapshot.life = s.life := rfl
@[simp] theorem State.snapshot_xmod : s.snapshot.xmod = s.xmod := rfl
@[simp] theorem State.snapshot_busy : s.snapshot.busy = s.busy := rfl
@[simp] theorem State.snapshot_blk : s.snapshot.blk = s.blk := rfl
@[simp] theorem State.snapshot_pend : s.snapshot.pend = s.pend := rfl
@[simp] theorem State.snapshot_snap : s.snapshot.snap = s.pend.sanitise := rfl
@[simp] theorem State.snapshot_out : s.snapshot.out = s.out := rfl
@[simp] theorem State.snapshot_waiting : s.snapshot.waiting = s.waiting := rfl
@[simp] theorem State.snapshot_turns : s.snapshot.turns = s.turns := rfl

/-! ## `State.lfoAdvance` (42_lfo.md R171) -/

@[simp] theorem State.lfoAdvance_fs : s.lfoAdvance.fs = s.fs := rfl
@[simp] theorem State.lfoAdvance_baseF : s.lfoAdvance.baseF = s.baseF := rfl
@[simp] theorem State.lfoAdvance_oscA : s.lfoAdvance.oscA = s.oscA := rfl
@[simp] theorem State.lfoAdvance_oscB : s.lfoAdvance.oscB = s.oscB := rfl
@[simp] theorem State.lfoAdvance_lfoPhase : s.lfoAdvance.lfoPhase = phaseAdv s.lfoPhase (fdiv s.snap.lfoRate s.fs) := rfl
@[simp] theorem State.lfoAdvance_aenv : s.lfoAdvance.aenv = s.aenv := rfl
@[simp] theorem State.lfoAdvance_fenv : s.lfoAdvance.fenv = s.fenv := rfl
@[simp] theorem State.lfoAdvance_filt : s.lfoAdvance.filt = s.filt := rfl
@[simp] theorem State.lfoAdvance_life : s.lfoAdvance.life = s.life := rfl
@[simp] theorem State.lfoAdvance_xmod : s.lfoAdvance.xmod = s.xmod := rfl
@[simp] theorem State.lfoAdvance_busy : s.lfoAdvance.busy = s.busy := rfl
@[simp] theorem State.lfoAdvance_blk : s.lfoAdvance.blk = s.blk := rfl
@[simp] theorem State.lfoAdvance_pend : s.lfoAdvance.pend = s.pend := rfl
@[simp] theorem State.lfoAdvance_snap : s.lfoAdvance.snap = s.snap := rfl
@[simp] theorem State.lfoAdvance_out : s.lfoAdvance.out = s.out := rfl
@[simp] theorem State.lfoAdvance_waiting : s.lfoAdvance.waiting = s.waiting := rfl
@[simp] theorem State.lfoAdvance_turns : s.lfoAdvance.turns = s.turns := rfl

/-! ## `State.lfoReset` (42_lfo.md R172) -/

@[simp] theorem State.lfoReset_fs : s.lfoReset.fs = s.fs := rfl
@[simp] theorem State.lfoReset_baseF : s.lfoReset.baseF = s.baseF := rfl
@[simp] theorem State.lfoReset_oscA : s.lfoReset.oscA = s.oscA := rfl
@[simp] theorem State.lfoReset_oscB : s.lfoReset.oscB = s.oscB := rfl
@[simp] theorem State.lfoReset_lfoPhase : s.lfoReset.lfoPhase = zero := rfl
@[simp] theorem State.lfoReset_aenv : s.lfoReset.aenv = s.aenv := rfl
@[simp] theorem State.lfoReset_fenv : s.lfoReset.fenv = s.fenv := rfl
@[simp] theorem State.lfoReset_filt : s.lfoReset.filt = s.filt := rfl
@[simp] theorem State.lfoReset_life : s.lfoReset.life = s.life := rfl
@[simp] theorem State.lfoReset_xmod : s.lfoReset.xmod = s.xmod := rfl
@[simp] theorem State.lfoReset_busy : s.lfoReset.busy = s.busy := rfl
@[simp] theorem State.lfoReset_blk : s.lfoReset.blk = s.blk := rfl
@[simp] theorem State.lfoReset_pend : s.lfoReset.pend = s.pend := rfl
@[simp] theorem State.lfoReset_snap : s.lfoReset.snap = s.snap := rfl
@[simp] theorem State.lfoReset_out : s.lfoReset.out = s.out := rfl
@[simp] theorem State.lfoReset_waiting : s.lfoReset.waiting = s.waiting := rfl
@[simp] theorem State.lfoReset_turns : s.lfoReset.turns = s.turns := rfl

/-! ## `State.clearDatapath` (48_commands.md R282) -/

@[simp] theorem State.clearDatapath_fs : s.clearDatapath.fs = s.fs := rfl
@[simp] theorem State.clearDatapath_baseF : s.clearDatapath.baseF = zero := rfl
@[simp] theorem State.clearDatapath_oscA : s.clearDatapath.oscA = Slot.reset := rfl
@[simp] theorem State.clearDatapath_oscB : s.clearDatapath.oscB = Slot.reset := rfl
@[simp] theorem State.clearDatapath_lfoPhase : s.clearDatapath.lfoPhase = zero := rfl
@[simp] theorem State.clearDatapath_aenv : s.clearDatapath.aenv = s.aenv.toReset := rfl
@[simp] theorem State.clearDatapath_fenv : s.clearDatapath.fenv = s.fenv.toReset := rfl
@[simp] theorem State.clearDatapath_filt :
    s.clearDatapath.filt = { s1 := zero, s2 := zero, cutoff := cutoffMax, res := qDefault } := rfl
@[simp] theorem State.clearDatapath_life : s.clearDatapath.life = .idle := rfl
@[simp] theorem State.clearDatapath_xmod : s.clearDatapath.xmod = zero := rfl
@[simp] theorem State.clearDatapath_busy : s.clearDatapath.busy = s.busy := rfl
@[simp] theorem State.clearDatapath_blk : s.clearDatapath.blk = s.blk := rfl
@[simp] theorem State.clearDatapath_pend : s.clearDatapath.pend = s.pend := rfl
@[simp] theorem State.clearDatapath_snap : s.clearDatapath.snap = s.snap := rfl
@[simp] theorem State.clearDatapath_out : s.clearDatapath.out = s.out := rfl
@[simp] theorem State.clearDatapath_waiting : s.clearDatapath.waiting = s.waiting := rfl
@[simp] theorem State.clearDatapath_turns : s.clearDatapath.turns = s.turns := rfl

/-! ## `State.notesOn` (48_commands.md R285) -/

@[simp] theorem State.notesOn_fs : s.notesOn.fs = s.fs := rfl
@[simp] theorem State.notesOn_baseF : s.notesOn.baseF = s.baseF := rfl
@[simp] theorem State.notesOn_oscA : s.notesOn.oscA = s.oscA := rfl
@[simp] theorem State.notesOn_oscB : s.notesOn.oscB = s.oscB := rfl
@[simp] theorem State.notesOn_lfoPhase : s.notesOn.lfoPhase = s.lfoPhase := rfl
@[simp] theorem State.notesOn_aenv : s.notesOn.aenv = s.aenv.noteOn s.fs s.snap.ampEnv := rfl
@[simp] theorem State.notesOn_fenv : s.notesOn.fenv = s.fenv.noteOn s.fs s.snap.filtEnv := rfl
@[simp] theorem State.notesOn_filt : s.notesOn.filt = s.filt := rfl
@[simp] theorem State.notesOn_life : s.notesOn.life = s.life := rfl
@[simp] theorem State.notesOn_xmod : s.notesOn.xmod = s.xmod := rfl
@[simp] theorem State.notesOn_busy : s.notesOn.busy = s.busy := rfl
@[simp] theorem State.notesOn_blk : s.notesOn.blk = s.blk := rfl
@[simp] theorem State.notesOn_pend : s.notesOn.pend = s.pend := rfl
@[simp] theorem State.notesOn_snap : s.notesOn.snap = s.snap := rfl
@[simp] theorem State.notesOn_out : s.notesOn.out = s.out := rfl
@[simp] theorem State.notesOn_waiting : s.notesOn.waiting = s.waiting := rfl
@[simp] theorem State.notesOn_turns : s.notesOn.turns = s.turns := rfl

/-! ## `State.notesOff` (48_commands.md R286) -/

@[simp] theorem State.notesOff_fs : s.notesOff.fs = s.fs := rfl
@[simp] theorem State.notesOff_baseF : s.notesOff.baseF = s.baseF := rfl
@[simp] theorem State.notesOff_oscA : s.notesOff.oscA = s.oscA := rfl
@[simp] theorem State.notesOff_oscB : s.notesOff.oscB = s.oscB := rfl
@[simp] theorem State.notesOff_lfoPhase : s.notesOff.lfoPhase = s.lfoPhase := rfl
@[simp] theorem State.notesOff_aenv : s.notesOff.aenv = s.aenv.noteOff s.fs s.snap.ampEnv := rfl
@[simp] theorem State.notesOff_fenv : s.notesOff.fenv = s.fenv.noteOff s.fs s.snap.filtEnv := rfl
@[simp] theorem State.notesOff_filt : s.notesOff.filt = s.filt := rfl
@[simp] theorem State.notesOff_life : s.notesOff.life = s.life := rfl
@[simp] theorem State.notesOff_xmod : s.notesOff.xmod = s.xmod := rfl
@[simp] theorem State.notesOff_busy : s.notesOff.busy = s.busy := rfl
@[simp] theorem State.notesOff_blk : s.notesOff.blk = s.blk := rfl
@[simp] theorem State.notesOff_pend : s.notesOff.pend = s.pend := rfl
@[simp] theorem State.notesOff_snap : s.notesOff.snap = s.snap := rfl
@[simp] theorem State.notesOff_out : s.notesOff.out = s.out := rfl
@[simp] theorem State.notesOff_waiting : s.notesOff.waiting = s.waiting := rfl
@[simp] theorem State.notesOff_turns : s.notesOff.turns = s.turns := rfl

/-! ## `State.stopWithTail` (48_commands.md R286) -/

@[simp] theorem State.stopWithTail_fs : s.stopWithTail.fs = s.fs := (rfl)
@[simp] theorem State.stopWithTail_baseF : s.stopWithTail.baseF = s.baseF := (rfl)
@[simp] theorem State.stopWithTail_oscA : s.stopWithTail.oscA = s.oscA := (rfl)
@[simp] theorem State.stopWithTail_oscB : s.stopWithTail.oscB = s.oscB := (rfl)
@[simp] theorem State.stopWithTail_lfoPhase : s.stopWithTail.lfoPhase = s.lfoPhase := (rfl)
@[simp] theorem State.stopWithTail_aenv : s.stopWithTail.aenv = s.aenv.noteOff s.fs s.pend.sanitise.ampEnv := (rfl)
@[simp] theorem State.stopWithTail_fenv : s.stopWithTail.fenv = s.fenv.noteOff s.fs s.pend.sanitise.filtEnv := (rfl)
@[simp] theorem State.stopWithTail_filt : s.stopWithTail.filt = s.filt := (rfl)
@[simp] theorem State.stopWithTail_life :
    s.stopWithTail.life = if (s.aenv.noteOff s.fs s.pend.sanitise.ampEnv).stage = .idle then .idle else .releasing := (rfl)
@[simp] theorem State.stopWithTail_xmod : s.stopWithTail.xmod = s.xmod := (rfl)
@[simp] theorem State.stopWithTail_busy : s.stopWithTail.busy = s.busy := (rfl)
@[simp] theorem State.stopWithTail_blk : s.stopWithTail.blk = s.blk := (rfl)
@[simp] theorem State.stopWithTail_pend : s.stopWithTail.pend = s.pend := (rfl)
@[simp] theorem State.stopWithTail_snap : s.stopWithTail.snap = s.pend.sanitise := (rfl)
@[simp] theorem State.stopWithTail_out : s.stopWithTail.out = s.out := (rfl)
@[simp] theorem State.stopWithTail_waiting : s.stopWithTail.waiting = s.waiting := (rfl)
@[simp] theorem State.stopWithTail_turns : s.stopWithTail.turns = s.turns := (rfl)

/-! ## `State.stopAtOnce` (48_commands.md R286) -/

@[simp] theorem State.stopAtOnce_fs : s.stopAtOnce.fs = s.fs := rfl
@[simp] theorem State.stopAtOnce_baseF : s.stopAtOnce.baseF = s.baseF := rfl
@[simp] theorem State.stopAtOnce_oscA : s.stopAtOnce.oscA = s.oscA := rfl
@[simp] theorem State.stopAtOnce_oscB : s.stopAtOnce.oscB = s.oscB := rfl
@[simp] theorem State.stopAtOnce_lfoPhase : s.stopAtOnce.lfoPhase = s.lfoPhase := rfl
@[simp] theorem State.stopAtOnce_aenv : s.stopAtOnce.aenv = s.aenv.toReset := rfl
@[simp] theorem State.stopAtOnce_fenv : s.stopAtOnce.fenv = s.fenv.toReset := rfl
@[simp] theorem State.stopAtOnce_filt : s.stopAtOnce.filt = s.filt := rfl
@[simp] theorem State.stopAtOnce_life : s.stopAtOnce.life = .idle := rfl
@[simp] theorem State.stopAtOnce_xmod : s.stopAtOnce.xmod = s.xmod := rfl
@[simp] theorem State.stopAtOnce_busy : s.stopAtOnce.busy = s.busy := rfl
@[simp] theorem State.stopAtOnce_blk : s.stopAtOnce.blk = s.blk := rfl
@[simp] theorem State.stopAtOnce_pend : s.stopAtOnce.pend = s.pend := rfl
@[simp] theorem State.stopAtOnce_snap : s.stopAtOnce.snap = s.snap := rfl
@[simp] theorem State.stopAtOnce_out : s.stopAtOnce.out = s.out := rfl
@[simp] theorem State.stopAtOnce_waiting : s.stopAtOnce.waiting = s.waiting := rfl
@[simp] theorem State.stopAtOnce_turns : s.stopAtOnce.turns = s.turns := rfl

/-! ## `State.beginBlock` (48_commands.md R287) -/

@[simp] theorem State.beginBlock_fs (nch : BitVec 8) (num : BitVec 16) (start : Word) :
    (s.beginBlock nch num start).fs = s.fs := rfl
@[simp] theorem State.beginBlock_baseF (nch : BitVec 8) (num : BitVec 16) (start : Word) :
    (s.beginBlock nch num start).baseF = s.baseF := rfl
@[simp] theorem State.beginBlock_oscA (nch : BitVec 8) (num : BitVec 16) (start : Word) :
    (s.beginBlock nch num start).oscA = s.oscA := rfl
@[simp] theorem State.beginBlock_oscB (nch : BitVec 8) (num : BitVec 16) (start : Word) :
    (s.beginBlock nch num start).oscB = s.oscB := rfl
@[simp] theorem State.beginBlock_lfoPhase (nch : BitVec 8) (num : BitVec 16) (start : Word) :
    (s.beginBlock nch num start).lfoPhase = s.lfoPhase := rfl
@[simp] theorem State.beginBlock_aenv (nch : BitVec 8) (num : BitVec 16) (start : Word) :
    (s.beginBlock nch num start).aenv = s.aenv := rfl
@[simp] theorem State.beginBlock_fenv (nch : BitVec 8) (num : BitVec 16) (start : Word) :
    (s.beginBlock nch num start).fenv = s.fenv := rfl
@[simp] theorem State.beginBlock_filt (nch : BitVec 8) (num : BitVec 16) (start : Word) :
    (s.beginBlock nch num start).filt = s.filt.setRes s.pend.sanitise.filtRes := rfl
@[simp] theorem State.beginBlock_life (nch : BitVec 8) (num : BitVec 16) (start : Word) :
    (s.beginBlock nch num start).life = s.life := rfl
@[simp] theorem State.beginBlock_xmod (nch : BitVec 8) (num : BitVec 16) (start : Word) :
    (s.beginBlock nch num start).xmod = s.xmod := rfl
@[simp] theorem State.beginBlock_busy (nch : BitVec 8) (num : BitVec 16) (start : Word) :
    (s.beginBlock nch num start).busy = decide (0 < num.toNat) := rfl
@[simp] theorem State.beginBlock_blk (nch : BitVec 8) (num : BitVec 16) (start : Word) :
    (s.beginBlock nch num start).blk = { n := 0#32, num := num, start := start, nch := nch } := rfl
@[simp] theorem State.beginBlock_pend (nch : BitVec 8) (num : BitVec 16) (start : Word) :
    (s.beginBlock nch num start).pend = s.pend := rfl
@[simp] theorem State.beginBlock_snap (nch : BitVec 8) (num : BitVec 16) (start : Word) :
    (s.beginBlock nch num start).snap = s.pend.sanitise := rfl
@[simp] theorem State.beginBlock_out (nch : BitVec 8) (num : BitVec 16) (start : Word) :
    (s.beginBlock nch num start).out = s.out := rfl
@[simp] theorem State.beginBlock_waiting (nch : BitVec 8) (num : BitVec 16) (start : Word) :
    (s.beginBlock nch num start).waiting = s.waiting := rfl
@[simp] theorem State.beginBlock_turns (nch : BitVec 8) (num : BitVec 16) (start : Word) :
    (s.beginBlock nch num start).turns = s.turns := rfl

/-! ## `State.voiceTick` (47_voice_renderer.md R250) -/

@[simp] theorem State.voiceTick_fs (n : Word) : (s.voiceTick n).fs = s.fs := rfl
@[simp] theorem State.voiceTick_baseF (n : Word) : (s.voiceTick n).baseF = s.baseF := rfl
@[simp] theorem State.voiceTick_oscA (n : Word) : (s.voiceTick n).oscA = s.tickSlotA.1 := rfl
@[simp] theorem State.voiceTick_oscB (n : Word) : (s.voiceTick n).oscB = s.tickSlotB.1 := rfl
@[simp] theorem State.voiceTick_lfoPhase (n : Word) : (s.voiceTick n).lfoPhase = s.lfoAdvance.lfoPhase := rfl
@[simp] theorem State.voiceTick_aenv (n : Word) : (s.voiceTick n).aenv = s.tickAenv := rfl
@[simp] theorem State.voiceTick_fenv (n : Word) : (s.voiceTick n).fenv = s.tickFenv := rfl
@[simp] theorem State.voiceTick_filt (n : Word) : (s.voiceTick n).filt = s.tickFilter.1 := rfl
@[simp] theorem State.voiceTick_life (n : Word) : (s.voiceTick n).life = s.tickLife := rfl
@[simp] theorem State.voiceTick_xmod (n : Word) : (s.voiceTick n).xmod = s.tickXmod := rfl
@[simp] theorem State.voiceTick_busy (n : Word) : (s.voiceTick n).busy = s.busy := rfl
@[simp] theorem State.voiceTick_blk (n : Word) : (s.voiceTick n).blk = s.blk := rfl
@[simp] theorem State.voiceTick_pend (n : Word) : (s.voiceTick n).pend = s.pend := rfl
@[simp] theorem State.voiceTick_snap (n : Word) : (s.voiceTick n).snap = s.snap := rfl
@[simp] theorem State.voiceTick_out (n : Word) :
    (s.voiceTick n).out = writeChannels s.out (s.blk.start + n) s.tickSample s.blk.nch.toNat := rfl
@[simp] theorem State.voiceTick_waiting (n : Word) : (s.voiceTick n).waiting = s.waiting := rfl
@[simp] theorem State.voiceTick_turns (n : Word) : (s.voiceTick n).turns = s.turns := rfl

/-! ## `State.endTurn` -/

@[simp] theorem State.endTurn_fs : s.endTurn.fs = s.fs := rfl
@[simp] theorem State.endTurn_baseF : s.endTurn.baseF = s.baseF := rfl
@[simp] theorem State.endTurn_oscA : s.endTurn.oscA = s.oscA := rfl
@[simp] theorem State.endTurn_oscB : s.endTurn.oscB = s.oscB := rfl
@[simp] theorem State.endTurn_lfoPhase : s.endTurn.lfoPhase = s.lfoPhase := rfl
@[simp] theorem State.endTurn_aenv : s.endTurn.aenv = s.aenv := rfl
@[simp] theorem State.endTurn_fenv : s.endTurn.fenv = s.fenv := rfl
@[simp] theorem State.endTurn_filt : s.endTurn.filt = s.filt := rfl
@[simp] theorem State.endTurn_life : s.endTurn.life = s.life := rfl
@[simp] theorem State.endTurn_xmod : s.endTurn.xmod = s.xmod := rfl
@[simp] theorem State.endTurn_busy : s.endTurn.busy = s.busy := rfl
@[simp] theorem State.endTurn_blk : s.endTurn.blk = s.blk := rfl
@[simp] theorem State.endTurn_pend : s.endTurn.pend = s.pend := rfl
@[simp] theorem State.endTurn_snap : s.endTurn.snap = s.snap := rfl
@[simp] theorem State.endTurn_out : s.endTurn.out = s.out := rfl
@[simp] theorem State.endTurn_waiting : s.endTurn.waiting = s.waiting := rfl
@[simp] theorem State.endTurn_turns : s.endTurn.turns = s.turns.tail := rfl

/-! ## `State.present` -/

@[simp] theorem State.present_fs (w : Word64) : (s.present w).fs = s.fs := rfl
@[simp] theorem State.present_baseF (w : Word64) : (s.present w).baseF = s.baseF := rfl
@[simp] theorem State.present_oscA (w : Word64) : (s.present w).oscA = s.oscA := rfl
@[simp] theorem State.present_oscB (w : Word64) : (s.present w).oscB = s.oscB := rfl
@[simp] theorem State.present_lfoPhase (w : Word64) : (s.present w).lfoPhase = s.lfoPhase := rfl
@[simp] theorem State.present_aenv (w : Word64) : (s.present w).aenv = s.aenv := rfl
@[simp] theorem State.present_fenv (w : Word64) : (s.present w).fenv = s.fenv := rfl
@[simp] theorem State.present_filt (w : Word64) : (s.present w).filt = s.filt := rfl
@[simp] theorem State.present_life (w : Word64) : (s.present w).life = s.life := rfl
@[simp] theorem State.present_xmod (w : Word64) : (s.present w).xmod = s.xmod := rfl
@[simp] theorem State.present_busy (w : Word64) : (s.present w).busy = (s.busy && decide (portOf w = .pport)) := rfl
@[simp] theorem State.present_blk (w : Word64) : (s.present w).blk = s.blk := rfl
@[simp] theorem State.present_pend (w : Word64) : (s.present w).pend = s.pend := rfl
@[simp] theorem State.present_snap (w : Word64) : (s.present w).snap = s.snap := rfl
@[simp] theorem State.present_out (w : Word64) : (s.present w).out = s.out := rfl
@[simp] theorem State.present_waiting (w : Word64) : (s.present w).waiting = w :: s.waiting := rfl
@[simp] theorem State.present_turns (w : Word64) : (s.present w).turns = agentOf (portOf w) :: s.turns := rfl

/-! ## `State.resetPulse` (70_reset_and_hazards.md R340, R341) -/

@[simp] theorem State.resetPulse_fs : s.resetPulse.fs = State.reset.fs := rfl
@[simp] theorem State.resetPulse_baseF : s.resetPulse.baseF = State.reset.baseF := rfl
@[simp] theorem State.resetPulse_oscA : s.resetPulse.oscA = State.reset.oscA := rfl
@[simp] theorem State.resetPulse_oscB : s.resetPulse.oscB = State.reset.oscB := rfl
@[simp] theorem State.resetPulse_lfoPhase : s.resetPulse.lfoPhase = State.reset.lfoPhase := rfl
@[simp] theorem State.resetPulse_aenv : s.resetPulse.aenv = State.reset.aenv := rfl
@[simp] theorem State.resetPulse_fenv : s.resetPulse.fenv = State.reset.fenv := rfl
@[simp] theorem State.resetPulse_filt : s.resetPulse.filt = State.reset.filt := rfl
@[simp] theorem State.resetPulse_life : s.resetPulse.life = State.reset.life := rfl
@[simp] theorem State.resetPulse_xmod : s.resetPulse.xmod = State.reset.xmod := rfl
@[simp] theorem State.resetPulse_busy : s.resetPulse.busy = State.reset.busy := rfl
@[simp] theorem State.resetPulse_blk : s.resetPulse.blk = State.reset.blk := rfl
@[simp] theorem State.resetPulse_pend : s.resetPulse.pend = State.reset.pend := rfl
@[simp] theorem State.resetPulse_snap : s.resetPulse.snap = State.reset.snap := rfl
@[simp] theorem State.resetPulse_out : s.resetPulse.out = s.out := rfl
@[simp] theorem State.resetPulse_waiting : s.resetPulse.waiting = s.waiting := rfl
@[simp] theorem State.resetPulse_turns : s.resetPulse.turns = s.turns := rfl

end Sys2Proof.Machine
end

