-- ==== Sys2Proof/Laws/Step.lean ====
section
/-! SUPPORT. What a step can do, and which word an acceptance takes. -/

namespace Sys2Proof.Machine

/-- Everything a step that answers a next state can be: a reset pulse, one turn of the block's loop, the meaning of an
accepted command, or nothing. -/
theorem step_cases {s t : State} (h : step s = .next t) :
    (s.nextMove = .reset ∧ t = s.endTurn.resetPulse) ∨
    (s.nextMove = .tick ∧ t = s.endTurn.blockTick) ∨
    (∃ w rest, s.nextMove = .accept w rest ∧ exec (decode w) { s.endTurn with waiting := rest } = .next t) ∨
    (s.nextMove = .idle ∧ t = s.endTurn) := by
  unfold step at h
  split at h <;> rename_i e
  · exact .inl ⟨e, (by simpa using h.symm)⟩
  · exact .inr (.inl ⟨e, (by simpa using h.symm)⟩)
  · exact .inr (.inr (.inl ⟨_, _, e, h⟩))
  · exact .inr (.inr (.inr ⟨e, (by simpa using h.symm)⟩))

/-- The word taken from a port is the first that stands on it; the others keep their order. -/
theorem takeWord_some {p : Port} {w : Word64} : ∀ {ws rest : List Word64}, takeWord p ws = some (w, rest) →
    portOf w = p ∧ ∃ before after, ws = before ++ w :: after ∧ rest = before ++ after ∧ ∀ x ∈ before, portOf x ≠ p
  | [], _, h => by cases h
  | x :: ws, rest, h => by
    unfold takeWord at h
    split at h
    · next hx =>
      obtain ⟨rfl, rfl⟩ : x = w ∧ ws = rest := by simpa using h
      exact ⟨hx, [], ws, rfl, rfl, by simp⟩
    · next hx =>
      split at h
      · next y rest' e =>
        obtain ⟨rfl, rfl⟩ : y = w ∧ x :: rest' = rest := by simpa using h
        obtain ⟨hp, before, after, rfl, rfl, hb⟩ := takeWord_some e
        exact ⟨hp, x :: before, after, rfl, rfl, by simpa using ⟨hx, hb⟩⟩
      · cases h

/-- Nothing is taken exactly when no word stands on the port. -/
theorem takeWord_none {p : Port} : ∀ {ws : List Word64}, takeWord p ws = none ↔ ∀ x ∈ ws, portOf x ≠ p
  | [] => by simp [takeWord]
  | x :: ws => by
    by_cases hx : portOf x = p
    · simp [takeWord, hx]
    · cases e : takeWord p ws with
      | none => simp [takeWord, hx, e]; exact takeWord_none.1 e
      | some r =>
        obtain ⟨w, rest⟩ := r
        obtain ⟨hp, before, after, rfl, -, -⟩ := takeWord_some e
        simp only [takeWord, if_neg hx, e, reduceCtorEq, false_iff]
        exact fun h => h w (by simp) hp

/-- The first word of a port is the one taken, whatever stands before it on the other port. -/
theorem takeWord_append (w : Word64) (after : List Word64) : ∀ {before : List Word64}, (∀ x ∈ before, portOf x ≠ portOf w) →
    takeWord (portOf w) (before ++ w :: after) = some (w, before ++ after)
  | [], _ => by simp [takeWord]
  | x :: before, h => by
    have := takeWord_append w after (before := before) (fun y hy => h y (by simp [hy]))
    simp [takeWord, h x (by simp), this]

end Sys2Proof.Machine
end

