-- ==== Sys2Proof/Laws/Waveform.lean ====
section
/-! SUPPORT. The values OSC_WAVE is made of stay in [-1, 1] (40_oscillator.md R143, R147, R148): `lerp`, the saw, the square, the
weight; and sums between bounds. -/

namespace Sys2Proof.Machine

set_option Elab.async false

theorem magOf_one : magOf (127 * 2 ^ 23) = 2 ^ 149 := by decide +kernel
theorem magOf_succ_one : magOf (127 * 2 ^ 23 + 1) = 2 ^ 149 + 2 ^ 126 := by decide +kernel

/-- A magnitude of at most `1 + 2^-25` does not round past 1 (40_oscillator.md R148). -/
theorem roundMag_le_one {n : Nat} (h : n ≤ 2 ^ 149 + 2 ^ 124) : roundMag n 1 ≤ 127 * 2 ^ 23 := by
  by_cases h1 : n ≤ 2 ^ 149
  · exact roundMag_le (by decide) (by rw [magOf_one]; omega)
  · by_contra hc
    have hs : roundMag n 1 ≤ 127 * 2 ^ 23 + 1 := roundMag_le (by decide) (by rw [magOf_succ_one]; omega)
    have he : roundMag n 1 = 127 * 2 ^ 23 + 1 := by omega
    have hn := (roundMag_nearest (n := n) (d := 1) (j := 127 * 2 ^ 23) (by decide) (by decide) (by rw [he]; decide)).1
    rw [he, magOf_succ_one, magOf_one] at hn
    omega

/-- The computed `1 - t` exceeds the exact one by at most `2^-25`. -/
theorem one_sub_near {t : Num32} (ht : inRange t zero one = true) :
    inRange (fsub one t) zero one = true ∧ (fsub one t).val + t.val ≤ 2 ^ 149 + 2 ^ 124 := by
  have htf := inRange_finite ht finite_consts.1 finite_consts.2.1
  have hone := finite_consts.2.1
  have htv := inRange_val ht
  rw [zero_val, one_val] at htv
  have hr : inRange (fsub one t) zero one = true :=
    inRange_of_val (fsub_not_nan hone htf) (by decide +kernel) (by decide +kernel)
      (le_fsub hone htf (by decide +kernel) (by rw [zero_val, one_val]; omega))
      (fsub_le hone htf (by decide +kernel) (by rw [one_val]; omega))
  refine ⟨hr, ?_⟩
  have hrv := inRange_val hr
  rw [zero_val, one_val] at hrv
  obtain ⟨m, hm⟩ : ∃ m : Nat, (m : Int) = 2 ^ 149 - t.val := ⟨(2 ^ 149 - t.val).toNat, by omega⟩
  have hval : (fsub one t).val = (magOf (roundMag m 1) : Int) := by
    by_cases h0 : m = 0
    · have : (fsub one t).val ≤ zero.val := fsub_le hone htf (by decide +kernel) (by rw [zero_val, one_val]; omega)
      rw [zero_val] at this
      have hz : roundMag 0 1 = 0 := by decide +kernel
      rw [h0, hz, magOf_zero]; omega
    · have hv : one.val + -t.val = (m : Int) := by rw [one_val]; omega
      show (addSigned .sub true one t).val = _
      rw [addSigned_finite hone htf]
      simp only [if_true, hv]
      rw [if_neg (by omega), packNum_val _ (roundMag_le_infMag _ _), Int.natAbs_natCast]
      simp
  have hle : roundMag m 1 ≤ 127 * 2 ^ 23 := roundMag_le (by decide) (by rw [magOf_one]; omega)
  -- the nearest multiple of 2^-24
  obtain ⟨j, hj, hjv⟩ : ∃ j, j ≤ infMag ∧ magOf j = (m + 2 ^ 124) / 2 ^ 125 * 2 ^ 125 := by
    by_cases hb : (m + 2 ^ 124) / 2 ^ 125 < 2 ^ 24
    · exact exists_magOf hb (by decide) (by decide)
    · refine ⟨127 * 2 ^ 23, by decide, ?_⟩
      rw [magOf_one]
      omega
  have hn := (roundMag_nearest (n := m) (d := 1) (j := j) (by decide) hj (by
    exact Nat.lt_of_le_of_lt hle (by decide))).1
  rw [hjv] at hn
  rw [hval]
  omega

/-- A sum whose exact value exceeds 1 in magnitude by at most `2^-25` is in [-1, 1]. -/
theorem fadd_within_one {x y : Num32} (hx : x.isFinite = true) (hy : y.isFinite = true)
    (h1 : x.val + y.val ≤ 2 ^ 149 + 2 ^ 124) (h2 : -(2 ^ 149 + 2 ^ 124) ≤ x.val + y.val) :
    inRange (fadd x y) minusOne one = true := by
  have hmag : (fadd x y).val ≤ 2 ^ 149 ∧ -2 ^ 149 ≤ (fadd x y).val := by
    by_cases h0 : x.val + y.val = 0
    · have := fadd_le (b := one) hx hy (by decide +kernel) (by rw [one_val]; omega)
      have := le_fadd (b := minusOne) hx hy (by decide +kernel) (by rw [minusOne_val]; omega)
      rw [one_val] at *; rw [minusOne_val] at *
      omega
    · have hr : roundMag (x.val + y.val).natAbs 1 ≤ 127 * 2 ^ 23 := roundMag_le_one (by omega)
      have hm := (magOf_le_iff (roundMag_le_infMag _ _) (by decide : 127 * 2 ^ 23 ≤ infMag)).2 hr
      rw [magOf_one] at hm
      show (addSigned .add false x y).val ≤ _ ∧ _ ≤ (addSigned .add false x y).val
      rw [addSigned_finite hx hy]
      simp only [Bool.false_eq_true, if_false]
      rw [if_neg h0, packNum_val _ (roundMag_le_infMag _ _)]
      split <;> omega
  exact inRange_of_val (fadd_not_nan hx hy) (by decide +kernel) (by decide +kernel)
    (by rw [minusOne_val]; exact hmag.2) (by rw [one_val]; exact hmag.1)

/-- A product of a factor `d` in [0, 1] and a value in [-1, 1] does not exceed `d` in magnitude. -/
theorem fmul_le_factor {d x : Num32} (hd : inRange d zero one = true) (hx : inRange x minusOne one = true) :
    (fmul d x).isFinite = true ∧ (fmul d x).val ≤ d.val ∧ -d.val ≤ (fmul d x).val := by
  have hxf := inRange_finite hx finite_consts.2.2.1 finite_consts.2.1
  have hdf := inRange_finite hd finite_consts.1 finite_consts.2.1
  have hxv := inRange_val hx
  have hdv := inRange_val hd
  rw [minusOne_val, one_val] at hxv
  rw [zero_val, one_val] at hdv
  have hup : (fmul d x).val ≤ d.val :=
    fmul_le hdf hxf (isNaN_of_isFinite hdf) (mul_le_mul_of_nonneg_left hxv.2 hdv.1)
  have hlow := lowBits_le_infMag (isNaN_of_isFinite hdf)
  have hneg : (packNum true (lowBits d)).val = -d.val := by
    rw [packNum_val true hlow, if_pos rfl, ← mag_eq, val_eq_mag hdv.1]
  have hdown : -d.val ≤ (fmul d x).val := by
    rw [← hneg]
    refine le_fmul hdf hxf (packNum_isNaN true hlow) ?_
    rw [hneg, neg_mul, ← mul_neg]
    exact mul_le_mul_of_nonneg_left hxv.1 hdv.1
  refine ⟨isFinite_between (lo := minusOne) (hi := one) (fle_iff.2 ⟨by decide +kernel, fmul_not_nan hdf hxf, ?_⟩)
    (fle_iff.2 ⟨fmul_not_nan hdf hxf, by decide +kernel, ?_⟩) (by decide +kernel) (by decide +kernel), hup, hdown⟩
  · rw [minusOne_val]; omega
  · rw [one_val]; omega

/-- `lerp` of two values in [-1, 1] by a weight in [0, 1] is in [-1, 1] (40_oscillator.md R147, R148). -/
theorem lerp_unit {x y t : Num32} (hx : inRange x minusOne one = true) (hy : inRange y minusOne one = true)
    (ht : inRange t zero one = true) : inRange (lerp x y t) minusOne one = true := by
  obtain ⟨ha, hsum⟩ := one_sub_near ht
  obtain ⟨hf1, hu1, hl1⟩ := fmul_le_factor ha hx
  obtain ⟨hf2, hu2, hl2⟩ := fmul_le_factor ht hy
  exact fadd_within_one hf1 hf2 (by omega) (by omega)


/-- The saw of a phase is in [-1, 1] (40_oscillator.md R143). -/
theorem sawWave_range {p : Num32} (hp : phaseOk p = true) : inRange (sawWave p) minusOne one = true := by
  have hpf := phase_finite hp
  obtain ⟨h0, h1⟩ := phaseOk_iff.1 hp
  have h0v := (fle_iff.1 h0).2.2
  have h1v := (flt_iff.1 h1).2.2
  rw [zero_val] at h0v
  rw [one_val] at h1v
  have htwo : two.isFinite = true := by decide +kernel
  have htv : two.val = 2 ^ 150 := by decide +kernel
  have hlo : (0 : Int) ≤ (fmul two p).val := by
    have := le_fmul (b := zero) htwo hpf (by decide +kernel) (by rw [zero_val, htv]; omega)
    rwa [zero_val] at this
  have hhi : (fmul two p).val ≤ 2 ^ 150 := by
    have := fmul_le (b := two) htwo hpf (by decide +kernel) (by rw [htv]; omega)
    rwa [htv] at this
  have hn := fmul_not_nan htwo hpf
  have hf : (fmul two p).isFinite = true := isFinite_between (lo := zero) (hi := two)
    (fle_iff.2 ⟨by decide +kernel, hn, by rw [zero_val]; omega⟩) (fle_iff.2 ⟨hn, by decide +kernel, by rw [htv]; omega⟩)
    (by decide +kernel) htwo
  exact inRange_of_val (fsub_not_nan hf finite_consts.2.1) (by decide +kernel) (by decide +kernel)
    (le_fsub hf finite_consts.2.1 (by decide +kernel) (by rw [minusOne_val, one_val]; omega))
    (fsub_le hf finite_consts.2.1 (by decide +kernel) (by rw [one_val]; omega))

/-- The square is in [-1, 1] (40_oscillator.md R143). -/
theorem squareWave_range (p : Num32) : inRange (squareWave p) minusOne one = true := by
  unfold squareWave; split <;> decide +kernel

/-- The weight of OSC_WAVE, a value in [0, 0.5] divided by 0.5, is in [0, 1] (40_oscillator.md R143). -/
theorem fdiv_half_unit {x : Num32} (hf : x.isFinite = true) (h0 : 0 ≤ x.val) (h1 : x.val ≤ 2 ^ 148) :
    inRange (fdiv x half) zero one = true := by
  have hh : half.isFinite = true := by decide +kernel
  have hp : 0 < half.val := by decide +kernel
  exact inRange_of_val (fdiv_not_nan hf hh hp) (by decide +kernel) (by decide +kernel)
    (le_fdiv hf hh hp (by decide +kernel) (by rw [zero_val, half_val]; omega))
    (fdiv_le hf hh hp (by decide +kernel) (by rw [one_val, half_val]; omega))

/-- A sum whose exact value lies between two finite values lies between them. -/
theorem fadd_inRange {x y lo hi : Num32} (hx : x.isFinite = true) (hy : y.isFinite = true)
    (hlo : lo.isFinite = true) (hhi : hi.isFinite = true) (h1 : lo.val ≤ x.val + y.val) (h2 : x.val + y.val ≤ hi.val) :
    inRange (fadd x y) lo hi = true :=
  inRange_of_val (fadd_not_nan hx hy) (isNaN_of_isFinite hlo) (isNaN_of_isFinite hhi)
    (le_fadd hx hy (isNaN_of_isFinite hlo) h1) (fadd_le hx hy (isNaN_of_isFinite hhi) h2)

end Sys2Proof.Machine
end

