-- ==== Sys2Proof/Tests/Slice0.lean ====
section
/-! SUPPORT. The model's own tests: expected values are the spec's (95_test_vectors.md and the examples of the rules), written as
bit patterns; then, for every statement with hypotheses, a witness that meets them. -/

namespace Sys2Proof.Machine.Tests

set_option Elab.async false

/-- The next state of an outcome. -/
def nextOf : Host.Outcome State Fault Refusal → Option State
  | .next s => some s
  | .fault _ => none
  | .refused _ => none

/-- An envelope in SUSTAIN at level 1. -/
def flat : Envelope := { stage := .sustain, level := one, step := zero, target := one, cnt := 0#32 }

/-- The patch of 95_test_vectors.md 2.8: `FS` 65536, cutoff 16384, resonance 0.5, both shapes 1. -/
def patch : SnapshotBank :=
  { SnapshotBank.reset with oscAShape := one, oscBShape := one, filtCutoff := f32 0x46800000#32, filtRes := half }

/-- That patch sounding with `START_NOTE 0`, at the start of `RENDER_BLOCK 1, 0, 8`. -/
def ready : State :=
  { State.reset with
    fs := f32 0x47800000#32, snap := patch, aenv := flat, fenv := flat
    filt := { SvFilter.reset with res := half }, life := .sounding, busy := true
    blk := { n := 0#32, num := 8#16, start := 0#32, nch := 1#8 } }

/-- The same voice between two blocks. -/
def between : State := { ready with busy := false, blk := { n := 8#32, num := 8#16, start := 0#32, nch := 1#8 } }

/-! ## Well-formedness: an ill-formed term for each check -/

theorem test_wf_refuses_named_index : Instr.wf (.setParam 20#8 0#32) = false := by decide
theorem test_wf_refuses_assigned_opcode : Instr.wf (.reserved 5#8) = false := by decide
theorem test_wf_accepts_bounds : Instr.wf (.setParam 21#8 0#32) = true ∧ Instr.wf (.reserved 6#8) = true := by decide

/-! ## Decoding: words of 95_test_vectors.md V-CMD-1 to V-CMD-3 and of 30_encoding.md R113, R114 -/

theorem test_decode_cport :
    [0x0000000000000000#64, 0x00FFFFFFFFFFFFFF#64, 0x01000000472C4400#64, 0x0100000047800000#64, 0x0300000043DC0000#64,
      0x0401000000000000#64, 0x0400000000000000#64, 0x0502000800000000#64, 0x05FFFFFFFFFFFFFF#64, 0x0600000000000000#64,
      0xFFFFFFFFFFFFFFFF#64].map decode =
    [.nop, .nop, .prepare 0x472C4400#32, .prepare 0x47800000#32, .startNote 0x43DC0000#32,
      .stopNote true, .stopNote false, .renderBlock 2#8 8#16 0#32, .renderBlock 255#8 65535#16 0xFFFFFFFF#32, .reserved 6#8,
      .reserved 255#8] := by decide +kernel

theorem test_decode_setParam_low :
    [0x020000003F000000#64, 0x020100003F800000#64, 0x0202000041400000#64, 0x0203000041400000#64, 0x0204000000000003#64,
      0x0205000042C80000#64, 0x020600003F000000#64, 0x02070000447A0000#64, 0x020800003F000000#64, 0x02090000C69C4000#64,
      0x020A000046800000#64].map decode =
    [.setParamOscAShape 0x3F000000#32, .setParamOscBShape 0x3F800000#32, .setParamOscASemi 0x41400000#32,
      .setParamOscBSemi 0x41400000#32, .setParamUnisonMode 3#32, .setParamDetuneCents 0x42C80000#32,
      .setParamFoldDrive 0x3F000000#32, .setParamFiltCutoff 0x447A0000#32, .setParamFiltRes 0x3F000000#32,
      .setParamFiltEnvAmt 0xC69C4000#32, .setParamLfoRate 0x46800000#32] := by decide +kernel

theorem test_decode_setParam_high :
    [0x020B00003F000000#64, 0x020C000000000005#64, 0x020D000038800000#64, 0x020E000038000000#64, 0x020F00003F000000#64,
      0x021000003E99999A#64, 0x0211000038800000#64, 0x0212000038000000#64, 0x021300003F000000#64, 0x021400003E99999A#64,
      0x0215000012345678#64, 0x02FF00003F800000#64].map decode =
    [.setParamLfoDepth 0x3F000000#32, .setParamLfoDest 5#32, .setParamAenvAttack 0x38800000#32, .setParamAenvDecay 0x38000000#32,
      .setParamAenvSustain 0x3F000000#32, .setParamAenvRelease 0x3E99999A#32, .setParamFenvAttack 0x38800000#32,
      .setParamFenvDecay 0x38000000#32, .setParamFenvSustain 0x3F000000#32, .setParamFenvRelease 0x3E99999A#32,
      .setParam 21#8 0x12345678#32, .setParam 255#8 0x3F800000#32] := by decide +kernel

/-- The rows' encodings the other way (V-CMD-1). -/
theorem test_encode :
    encode (.prepare 0x473B8000#32) = 0x01000000473B8000#64 ∧ encode (.setParamFenvRelease 0x3E99999A#32) = 0x021400003E99999A#64 ∧
    encode (.renderBlock 2#8 6#16 8#32) = 0x0502000600000008#64 ∧ encode (.stopNote true) = 0x0401000000000000#64 := by
  decide +kernel

/-! ## Commands, one step each -/

/-- V-CMD-3: reserved and ignored encodings change nothing. -/
theorem test_reserved_words :
    nextOf (step (between.present 0x7F12345678ABCDEF#64)) = some between ∧
    nextOf (step (between.present 0x02FF00003F800000#64)) = some between ∧
    nextOf (step (between.present 0x00FFFFFFFFFFFFFF#64)) = some between := by decide +kernel

/-- V-CMD-5: the operand clamp of PREPARE (22050, 1e6, NaN, -inf). -/
theorem test_prepare_clamps :
    [0x46AC4400#32, 0x49742400#32, 0x7FC00000#32, 0xFF800000#32].map
      (fun r => (nextOf (exec (.prepare r) between)).map (fun t => (bits32 t.fs, t.life))) =
    [some (0x472C4400#32, .idle), some (0x493B8000#32, .idle), some (0x472C4400#32, .idle), some (0x472C4400#32, .idle)] := by
  decide +kernel

/-- R283: the word is stored raw and `S` stays. -/
theorem test_setParam_raw :
    nextOf (step (ready.present 0x020700007FC00000#64)) =
      some { ready with pend := { PendingBank.reset with filtCutoff := 0x7FC00000#32 } } := by decide +kernel

/-- V-CMD-4: what START_NOTE's snapshot makes of the raw words. -/
theorem test_snapshot_sanitises :
    let s := { State.reset with pend := { PendingBank.reset with
      oscAShape := 0x3FC00000#32, unisonMode := 2#32, filtRes := 0x42C80000#32, filtCutoff := 0x7FC00000#32
      oscASemi := 0xC2C80000#32, lfoDepth := 0xBF800000#32, aenvSustain := 0x40000000#32 } }
    (nextOf (exec (.startNote 0#32) s)).map (·.snap) = some { SnapshotBank.reset with
      oscAShape := one, unisonMode := 1#32, filtRes := f32 0x41800000#32, filtCutoff := f32 0x41A00000#32
      oscASemi := f32 0xC2400000#32, lfoDepth := zero, aenvSustain := one } := by decide +kernel

/-- V-CMD-5: the operand clamp of START_NOTE (-5, 25000, NaN); with the reset parameters both envelopes are in SUSTAIN at 1 at
once (44_envelope.md R208). -/
theorem test_startNote_clamps :
    [0xC0A00000#32, 0x46C35000#32, 0x7FC00000#32].map
      (fun f => (nextOf (exec (.startNote f) State.reset)).map (fun t => (bits32 t.baseF, t.aenv, t.fenv))) =
    [some (0#32, flat, flat), some (0x469C4000#32, flat, flat), some (0#32, flat, flat)] := by decide +kernel

/-- L1-8: at STOP_NOTE 1 with release 0.3 s at 44100 Hz, `cnt` = 13230, `step` = 1/13230, RELEASING; the filter envelope
(release 0) is IDLE at once. -/
theorem test_stopNote_tail :
    let s := { State.reset with
      pend := { PendingBank.reset with aenvRelease := 0x3E99999A#32 }, aenv := flat, fenv := flat, life := .sounding }
    (nextOf (exec (.stopNote true) s)).map (fun t => (t.aenv, t.fenv.stage, t.life)) =
      some ({ stage := .release, level := one, step := f32 0x389E83D0#32, target := zero, cnt := 13230#32 }, .idle, .releasing) := by
  decide +kernel

/-- V-CMD-6: KILL leaves everything but the envelopes and `LIFE`. -/
theorem test_stopNote_kill :
    nextOf (exec (.stopNote false) between) =
      some { between with aenv := Envelope.reset, fenv := Envelope.reset, life := .idle } := by decide +kernel

/-- V-CMD-7: RENDER_BLOCK on an idle voice changes nothing, a pending parameter stays in `P` only. -/
theorem test_renderBlock_idle :
    let s := { State.reset with pend := { PendingBank.reset with oscAShape := 0x3F800000#32 } }
    nextOf (exec (.renderBlock 2#8 8#16 0#32) s) = some s := by decide +kernel

/-- V-CMD-2: with start `0xFFFFFFFF` the second tick writes index 0. -/
theorem test_index_wraps :
    let s := { ready with blk := { n := 1#32, num := 65535#16, start := 0xFFFFFFFF#32, nch := 2#8 } }
    s.blockTick.out.map Prod.fst = [outAddr 0 0#32, outAddr 1 0#32] := by decide +kernel

/-- R83: a write overwrites, and writing 0 leaves the map of the words not written (R82). -/
theorem test_out_overwrites :
    let m := memWrite (memWrite [] 0 7#32 one) 1 7#32 half
    outRead m (outAddr 0 7#32) = 0x3F800000#32 ∧ outRead (memWrite m 0 7#32 half) (outAddr 0 7#32) = 0x3F000000#32 ∧
      outRead m (outAddr 2 7#32) = 0#32 ∧ memWrite m 0 7#32 zero = [(outAddr 1 7#32, 0x3F000000#32)] := by decide +kernel

/-! ## Ticks (95_test_vectors.md 2.8) -/

/-- P3, tick 0: `OUT[0][0]` = 0.25, the filter state (0.5, 0.5). -/
theorem test_tick_step_response :
    (outRead ready.blockTick.out (outAddr 0 0#32), bits32 ready.blockTick.filt.s1, bits32 ready.blockTick.filt.s2) =
      (0x3E800000#32, 0x3F000000#32, 0x3F000000#32) := by decide +kernel

/-- V-TICK-1, tick 0: LFO to pitch, `fA` = 16384, phase 0.25, `y` = -0.125. -/
theorem test_tick_pitch :
    let s := { ready with
      baseF := f32 0x46000000#32
      snap := { patch with
        oscAShape := half, oscBShape := half, lfoRate := f32 0x46800000#32, lfoDepth := one, lfoDest := 1#32 } }
    (bits32 s.blockTick.oscA.prim.freq, bits32 s.blockTick.oscA.prim.phase, outRead s.blockTick.out 0) =
      (0x46800000#32, 0x3E800000#32, 0xBE000000#32) := by decide +kernel

/-- V-TICK-5, tick 0: LFO to fold, the drive clamped to 1, `z` = 0, `y` = 0. -/
theorem test_tick_fold :
    let s := { ready with snap := { patch with
      foldDrive := half, lfoRate := f32 0x46800000#32, lfoDepth := one, lfoDest := 4#32 } }
    (bits32 s.tickDrive, bits32 s.tickFolded, bits32 s.tickSample) = (0x3F800000#32, 0#32, 0#32) := by decide +kernel

/-- V-TICK-6, tick 0: LFO to the export, `XMOD` = 0.5, the audio path unaffected. -/
theorem test_tick_xmod :
    let s := { ready with snap := { patch with lfoRate := f32 0x46800000#32, lfoDepth := half, lfoDest := 5#32 } }
    (bits32 s.blockTick.xmod, outRead s.blockTick.out 0) = (0x3F000000#32, 0x3E800000#32) := by decide +kernel

/-- P2, block 2, tick 3: the release completes, `LIFE` is IDLE, the block goes on. -/
theorem test_tick_release_ends :
    let s := { ready with
      aenv := { stage := .release, level := f32 0x3E000000#32, step := f32 0x3E000000#32, target := zero, cnt := 1#32 }
      life := .releasing }
    (s.blockTick.aenv, s.blockTick.life, s.blockTick.busy, outRead s.blockTick.out 0) =
      (Envelope.reset, .idle, true, 0#32) := by decide +kernel

/-! ## Components -/

/-- V-OSC-6: PHASE_ADV. -/
theorem test_phaseAdv :
    [(0x3F400000#32, 0x3E800000#32), (0x3F400000#32, 0x3F000000#32), (0x3F7FFFFF#32, 0x33800000#32),
      (0x3F7FFFFF#32, 0x33000000#32), (0x3F7FFFFF#32, 0x32800000#32)].map (fun x => bits32 (phaseAdv (f32 x.1) (f32 x.2))) =
    [0#32, 0x3E800000#32, 0#32, 0#32, 0x3F7FFFFF#32] := by decide +kernel

/-- V-OSC-2 and V-OSC-4 at phases .25, .5, .75, 0. -/
theorem test_oscWave :
    [0x3E800000#32, 0x3F000000#32, 0x3F400000#32, 0#32].map
      (fun p => (bits32 (oscWave (f32 p) quarter), bits32 (oscWave (f32 p) threeQuarters))) =
    [(0x3E800000#32, 0x3E800000#32), (0#32, 0xBF000000#32), (0xBE800000#32, 0xBE800000#32), (0xBF000000#32, 0#32)] := by
  decide +kernel

/-- R161, R162 by hand, at the ratio R9 gives exactly (`exp2(1200 / 1200) = 2`; 1200 is no legal detune): from 8192 Hz the copy U is
at 16384 and D at 4096; from 20000 Hz at 65536 U is clamped to 32768. -/
theorem test_unisonSetFreq :
    let sn := { SnapshotBank.reset with detuneCents := centsPerOctave }
    let k (f : Word) := Slot.setFreq (f32 0x47800000#32) sn Slot.reset (f32 f)
    (bits32 (k 0x46000000#32).prim.freq, bits32 (k 0x46000000#32).up.freq, bits32 (k 0x46000000#32).down.freq) =
      (0x46000000#32, 0x46800000#32, 0x45800000#32) ∧ bits32 (k 0x469C4000#32).up.freq = 0x47000000#32 := by decide +kernel

/-- V-UNI-4: the average of three equal samples can be off by one unit in the last place. -/
theorem test_unisonMean :
    bits32 (unisonMean (f32 0x3F2AAAAE#32) (f32 0x3F2AAAAE#32) (f32 0x3F2AAAAE#32)) = 0x3F2AAAAD#32 := by decide +kernel

/-- V-RTR-1: selectors 3, 0 and `0x80000001`. -/
theorem test_route :
    route 3#32 = { pitch := zero, cutoff := zero, amp := one, fold := zero, xmod := zero } ∧
    route 0#32 = { pitch := zero, cutoff := zero, amp := zero, fold := zero, xmod := zero } ∧
    route 0x80000001#32 = { pitch := zero, cutoff := zero, amp := zero, fold := zero, xmod := zero } := by decide +kernel

/-- V-ENV-7: STAGE_LEN of 0.01 s, 0.3 s at 44100, 60 s at 768000, 1e-5 s at 65536. -/
theorem test_stageLen :
    [(0x472C4400#32, 0x3C23D70A#32), (0x472C4400#32, 0x3E99999A#32), (0x493B8000#32, 0x42700000#32),
      (0x47800000#32, 0x3727C5AC#32)].map (fun x => (toU32 (stageLen (f32 x.1) (f32 x.2))).toNat) =
    [441, 13230, 46080000, 0] := by decide +kernel

/-- The parameters of V-ENV-1: attack 4 samples, decay 2, sustain 0.5, release 4 at 65536 Hz. -/
def adsr : EnvParams := { attack := f32 0x38800000#32, decay := f32 0x38000000#32, sustain := half, release := f32 0x38800000#32 }

/-- V-ENV-1: note-on from IDLE, the last call of the attack, of the decay, note-off, the last call of the release. -/
theorem test_envelope_cycle :
    let fs := f32 0x47800000#32
    Envelope.reset.noteOn fs adsr = { stage := .attack, level := zero, step := quarter, target := one, cnt := 4#32 } ∧
    Envelope.next fs adsr { stage := .attack, level := threeQuarters, step := quarter, target := one, cnt := 1#32 } =
      { stage := .decay, level := one, step := quarter, target := half, cnt := 2#32 } ∧
    Envelope.next fs adsr { stage := .decay, level := threeQuarters, step := quarter, target := half, cnt := 1#32 } =
      { stage := .sustain, level := half, step := zero, target := half, cnt := 0#32 } ∧
    Envelope.noteOff fs adsr { stage := .sustain, level := half, step := zero, target := half, cnt := 0#32 } =
      { stage := .release, level := half, step := f32 0x3E000000#32, target := zero, cnt := 4#32 } ∧
    Envelope.next fs adsr { stage := .release, level := f32 0x3E000000#32, step := f32 0x3E000000#32, target := zero, cnt := 1#32 } =
      Envelope.reset := by decide +kernel

/-- V-ENV-3: re-trigger during release attacks from the level reached, step 0.1875. -/
theorem test_envelope_retrigger :
    Envelope.noteOn (f32 0x47800000#32) adsr
      { stage := .release, level := quarter, step := quarter, target := zero, cnt := 1#32 } =
      { stage := .attack, level := quarter, step := f32 0x3E400000#32, target := one, cnt := 4#32 } := by decide +kernel

/-- V-FOLD-1 and V-FOLD-2. -/
theorem test_fold :
    [(0x3F000000#32, 0#32), (0x3F400000#32, 0x3F800000#32), (0x3F800000#32, 0x3F000000#32), (0x3F666666#32, 0x3E800000#32),
      (0x3FC00000#32, 0#32), (0xC0400000#32, 0#32), (0x3F19999A#32, 0x40000000#32), (0x7F800000#32, 0x3F800000#32)].map (fun x => bits32 (fold (f32 x.1) (f32 x.2))) =
    [0x3F000000#32, 0xBF800000#32, 0xBF000000#32, 0x3ED9999C#32, 0x3F000000#32, 0x3F800000#32, 0xBECCCCD0#32,
      0x3F800000#32] := by decide +kernel

/-- V-FILT-4: the setters' clamps. -/
theorem test_filter_setters :
    [0x40A00000#32, 0x46EA6000#32, 0x7FC00000#32, 0xFF800000#32].map (fun h => bits32 (SvFilter.reset.setCutoff (f32 h)).cutoff) =
      [0x41A00000#32, 0x469C4000#32, 0x41A00000#32, 0x41A00000#32] ∧
    [0x3DCCCCCD#32, 0x42C80000#32, 0x7FC00000#32].map (fun q => bits32 (SvFilter.reset.setRes (f32 q)).res) =
      [0x3F000000#32, 0x41800000#32, 0x3F000000#32] := by decide +kernel

/-- R235's example, the second call: output 0.75, state (0, 1). -/
theorem test_filter_process :
    SvFilter.process (f32 0x47800000#32) { s1 := half, s2 := half, cutoff := f32 0x46800000#32, res := half } one =
      ({ s1 := zero, s2 := one, cutoff := f32 0x46800000#32, res := half }, threeQuarters) := by decide +kernel

/-! ## Witnesses: the hypotheses of the statements can be met -/

/-- A block word oldest on a sequential host's port. -/
def queued : State := { between with waiting := [0x0501000200000000#64] }

/-- A legal state with the amplitude envelope in IDLE in the middle of a block. -/
def gone : State := { ready with aenv := Envelope.reset, life := .idle }

theorem witness_DecodeOfEncode :
    WellFormed (.setParam 21#8 0#32) ∧ WellFormed (.reserved 6#8) ∧ WellFormed (.renderBlock 255#8 65535#16 0xFFFFFFFF#32) := by
  decide
theorem witness_IgnoredFieldsIgnored :
    let w := 0x04FE000000000000#64
    let w' := 0x0400123456789ABC#64
    w &&& usedBits (opField w) = w' &&& usedBits (opField w) ∧ w ≠ w' := by decide +kernel
theorem witness_EveryWordIsACommand :
    ((64 ≤ 64 ∧ 2 ^ 64 - 1 < 2 ^ 64) ∧ ¬(65 ≤ 64 ∧ 0 < 2 ^ 64)) ∧ ¬((64 : Nat) ≤ 64 ∧ (2 : Nat) ^ 64 < 2 ^ 64) := by decide
theorem witness_StepRunsDecodedCommand :
    queued.nextMove = .accept 0x0501000200000000#64 [] ∧ WellFormed .nop ∧
    (queued.turns = [] ∧ queued.busy = false ∧ queued.waiting = 0x0501000200000000#64 :: []) ∧
    (64 ≤ 64 ∧ 2 ^ 64 - 1 < 2 ^ 64) ∧ State.nextMove { ready with turns := [.writer], waiting := [0#64] } = .idle := by
  decide +kernel
theorem witness_AcceptanceKeepsPortOrder :
    queued.nextMove = .accept 0x0501000200000000#64 [] ∧ portOf 0x0501000200000000#64 = .cport ∧
    State.nextMove { ready with turns := [.writer], waiting := [0#64, 0x0200000000000000#64] } =
      .accept 0x0200000000000000#64 [0#64] ∧
    (let s := { between with turns := [.sequencer], waiting := [0x0200000000000000#64, 0#64] }
     s.turns = agentOf (portOf 0#64) :: [] ∧ s.busy = false ∧ s.waiting = [0x0200000000000000#64] ++ 0#64 :: [] ∧
       [0x0200000000000000#64].all (fun x => decide (portOf x ≠ portOf 0#64)) = true) ∧
    (let s := { ready with turns := [.writer], waiting := [0#64] }
     s.turns = agentOf .pport :: [] ∧ s.waiting.all (fun x => decide (portOf x ≠ .pport)) = true) := by decide +kernel
/-- A SET_PARAM of index 20, and one of index 21, behind a NOP that `BUSY = 1` holds back. -/
theorem witness_SetParamAcceptedAtAnyTime :
    let s (w : Word64) : State := { ready with turns := [.writer], waiting := [0#64] ++ w :: [] }
    (s 0#64).turns = .writer :: [] ∧ (s 0#64).busy = true ∧ [0#64].all (fun x => decide (opField x ≠ 0x02#8)) = true ∧
    (opField 0x021400003E99999A#64 = 0x02#8 ∧ aField 0x021400003E99999A#64 = indexOfParam .fenvRelease) ∧
    (opField 0x0215000012345678#64 = 0x02#8 ∧ 20 < (aField 0x0215000012345678#64).toNat) := by decide +kernel
theorem witness_BusyStepIsOneTick :
    let s := { ready with turns := [.sequencer] }
    let spent := { ready with blk := { ready.blk with n := 8#32 } }
    (s.busy = true ∧ (s.turns = [] ∨ s.turns.head? = some .sequencer) ∧ s.blk.n.toNat < s.blk.num.toNat) ∧
    (ready.busy = true ∧ ready.turns = [] ∧ ready.blk.n.toNat < ready.blk.num.toNat) ∧
    (spent.busy = true ∧ spent.turns = [] ∧ spent.blk.num.toNat ≤ spent.blk.n.toNat) := by decide +kernel
theorem witness_WholeBlockBySteps :
    queued.turns = [] ∧ queued.busy = false ∧ queued.waiting = encode (.renderBlock 1#8 2#16 0#32) :: [] ∧
      queued.life ≠ .idle := by decide +kernel
theorem witness_BlocksSplitEvenly :
    between.life ≠ .idle ∧ (1#16).toNat + (1#16).toNat < 2 ^ 16 ∧
      (State.renderWhole 1#8 1#16 0xFFFFFFFF#32 between).life ≠ .idle := by decide +kernel
theorem witness_SetParamCommutesWithoutSnapshot :
    opcodeOf (.stopNote false) ≠ 0x02#8 ∧ snapshotPoint (.stopNote false) between = false ∧
      nextOf (exec (.stopNote false) between) =
        some { between with aenv := Envelope.reset, fenv := Envelope.reset, life := .idle } := by decide +kernel
theorem witness_NopChangesNothing : opField 0x00FFFFFFFFFFFFFF#64 = 0x00#8 := by decide +kernel
theorem witness_ReservedOpcodeIsNop :
    0x06 ≤ (opField 0x0600000000000000#64).toNat ∧ 0x06 ≤ (opField 0xFFFFFFFFFFFFFFFF#64).toNat := by decide +kernel
theorem witness_SetParamByIndex :
    (opField 0x021400003E99999A#64 = 0x02#8 ∧ aField 0x021400003E99999A#64 = indexOfParam .fenvRelease) ∧
    (opField 0x0215000012345678#64 = 0x02#8 ∧ 20 < (aField 0x0215000012345678#64).toNat) ∧
    20 < (21#8).toNat ∧ (20#8).toNat ≤ 20 := by decide +kernel
theorem witness_StopNoteResult : State.reset.life = .idle ∧ between.life ≠ .idle := by decide +kernel
theorem witness_RenderBlockStart : State.reset.life = .idle ∧ between.life ≠ .idle := by decide +kernel
theorem witness_SnapshotOnlyAtItsPoints :
    (nextOf (exec (.startNote 0#32) between)).isSome = true ∧ snapshotPoint (.startNote 0#32) between = true ∧
    (nextOf (exec .nop between)).isSome = true ∧ snapshotPoint .nop between = false ∧
    (nextOf (step { ready with turns := [.reset] })).isSome = true ∧ (nextOf (step ready)).isSome = true ∧
    (nextOf (step queued)).isSome = true := by decide +kernel
theorem witness_PortWriteRights :
    let s := { ready with turns := [.writer], waiting := [0x0200000000000001#64] }
    (s.nextMove = .accept 0x0200000000000001#64 [] ∧ (nextOf (step s)).isSome = true ∧ portOf 0x0200000000000001#64 = .pport) ∧
    (queued.nextMove = .accept 0x0501000200000000#64 [] ∧ (nextOf (step queued)).isSome = true ∧
      portOf 0x0501000200000000#64 = .cport) := by decide +kernel
theorem witness_SampleRateWriters :
    (nextOf (step (State.reset.present 0x0100000047800000#64))).any (fun t => decide (t.fs ≠ State.reset.fs)) = true := by
  decide +kernel
theorem witness_LfoPhaseAndXmodWriters :
    let s := { ready with snap := { patch with lfoRate := f32 0x46800000#32, lfoDepth := half, lfoDest := 5#32 } }
    (nextOf (step s)).any (fun t => decide (t.lfoPhase ≠ s.lfoPhase) && decide (t.xmod ≠ s.xmod)) = true := by decide +kernel
theorem witness_OutputWriters :
    (nextOf (exec .nop between)).isSome = true ∧ (nextOf (step ready)).any (fun t => decide (t.out ≠ ready.out)) = true := by
  decide +kernel
theorem witness_BusyRisesAndFalls :
    (queued.busy = false ∧ (nextOf (step queued)).any (·.busy) = true) ∧
    (let s := { ready with blk := { ready.blk with n := 7#32 } }
     s.busy = true ∧ (nextOf (step s)).any (fun t => !t.busy) = true) := by decide +kernel
theorem witness_IdleEndsOnlyByStartNote :
    State.reset.life = .idle ∧
    (nextOf (step (State.reset.present 0x0300000043DC0000#64))).any (fun t => decide (t.life ≠ .idle)) = true := by
  decide +kernel
theorem witness_TickOutputWords :
    ready.blk.n.toNat < ready.blk.num.toNat ∧ (0 < ready.blk.nch.toNat ∧ 0#32 = ready.blk.start + ready.blk.n) ∧
      ¬(1 < ready.blk.nch.toNat ∧ 0#32 = ready.blk.start + ready.blk.n) := by decide +kernel
theorem witness_OutIsATotalMap :
    Memory.wf (outWrite [] (outAddr 254 0xFFFFFFFF#32) one.bits) = true ∧ Memory.wf ready.out = true := by decide +kernel
theorem witness_TickValueBounds : ready.legal = true := by decide +kernel
theorem witness_IdleTicksWriteZeros :
    gone.legal = true ∧ gone.aenv.stage = .idle ∧ gone.tickFilter.2.isFinite = true := by decide +kernel
theorem witness_ResetPulse :
    let s := { ready with turns := [.reset, .writer] }
    s.turns = .reset :: [.writer] := by decide +kernel
theorem witness_StepKeepsLegal : ready.legal = true ∧ (nextOf (step ready)).isSome = true := by decide +kernel
theorem witness_LifeAgreesAndStatusOutputs : ready.lifeAgrees = true ∧ (nextOf (step ready)).isSome = true := by decide +kernel
theorem witness_OutStaysCanonical : Memory.wf ready.out = true ∧ (nextOf (step ready)).isSome = true := by decide +kernel
/-- The neighbours of a tie: 1 + 2^-24 lies midway between 1 and 1 + 2^-23. -/
theorem witness_RoundingIsNearestEven :
    let x := one
    let y := f32 0x33800000#32
    let z := f32 0x3F800001#32
    x.isFinite = true ∧ y.isFinite = true ∧ z.isFinite = true ∧ (fadd x y).isFinite = true ∧ (fsub x y).isFinite = true ∧
      (fmul x y).isFinite = true ∧ y.val ≠ 0 ∧ (fdiv x y).isFinite = true := by decide +kernel
theorem witness_ClampBehaviour :
    fle zero one = true ∧ inRange (f32 0x80000000#32) zero one = true ∧ flt (f32 0x80000001#32) zero = true ∧
      flt one (f32 0x3F800001#32) = true ∧ (f32 0x7FC00000#32).isNaN = true := by decide +kernel
theorem witness_FloorAndIntegerConversion :
    minusOne.isFinite = true ∧
    (let x := f32 0x4F7FFFFF#32
     x.isFinite = true ∧ 0 ≤ x.val ∧ x.val % 2 ^ 149 = 0 ∧ x.val < 2 ^ 32 * 2 ^ 149) := by decide +kernel
theorem witness_ConfigurationFunctions :
    phaseOk (f32 0x3F7FFFFF#32) = true ∧ inRange minusFive minusFive five = true ∧ inRange five minusFive five = true ∧
      (fle minusFive zero = true ∧ fle zero one = true ∧ fle one five = true) ∧
      inRange tanpiArgMin tanpiArgMin tanpiArgMax = true ∧ inRange tanpiArgMax tanpiArgMin tanpiArgMax = true ∧
      (fle tanpiArgMin quarter = true ∧ fle quarter quarter = true ∧ fle quarter tanpiArgMax = true) := by decide +kernel
theorem witness_PhasesStayInUnit :
    (inRange fsMin fsMin fsMax = true ∧ phaseOk (f32 0x3F7FFFFF#32) = true ∧ inRange (fmul fsMin half) zero (fmul fsMin half) = true) ∧
    (inRange fsMax fsMin fsMax = true ∧ Slot.reset.legal fsMax = true) ∧ ready.legal = true ∧
    (phaseOk threeQuarters = true ∧ inRange half zero half = true ∧ fge (fadd threeQuarters half) one = true) := by decide +kernel
theorem witness_WaveformRangeAndEndpoints :
    phaseOk zero = true ∧ phaseOk half = true ∧ phaseOk (f32 0x3F7FFFFF#32) = true ∧
      inRange zero zero one = true ∧ inRange one zero one = true := by decide +kernel
theorem witness_UnisonFrequenciesAndModes : inRange minusOne minusOne one = true ∧ inRange one minusOne one = true ∧
    patch.unisonMode ≠ 3#32 ∧ { patch with unisonMode := 3#32 }.unisonMode = 3#32 := by decide +kernel
theorem witness_ZeroDetuneCollapses :
    inRange fsMin fsMin fsMax = true ∧ inRange (fmul fsMin half) zero (fmul fsMin half) = true ∧
      feq patch.detuneCents zero = true ∧ Slot.reset.up.phase = Slot.reset.prim.phase ∧
      Slot.reset.down.phase = Slot.reset.prim.phase := by decide +kernel
theorem witness_LfoWithinDepth : ready.legal = true := by decide +kernel
theorem witness_RouterIsOneHot :
    (1 ≤ (1#32).toNat ∧ (1#32).toNat ≤ 5) ∧ (1 ≤ (5#32).toNat ∧ (5#32).toNat ≤ 5) ∧ ¬(1 ≤ (0#32).toNat ∧ (0#32).toNat ≤ 5) ∧
      ¬(1 ≤ (6#32).toNat ∧ (6#32).toNat ≤ 5) := by decide
/-- Times of one sample at 44100 Hz and of none, for an envelope that is idle and one that is not. -/
theorem witness_EnvelopeParametersAndEntries :
    let t := fdiv one fsMin
    fge (ffloor (fmul t fsMin)) one = true ∧ fge (ffloor (fmul zero fsMin)) one = false ∧ Envelope.reset.stage = .idle ∧
      flat.stage ≠ .idle := by decide +kernel
theorem witness_EnvelopeNextByStage :
    let e (st : Stage) (c : Word) : Envelope := { flat with stage := st, cnt := c }
    [Stage.attack, .decay, .release].all (fun st => decide ((e st 2#32).stage = st) && decide (2 ≤ (e st 2#32).cnt.toNat) &&
      decide ((e st 1#32).cnt = 1#32)) = true ∧ flat.stage = .sustain ∧ Envelope.reset.stage = .idle := by decide +kernel
theorem witness_RampLastsItsCount :
    let e (st : Stage) : Envelope := { flat with stage := st, cnt := 1#32 }
    [Stage.attack, .decay, .release].all (fun st => decide ((e st).cnt ≠ 0#32) && decide ((e st).stage = st) &&
      decide (0 < (e st).cnt.toNat)) = true := by decide +kernel
/-- A legal envelope in every stage; the attack's last call with a decay of two samples and with one of none. -/
theorem witness_EnvelopeIsMonotone :
    let fs := f32 0x47800000#32
    let at1 : Envelope := { stage := .attack, level := threeQuarters, step := quarter, target := one, cnt := 1#32 }
    let de : Envelope := { stage := .decay, level := threeQuarters, step := quarter, target := half, cnt := 1#32 }
    let re : Envelope := { stage := .release, level := half, step := quarter, target := zero, cnt := 2#32 }
    inRange fs fsMin fsMax = true ∧ adsr.legal = true ∧ { adsr with decay := zero }.legal = true ∧
    (at1.legal = true ∧ at1.stage = .attack ∧ (at1.next fs adsr).stage ≠ .sustain ∧
      (at1.next fs { adsr with decay := zero }).stage = .sustain) ∧
    (de.legal = true ∧ de.stage = .decay) ∧ (flat.legal = true ∧ flat.stage = .sustain) ∧ (re.legal = true ∧ re.stage = .release) := by
  decide +kernel
theorem witness_FoldCurveBoundsAndIdentity :
    inRange (f32 0x80000000#32) minusOne one = true ∧ inRange minusOne minusOne one = true ∧
      feq (f32 0x80000000#32) zero = true ∧ (f32 0x7FC00000#32).isNaN = true := by decide +kernel
theorem witness_FilterCoefficientBounds :
    (inRange fsMin fsMin fsMax = true ∧ SvFilter.legal { s1 := zero, s2 := zero, cutoff := cutoffMax, res := qMin } = true) ∧
    (inRange fsMax fsMin fsMax = true ∧ SvFilter.legal { s1 := zero, s2 := zero, cutoff := cutoffMin, res := qMax } = true) := by
  decide +kernel

end Sys2Proof.Machine.Tests
end

section
/-! ## Round to nearest, ties to even (00_scope.md R8) -/

namespace Sys2Proof.Machine

/-- The last bit of a packed value is the parity of its bits 30:0. -/
theorem packNum_lastBit {m : Nat} (neg : Bool) (hm : m ≤ infMag) (heven : m % 2 = 0) :
    (packNum neg m).bits.getLsbD 0 = false := by
  rw [BitVec.getLsbD, packNum_toNat neg (lt_of_le_infMag hm), Nat.testBit_zero, decide_eq_false_iff_not]
  cases neg <;> simp <;> omega

/-- A packed magnitude is finite exactly when it is below that of an infinity. -/
theorem packNum_isFinite {m : Nat} {neg : Bool} (hm : m ≤ infMag) : (packNum neg m).isFinite = true ↔ m < infMag := by
  rw [isFinite_iff (packNum_isNaN neg hm), packNum_mag neg hm, ← magOf_infMag, ← not_le, magOf_le_iff le_rfl hm, not_le]

/-- Distance to an exact value of the same sign. -/
theorem signed_dist_same (neg : Bool) (a n d : Nat) :
    (signed neg a * d - signed neg n).natAbs = ((a * d : Nat) - (n : Int)).natAbs := by
  cases neg
  · simp [signed]
  · simp only [signed, if_true, Nat.cast_mul, neg_mul]; omega

/-- Distance to an exact value of the other sign: the magnitudes add. -/
theorem signed_dist_opposite (neg : Bool) (a n d : Nat) :
    (signed (!neg) a * d - signed neg n).natAbs = a * d + n := by
  have hcast : ((a * d : Nat) : Int) = a * d := Nat.cast_mul a d
  cases neg <;> simp only [signed, Bool.not_true, Bool.not_false, if_true, Bool.false_eq_true, if_false, neg_mul] <;> omega

/-- A finite rounded value is a nearest one, ties to even, among the values of both signs: one of the sign of the exact value is
compared by `roundMag_nearest`, one of the other sign lies beyond zero and is compared through zero. -/
theorem packed_nearestEven {neg : Bool} {n d : Nat} {z : Num32} (hd : 0 < d) (hz : z.isNaN = false)
    (hf : (packNum neg (roundMag n d)).isFinite = true) :
    nearestEven (packNum neg (roundMag n d)) z (signed neg n) d := by
  have hle := roundMag_le_infMag n d
  have hlt := (packNum_isFinite hle).1 hf
  have hval : (packNum neg (roundMag n d)).val = signed neg (magOf (roundMag n d)) := packNum_val neg hle
  have hlast := packNum_lastBit neg hle
  unfold nearestEven
  rw [hval, signed_dist_same, ← signed_val z]
  by_cases hs : z.sign = neg
  · obtain ⟨hnear, htie⟩ := roundMag_nearest hd (lowBits_le_infMag hz) hlt
    rw [hs, signed_dist_same, mag_eq]
    exact ⟨hnear, fun he hne => hlast (htie he fun h => hne (by rw [h]))⟩
  · obtain ⟨hnear, htie⟩ := roundMag_nearest (j := 0) hd (Nat.zero_le _) hlt
    have hzero : ((magOf 0 * d : Nat) - (n : Int)).natAbs = n := by rw [magOf_zero]; simp
    rw [hzero] at hnear htie
    rw [Bool.eq_not.2 hs, signed_dist_opposite]
    refine ⟨by omega, fun he hne => hlast (htie (by omega) fun h => hne ?_)⟩
    have hmag : z.mag = 0 := (Nat.mul_eq_zero.1 (by omega : z.mag * d = 0)).resolve_right hd.ne'
    rw [hmag, ← h, magOf_zero]
    simp [signed]

/-- Numerator and denominator may change sign together. -/
theorem nearestEven_neg {r z : Num32} {num den : Int} : nearestEven r z (-num) (-den) ↔ nearestEven r z num den := by
  have hdist : ∀ v : Int, (v * -den - -num).natAbs = (v * den - num).natAbs := fun v => by
    rw [← Int.natAbs_neg]; congr 1; ring
  unfold nearestEven
  rw [hdist, hdist]

/-- The sign of a negative value (`sign_of_pos` has the positive one). -/
theorem sign_of_neg {x : Num32} (h : x.val < 0) : x.sign = true := by
  by_contra hs
  rw [Num32.val, if_neg hs] at h
  omega

theorem addSigned_nearestEven {op : Config.FloatOp} {flip : Bool} {x y z : Num32} (hx : x.isFinite = true)
    (hy : y.isFinite = true) (hz : z.isNaN = false) (hf : (addSigned op flip x y).isFinite = true) :
    nearestEven (addSigned op flip x y) z (x.val + if flip then -y.val else y.val) 1 := by
  rw [addSigned_finite hx hy] at hf ⊢
  generalize x.val + (if flip then -y.val else y.val) = v at hf ⊢
  simp only at hf ⊢
  by_cases hv : v = 0
  · rw [if_pos hv] at hf ⊢
    have hround : roundMag 0 1 = 0 := by decide
    have := packed_nearestEven (n := 0) (d := 1) Nat.one_pos hz (hround ▸ hf)
    rw [hround] at this
    simpa [signed, hv] using this
  · rw [if_neg hv] at hf ⊢
    have := packed_nearestEven Nat.one_pos hz hf
    rwa [signed_natAbs] at this

theorem fmul_nearestEven {x y z : Num32} (hx : x.isFinite = true) (hy : y.isFinite = true) (hz : z.isNaN = false)
    (hf : (fmul x y).isFinite = true) : nearestEven (fmul x y) z (x.val * y.val) (2 ^ 149) := by
  rw [fmul_finite hx hy] at hf ⊢
  have := packed_nearestEven (by positivity) hz hf
  rwa [signed_mul, Nat.cast_pow, Nat.cast_ofNat] at this

/-- The quotient of finite values, the divisor of either sign and not zero (`fdiv_finite` has it positive). -/
theorem fdiv_eq_packed {x y : Num32} (hx : x.isFinite = true) (hy : y.isFinite = true) (h0 : y.val ≠ 0) :
    fdiv x y = packNum (x.sign ^^ y.sign) (roundMag (x.mag * 2 ^ 149) y.mag) := by
  have hzero : y.isZero = false := beq_false_of_ne (mag_eq_zero_iff.not.2 h0)
  simp [fdiv, isNaN_of_isFinite hx, isNaN_of_isFinite hy, isInf_of_isFinite hx, isInf_of_isFinite hy, hzero]

theorem fdiv_nearestEven {x y z : Num32} (hx : x.isFinite = true) (hy : y.isFinite = true) (h0 : y.val ≠ 0)
    (hz : z.isNaN = false) (hf : (fdiv x y).isFinite = true) : nearestEven (fdiv x y) z (x.val * 2 ^ 149) y.val := by
  rw [fdiv_eq_packed hx hy h0] at hf ⊢
  have hpos : 0 < y.mag := Nat.pos_of_ne_zero (mag_eq_zero_iff.not.2 h0)
  have hnear := packed_nearestEven hpos hz hf
  rcases lt_or_gt_of_ne h0 with hneg | hpos
  · have hsign : y.sign = true := by
      by_contra hc
      simp [Num32.val, hc] at hneg
      omega
    rw [← nearestEven_neg]
    convert hnear using 1
    · rw [sign_of_neg hneg, ← signed_val x]
      cases x.sign <;> simp [signed]
    · rw [val_eq_neg_mag hneg, neg_neg]
  · rwa [signed_div hpos, ← val_eq_mag hpos.le] at hnear

/-- Settles O42: each operation on finite operands is one packed rounding of the exact result. -/
theorem roundingIsNearestEven : Obligations.RoundingIsNearestEven := by
  intro x y z hx hy hz
  have hz := isNaN_of_isFinite hz
  refine ⟨fun hf => ?_, fun hf => ?_, fun hf => ?_, fun h0 hf => ?_⟩
  · exact addSigned_nearestEven (flip := false) hx hy hz hf
  · exact addSigned_nearestEven (flip := true) hx hy hz hf
  · exact fmul_nearestEven hx hy hz hf
  · exact fdiv_nearestEven hx hy h0 hz hf

end Sys2Proof.Machine
end

section
/-! ## The clamp (00_scope.md R10) -/

namespace Sys2Proof.Machine

theorem fle_eq_false_of_flt {x y : Num32} (h : flt x y = true) : fle y x = false := by
  obtain ⟨hx, hy, -⟩ := flt_iff.1 h
  exact eq_false_of_ne_true fun hc => by simp [(flt_eq_false hx hy).2 hc] at h

/-- No magnitude is above that of an infinity. -/
theorem mag_le_inf {x : Num32} (hx : x.isNaN = false) : x.mag ≤ 2 ^ 277 := by
  rw [mag_eq, ← magOf_infMag, magOf_le_iff (lowBits_le_infMag hx) le_rfl]
  exact lowBits_le_infMag hx

theorem posInf_val : (f32 0x7F800000#32).val = 2 ^ 277 := by decide +kernel
theorem negInf_val : (f32 0xFF800000#32).val = -2 ^ 277 := by decide +kernel

/-- Every value that is no NaN is `+inf` or below it. -/
theorem eq_or_flt_posInf {x : Num32} (hx : x.isNaN = false) : x = f32 0x7F800000#32 ∨ flt x (f32 0x7F800000#32) = true := by
  have hmag := mag_le_inf hx
  rw [← natAbs_val] at hmag
  have hle : x.val ≤ (f32 0x7F800000#32).val := by rw [posInf_val]; omega
  rcases hle.lt_or_eq with hlt | heq
  · exact .inr (flt_iff.2 ⟨hx, by decide, hlt⟩)
  · exact .inl (eq_of_val hx (by decide) heq (by rw [heq]; decide +kernel))

/-- Every value that is no NaN is `-inf` or above it. -/
theorem eq_or_negInf_flt {x : Num32} (hx : x.isNaN = false) : x = f32 0xFF800000#32 ∨ flt (f32 0xFF800000#32) x = true := by
  have hmag := mag_le_inf hx
  rw [← natAbs_val] at hmag
  have hle : (f32 0xFF800000#32).val ≤ x.val := by rw [negInf_val]; omega
  rcases hle.lt_or_eq with hlt | heq
  · exact .inr (flt_iff.2 ⟨by decide, hx, hlt⟩)
  · exact .inl (eq_of_val hx (by decide) heq.symm (by rw [← heq]; decide +kernel))

theorem clampN_of_isNaN {v : Num32} (lo hi : Num32) (h : v.isNaN = true) : clampN v lo hi = lo := by
  simp [clampN, fge, fle, h]

theorem clampN_of_flt_lo {v lo : Num32} (hi : Num32) (h : flt v lo = true) : clampN v lo hi = lo := by
  simp [clampN, fge, fle_eq_false_of_flt h]

theorem clampN_of_flt_hi {v lo hi : Num32} (hb : fle lo hi = true) (h : flt hi v = true) : clampN v lo hi = hi := by
  obtain ⟨hhi, hv, hlt⟩ := flt_iff.1 h
  have hlo : fle lo v = true := fle_trans hb (fle_iff.2 ⟨hhi, hv, hlt.le⟩)
  simp [clampN, fge, hlo, fle_eq_false_of_flt h]

theorem clampN_lo {lo hi : Num32} (hb : fle lo hi = true) : clampN lo lo hi = lo :=
  clampN_of_inRange (inRange_iff.2 ⟨fle_refl (fle_iff.1 hb).1, hb⟩)

theorem clampN_hi {lo hi : Num32} (hb : fle lo hi = true) : clampN hi lo hi = hi :=
  clampN_of_inRange (inRange_iff.2 ⟨hb, fle_refl (fle_iff.1 hb).2.1⟩)

/-- Settles O43: an infinity is beyond the bound on its side or is that bound. -/
theorem clampBehaviour : Obligations.ClampBehaviour := by
  intro v lo hi hb
  obtain ⟨hlo, hhi, -⟩ := fle_iff.1 hb
  refine ⟨clampN_of_inRange, clampN_of_flt_lo hi, clampN_of_flt_hi hb, clampN_of_isNaN lo hi, ?_, ?_⟩
  · rintro rfl
    rcases eq_or_flt_posInf hhi with rfl | hlt
    · exact clampN_hi hb
    · exact clampN_of_flt_hi hb hlt
  · rintro rfl
    rcases eq_or_negInf_flt hlo with rfl | hlt
    · exact clampN_lo hb
    · exact clampN_of_flt_lo hi hlt

end Sys2Proof.Machine
end

section
/-! ## `floor` and `toU32` (00_scope.md R11) -/

namespace Sys2Proof.Machine

/-- The ceiling of a finite magnitude, in whole units of 1, is an encoded finite magnitude. -/
theorem exists_ceil {x : Num32} (hx : x.isFinite = true) :
    ∃ j, j < infMag ∧ magOf j = (x.mag + (2 ^ 149 - 1)) / 2 ^ 149 * 2 ^ 149 := by
  obtain ⟨k, q, hm, -, hq, -⟩ := magOf_split (lowBits x)
  have hle := lowBits_le_infMag (isNaN_of_isFinite hx)
  by_cases hk : 149 ≤ k
  · refine ⟨lowBits x, (packNum_isFinite (neg := x.sign) hle).1 (by rwa [packNum_lowBits]), ?_⟩
    have hwhole : x.mag = q * 2 ^ (k - 149) * 2 ^ 149 := by rw [mag_eq, hm, mul_assoc, ← pow_add, Nat.sub_add_cancel hk]
    rw [← mag_eq, hwhole]
    omega
  · have hq' : x.mag ≤ q * 2 ^ 149 := by
      rw [mag_eq, hm]
      exact Nat.mul_le_mul_left q (Nat.pow_le_pow_right (by decide) (by omega))
    obtain ⟨j, hj, hjm⟩ := exists_magOf (a := (x.mag + (2 ^ 149 - 1)) / 2 ^ 149) (k := 149) (by omega) (by decide) (by decide)
    refine ⟨j, lt_of_le_of_ne hj ?_, hjm⟩
    rintro rfl
    rw [magOf_infMag] at hjm
    omega

/-- `floor` of a finite negative value is exact: in magnitude it is the ceiling (`ffloor_val` has the other values). -/
theorem ffloor_of_neg {x : Num32} (hx : x.isFinite = true) (h : x.val < 0) :
    (ffloor x).isFinite = true ∧ (ffloor x).val = x.val / 2 ^ 149 * 2 ^ 149 := by
  have hzero : x.isZero = false := beq_false_of_ne (mag_eq_zero_iff.not.2 h.ne)
  obtain ⟨j, hj, hjm⟩ := exists_ceil hx
  have hceil : (x.val / 2 ^ 149 * 2 ^ 149).natAbs = magOf j := by rw [hjm, ← natAbs_val]; omega
  have hround : roundMag (magOf j) 1 = j := by simpa using roundMag_exact Nat.one_pos hj.le
  have heq : ffloor x = packNum true j := by
    rw [ffloor, isNaN_of_isFinite hx, if_neg (by decide), isInf_of_isFinite hx, hzero, Bool.or_false, if_neg (by decide),
      hceil, hround, sign_of_neg h]
  rw [heq, packNum_val true hj.le, if_pos rfl]
  exact ⟨(packNum_isFinite hj.le).2 hj, by omega⟩

/-- `floor` of a finite value that is not negative is finite, being no larger. -/
theorem ffloor_isFinite_of_nonneg {x : Num32} (hx : x.isFinite = true) (h : 0 ≤ x.val) : (ffloor x).isFinite = true := by
  obtain ⟨hnan, hval⟩ := ffloor_val hx h
  refine isFinite_of_le hnan hx ?_
  rw [← natAbs_val, ← natAbs_val, hval]
  omega

theorem inU32Domain_iff {x : Num32} : inU32Domain x = true ↔
    x.isFinite = true ∧ 0 ≤ x.val ∧ x.val % 2 ^ 149 = 0 ∧ x.val < 2 ^ 32 * 2 ^ 149 := by
  simp only [inU32Domain, Bool.and_eq_true, decide_eq_true_eq, and_assoc]

/-- `toU32` is exact on its domain (`toU32_stageLen` has the stage lengths). -/
theorem toU32_val {x : Num32} (h : inU32Domain x = true) : ((toU32 x).toNat : Int) * 2 ^ 149 = x.val := by
  obtain ⟨-, h0, hmod, hlt⟩ := inU32Domain_iff.1 h
  rw [toU32, if_pos h, BitVec.toNat_ofNat]
  rw [val_eq_mag h0] at hmod hlt ⊢
  omega

/-- Settles O44: `floor` by the sign of its operand, `toU32` on its whole domain. -/
theorem floorAndIntegerConversion : Obligations.FloorAndIntegerConversion := by
  refine ⟨fun x hx => ?_, fun x hx h0 hmod hlt => toU32_val (inU32Domain_iff.2 ⟨hx, h0, hmod, hlt⟩)⟩
  rcases lt_or_ge x.val 0 with hneg | hpos
  · exact ffloor_of_neg hx hneg
  · exact ⟨ffloor_isFinite_of_nonneg hx hpos, (ffloor_val hx hpos).2⟩

end Sys2Proof.Machine
end

section
/-! ## The step and the command it accepts (30_encoding.md R110 to R116, 48_commands.md R280) -/

namespace Sys2Proof.Machine

/-- The field `op` of a command's word is the command's opcode, for every constructor (`Laws.OpcodeField`). -/
theorem opField_encode (i : Instr) : opField (encode i) = opcodeOf i := by
  cases i <;> exact opField_commandWord _ _ _ _

theorem decode_setParamWord (a : BitVec 8) (b : BitVec 16) (c : Word) :
    decode (commandWord 0x02#8 a b c) = decodeSetParam a c := by
  simp [decode]

/-- The word of a SET_PARAM row with an index of its own decodes to that row (30_encoding.md R114). -/
theorem decode_setParamNamedWord (p : Param) (b : BitVec 16) (c : Word) :
    decode (commandWord 0x02#8 (indexOfParam p) b c) = setParamNamed p c := by
  rw [decode_setParamWord, decodeSetParam, paramOfIndex_indexOfParam]

theorem decode_reservedWord {op : BitVec 8} (h : 6 ≤ op.toNat) (a : BitVec 8) (b : BitVec 16) (c : Word) :
    decode (commandWord op a b c) = .reserved op := by
  simp only [decode, opField_commandWord]
  split
  case h_7 => rfl
  all_goals omega

/-- Decoding the word of a well-formed command gives the command back (30_encoding.md R113, R114). -/
theorem decode_encode {i : Instr} (h : WellFormed i) : decode (encode i) = i := by
  cases i with
  | nop | prepare _ | startNote _ | renderBlock _ _ _ => simp [decode, encode]
  | stopNote allowTailOff => cases allowTailOff <;> simp [decode, encode]
  | reserved op => exact decode_reservedWord (by simpa [WellFormed, Instr.wf] using h) _ _ _
  | setParam idx value =>
    have hidx : 21 ≤ idx.toNat := by simpa [WellFormed, Instr.wf] using h
    rw [encode, decode_setParamWord, decodeSetParam, paramOfIndex_eq_none hidx]
  | setParamOscAShape value => exact decode_setParamNamedWord .oscAShape _ value
  | setParamOscBShape value => exact decode_setParamNamedWord .oscBShape _ value
  | setParamOscASemi value => exact decode_setParamNamedWord .oscASemi _ value
  | setParamOscBSemi value => exact decode_setParamNamedWord .oscBSemi _ value
  | setParamUnisonMode value => exact decode_setParamNamedWord .unisonMode _ value
  | setParamDetuneCents value => exact decode_setParamNamedWord .detuneCents _ value
  | setParamFoldDrive value => exact decode_setParamNamedWord .foldDrive _ value
  | setParamFiltCutoff value => exact decode_setParamNamedWord .filtCutoff _ value
  | setParamFiltRes value => exact decode_setParamNamedWord .filtRes _ value
  | setParamFiltEnvAmt value => exact decode_setParamNamedWord .filtEnvAmt _ value
  | setParamLfoRate value => exact decode_setParamNamedWord .lfoRate _ value
  | setParamLfoDepth value => exact decode_setParamNamedWord .lfoDepth _ value
  | setParamLfoDest value => exact decode_setParamNamedWord .lfoDest _ value
  | setParamAenvAttack value => exact decode_setParamNamedWord .aenvAttack _ value
  | setParamAenvDecay value => exact decode_setParamNamedWord .aenvDecay _ value
  | setParamAenvSustain value => exact decode_setParamNamedWord .aenvSustain _ value
  | setParamAenvRelease value => exact decode_setParamNamedWord .aenvRelease _ value
  | setParamFenvAttack value => exact decode_setParamNamedWord .fenvAttack _ value
  | setParamFenvDecay value => exact decode_setParamNamedWord .fenvDecay _ value
  | setParamFenvSustain value => exact decode_setParamNamedWord .fenvSustain _ value
  | setParamFenvRelease value => exact decode_setParamNamedWord .fenvRelease _ value

/-- A step that accepts a word runs its command. -/
theorem step_of_accept {s : State} {w : Word64} {rest : List Word64} (h : s.nextMove = .accept w rest) :
    step s = exec (decode w) { s with turns := s.turns.tail, waiting := rest } := by
  rw [step, h]
  rfl

/-- A step with nothing to do only ends the turn. -/
theorem step_of_idle {s : State} (h : s.nextMove = .idle) : step s = .next { s with turns := s.turns.tail } := by
  rw [step, h]
  rfl

theorem acceptFrom_head {p : Port} {w : Word64} (h : portOf w = p) (ws : List Word64) :
    acceptFrom p (w :: ws) = .accept w ws := by
  simp [acceptFrom, takeWord, h]

theorem portOf_eq_pport_iff {w : Word64} : portOf w = .pport ↔ opField w = 0x02#8 := by
  unfold portOf
  split <;> simp [*]

/-- The word presented is the one accepted next, whichever port it stands on. -/
theorem nextMove_present (s : State) (w : Word64) : (s.present w).nextMove = .accept w s.waiting := by
  cases hp : portOf w <;> simp [State.nextMove, hp, agentOf, acceptFrom_head]

theorem step_present (s : State) (w : Word64) :
    step (s.present w) = exec (decode w) { s with busy := s.busy && decide (opField w = 0x02#8) } := by
  rw [step_of_accept (nextMove_present s w)]
  simp only [State.present, List.tail_cons, portOf_eq_pport_iff]

/-- With no turn laid down and no block in progress the oldest word presented is accepted (log entry 5). -/
theorem nextMove_sequential {s : State} {w : Word64} {rest : List Word64} (ht : s.turns = []) (hb : s.busy = false)
    (hw : s.waiting = w :: rest) : s.nextMove = .accept w rest := by
  simp [State.nextMove, ht, hb, hw]

theorem withFetchWord_eq_present (s : State) {nbits w : Nat} (hn : nbits ≤ 64) (hw : w < 2 ^ 64) :
    s.withFetchWord nbits w = s.present (BitVec.ofNat 64 w) := by
  rw [State.withFetchWord, decodeImage, if_pos ⟨hn, hw⟩]

/-- Settles O6: each way of acceptance is a next move, and a step answers its move. -/
theorem stepRunsDecodedCommand : Obligations.StepRunsDecodedCommand := by
  refine ⟨fun s w rest h => step_of_accept h, fun i s hi => ?_, fun s w rest ht hb hw => ?_, fun s nbits w hn hw => ?_,
    fun s h => step_of_idle h⟩
  · rw [step_present, decode_encode hi, opField_encode]
  · rw [step_of_accept (nextMove_sequential ht hb hw), ht, List.tail_nil, ← ht]
  · rw [withFetchWord_eq_present s hn hw, step_present]

end Sys2Proof.Machine
end

section
/-! ## The configuration functions (00_scope.md R9) -/

namespace Sys2Proof.Machine

/-- Settles O45: `sin2pi`, `exp2` and `tanpi` are the configuration functions, which have R9's properties. -/
theorem configurationFunctions : Obligations.ConfigurationFunctions := by
  unfold Obligations.ConfigurationFunctions
  simp only [sin2pi_eq, exp2_eq, tanpi_eq, phaseOk_iff, inRange_iff, and_imp]
  exact ⟨Config.functions.sin2pi_zero, Config.functions.sin2pi_quarter, Config.functions.sin2pi_half,
    Config.functions.sin2pi_threeQuarters, Config.functions.exp2_zero, Config.functions.exp2_one,
    Config.functions.exp2_minusOne, Config.functions.tanpi_quarter, Config.functions.sin2pi_range,
    Config.functions.exp2_range, Config.functions.exp2_mono, Config.functions.tanpi_range, Config.functions.tanpi_mono⟩

end Sys2Proof.Machine
end

section
/-! ## What a command and a tick do, said once (48_commands.md R280 to R289) -/

namespace Sys2Proof.Machine

/-- The opcode of the command a word stands for is the word's field `op` (30_encoding.md R113, R115). -/
theorem opcodeOf_decode (w : Word64) : opcodeOf (decode w) = opField w := by
  unfold decode
  split
  case h_3 hop =>
    rw [BitVec.eq_of_toNat_eq (y := 0x02#8) hop, decodeSetParam]
    split
    case h_1 p _ => cases p <;> rfl
    case h_2 => rfl
  case h_7 => rfl
  all_goals exact (BitVec.eq_of_toNat_eq (by assumption)).symm

/-- The state after START_NOTE (48_commands.md R285). -/
def State.noteStarted (s : State) (freq : Word) : State :=
  { s with
    snap := s.pend.sanitise
    baseF := clampN (f32 freq) zero basefMax
    oscA := s.oscA.resetPhases
    oscB := s.oscB.resetPhases
    filt := s.filt.resetIntegrators
    aenv := s.aenv.noteOn s.fs s.pend.sanitise.ampEnv
    fenv := s.fenv.noteOn s.fs s.pend.sanitise.filtEnv
    life := .sounding }

theorem exec_startNote (freq : Word) (s : State) : exec (.startNote freq) s = .next (s.noteStarted freq) := rfl

/-- Everything a command can do to the state: nothing, one write of `P`, or the effect of its row past the idle guard. -/
inductive ExecEffect (s : State) : Instr → State → Prop
  /-- NOP, a reserved opcode, an index that names no register, the idle guards. -/
  | unchanged {i : Instr} (noSnapshot : snapshotPoint i s = false) : ExecEffect s i s
  | writeParam {i : Instr} (isSetParam : opcodeOf i = 0x02#8) (p : Param) (c : Word) : ExecEffect s i (s.writeParam p c)
  | prepare (rate : Word) : ExecEffect s (.prepare rate) { s.clearDatapath with fs := clampN (f32 rate) fsMin fsMax }
  | startNote (freq : Word) : ExecEffect s (.startNote freq) (s.noteStarted freq)
  | stopWithTail (notIdle : s.life ≠ .idle) : ExecEffect s (.stopNote true) s.stopWithTail
  | stopAtOnce (notIdle : s.life ≠ .idle) : ExecEffect s (.stopNote false) s.stopAtOnce
  | beginBlock (notIdle : s.life ≠ .idle) (nch : BitVec 8) (num : BitVec 16) (start : Word) :
      ExecEffect s (.renderBlock nch num start) (s.beginBlock nch num start)

theorem exec_effect {i : Instr} {s t : State} (h : exec i s = .next t) : ExecEffect s i t := by
  cases i
  case nop | reserved => cases h; exact .unchanged rfl
  case prepare rate => cases h; exact .prepare rate
  case startNote freq => cases h; exact .startNote freq
  case setParam idx value =>
    simp only [exec, execSetParam] at h
    split at h <;> cases h
    · exact .writeParam rfl _ value
    · exact .unchanged rfl
  case stopNote tail =>
    simp only [exec, execStopNote] at h
    split at h
    case isTrue hidle => cases h; exact .unchanged (by simp [snapshotPoint, hidle])
    case isFalse hidle =>
      cases tail
      case false => cases h; exact .stopAtOnce hidle
      case true => cases h; exact .stopWithTail hidle
  case renderBlock nch num start =>
    simp only [exec, execRenderBlock] at h
    split at h <;> cases h
    case isTrue hidle => exact .unchanged (by simp [snapshotPoint, hidle])
    case isFalse hidle => exact .beginBlock hidle nch num start
  -- the 21 rows of SET_PARAM
  all_goals cases h; exact .writeParam rfl _ _

/-- A turn of the block's loop with a tick left (47_voice_renderer.md R263). -/
theorem State.blockTick_of_lt {s : State} (h : s.blk.n.toNat < s.blk.num.toNat) :
    s.blockTick = { s.voiceTick s.blk.n with
      blk := { s.blk with n := s.blk.n + 1#32 }
      busy := decide ((s.blk.n + 1#32).toNat < s.blk.num.toNat) } :=
  if_pos h

/-- A turn of the block's loop with no tick left only ends the block (log entry 12). -/
theorem State.blockTick_of_not_lt {s : State} (h : ¬ s.blk.n.toNat < s.blk.num.toNat) :
    s.blockTick = { s with busy := false } :=
  if_neg h

@[simp] theorem State.blockTick_fs (s : State) : s.blockTick.fs = s.fs := by
  by_cases h : s.blk.n.toNat < s.blk.num.toNat
  · rw [State.blockTick_of_lt h]; rfl
  · rw [State.blockTick_of_not_lt h]

/-- Of the commands, only PREPARE writes `FS`, the LFO phase and `XMOD` (10_state.md R31, R46; 42_lfo.md R173). -/
theorem ExecEffect.keeps_fs_lfoPhase_xmod {i : Instr} {s t : State} (h : ExecEffect s i t) :
    (t.fs = s.fs ∧ t.lfoPhase = s.lfoPhase ∧ t.xmod = s.xmod) ∨ opcodeOf i = 0x01#8 := by
  cases h
  case prepare => exact .inr rfl
  all_goals exact .inl ⟨rfl, rfl, rfl⟩

/-- Which steps can write `FS`, the LFO phase and `XMOD`: a reset pulse, a tick, which keeps `FS`, and an accepted PREPARE. -/
theorem step_writes_fs_lfoPhase_xmod {s t : State} (h : step s = .next t) :
    s.nextMove = .reset ∨ (s.nextMove = .tick ∧ t.fs = s.fs) ∨
    (∃ w rest, s.nextMove = .accept w rest ∧ opField w = 0x01#8) ∨
    (t.fs = s.fs ∧ t.lfoPhase = s.lfoPhase ∧ t.xmod = s.xmod) := by
  obtain ⟨hm, -⟩ | ⟨hm, rfl⟩ | ⟨w, rest, hm, he⟩ | ⟨-, rfl⟩ := step_cases h
  · exact .inl hm
  · exact .inr (.inl ⟨hm, by simp⟩)
  · rcases (exec_effect he).keeps_fs_lfoPhase_xmod with hkeep | hop
    · exact .inr (.inr (.inr hkeep))
    · exact .inr (.inr (.inl ⟨w, rest, hm, opcodeOf_decode w ▸ hop⟩))
  · exact .inr (.inr (.inr ⟨rfl, rfl, rfl⟩))

/-- Settles O26: a reset pulse and an accepted PREPARE are the only steps after which `FS` can differ. -/
theorem sampleRateWriters : Obligations.SampleRateWriters := by
  intro s t h hne
  rcases step_writes_fs_lfoPhase_xmod h with hr | ⟨-, hfs⟩ | hp | ⟨hfs, -⟩
  · exact .inl hr
  · exact absurd hfs hne
  · exact .inr hp
  · exact absurd hfs hne

/-- Settles O27: a step that is no reset, tick or PREPARE keeps both registers. -/
theorem lfoPhaseAndXmodWriters : Obligations.LfoPhaseAndXmodWriters := by
  intro s t h hne
  rcases step_writes_fs_lfoPhase_xmod h with hr | ⟨ht, -⟩ | hp | ⟨-, hlfo, hxmod⟩
  · exact .inl hr
  · exact .inr (.inl ht)
  · exact .inr (.inr hp)
  · exact (hne.elim (· hlfo) (· hxmod)).elim

end Sys2Proof.Machine
end

section
/-! ## The legal states, reset and the snapshot (10_state.md R31 to R75, 48_commands.md R284) -/

namespace Sys2Proof.Machine

/-- `State.legal` with its parts by name, so that an update proves the parts it changes and keeps the rest. -/
structure State.Legal (s : State) : Prop where
  fs : inRange s.fs fsMin fsMax = true
  baseF : inRange s.baseF zero basefMax = true
  oscA : s.oscA.legal s.fs = true
  oscB : s.oscB.legal s.fs = true
  lfoPhase : phaseOk s.lfoPhase = true
  aenv : s.aenv.legal = true
  fenv : s.fenv.legal = true
  filt : s.filt.legal = true
  xmod : inRange s.xmod minusOne one = true
  life : s.lifeAgrees = true
  block : s.blockOk = true
  snap : s.snap.legal = true
  out : Memory.wf s.out = true

theorem State.legal_iff {s : State} : s.legal = true ↔ s.Legal := by
  simp only [State.legal, Bool.and_eq_true, and_assoc]
  exact ⟨fun ⟨h1, h2, h3, h4, h5, h6, h7, h8, h9, h10, h11, h12, h13⟩ =>
    ⟨h1, h2, h3, h4, h5, h6, h7, h8, h9, h10, h11, h12, h13⟩,
    fun h => ⟨h.fs, h.baseF, h.oscA, h.oscB, h.lfoPhase, h.aenv, h.fenv, h.filt, h.xmod, h.life, h.block, h.snap, h.out⟩⟩

theorem State.lifeAgrees_iff {s : State} : s.lifeAgrees = true ↔ (s.life = .idle ↔ s.aenv.stage = .idle) := by
  simp [State.lifeAgrees]

theorem State.blockOk_iff {s : State} : s.blockOk = true ↔ (s.busy = true → s.blk.n.toNat < s.blk.num.toNat) := by
  cases h : s.busy <;> simp [State.blockOk, h]

/-! ### Reset -/

/-- Settles O36: `State.reset` is written with R75's values. -/
theorem resetValues : Obligations.ResetValues := by
  unfold Obligations.ResetValues
  exact ⟨rfl, rfl, rfl, rfl, rfl, rfl, rfl, rfl, rfl, rfl, rfl, rfl, rfl, rfl⟩

/-- Settles O37: every part of `State.legal` evaluates on the reset values. -/
theorem resetIsLegal : Obligations.ResetIsLegal := by
  unfold Obligations.ResetIsLegal
  decide +kernel

/-- A reset pulse makes any state legal whose `OUT` is in canonical form. -/
theorem State.resetPulse_legal {s : State} (hout : Memory.wf s.out = true) : s.resetPulse.Legal :=
  { State.legal_iff.1 resetIsLegal with out := hout }

/-! ### The snapshot (48_commands.md R284) -/

theorem sanitiseUnison_legal (w : Word) : sanitiseUnison w = 1#32 ∨ sanitiseUnison w = 3#32 := by
  unfold sanitiseUnison
  split
  · exact .inr rfl
  · exact .inl rfl

/-- The bounds of the Sanitise clauses are in order (10_state.md R52 to R72). -/
theorem sanitise_bounds_ordered :
    fle zero one = true ∧ fle semiMin semiMax = true ∧ fle zero detuneMax = true ∧ fle cutoffMin cutoffMax = true ∧
      fle qMin qMax = true ∧ fle envAmtMin envAmtMax = true ∧ fle zero lfoRateMax = true ∧ fle zero tMax = true := by
  decide +kernel

/-- Every register of a sanitised bank is legal, whatever words `P` holds: each clause clamps to its range. -/
theorem PendingBank.sanitise_legal (p : PendingBank) : p.sanitise.legal = true := by
  obtain ⟨hunit, hsemi, hdetune, hcutoff, hq, henvAmt, hrate, htime⟩ := sanitise_bounds_ordered
  simp [SnapshotBank.legal, SnapshotBank.ampEnv, SnapshotBank.filtEnv, EnvParams.legal, PendingBank.sanitise,
    clampN_inRange, sanitiseUnison_legal, hunit, hsemi, hdetune, hcutoff, hq, henvAmt, hrate, htime]

/-- Settles O20: the clauses are `PendingBank.sanitise`, which depends on `P` alone and gives legal registers. -/
theorem snapshotSanitises : Obligations.SnapshotSanitises :=
  ⟨fun _ => rfl, fun s => s.pend.sanitise_legal, fun _ => rfl, by decide +kernel⟩

end Sys2Proof.Machine
end

section
/-! ## `LIFE` and the amplitude envelope (10_state.md R45) -/

namespace Sys2Proof.Machine

theorem ExecEffect.keeps_lifeAgrees {i : Instr} {s t : State} (h : ExecEffect s i t) (hs : s.lifeAgrees = true) :
    t.lifeAgrees = true := by
  cases h
  case prepare | stopAtOnce => exact State.lifeAgrees_iff.2 ⟨fun _ => rfl, fun _ => rfl⟩
  case startNote => exact State.lifeAgrees_iff.2 ⟨nofun, fun hst => absurd hst (Envelope.noteOn_not_idle _ _ _)⟩
  case stopWithTail => rw [State.lifeAgrees_iff, State.stopWithTail_life, State.stopWithTail_aenv]; simp
  all_goals exact hs

/-- A tick takes `LIFE` to IDLE with the envelope, and an envelope in IDLE stays there (47_voice_renderer.md R261). -/
theorem State.voiceTick_lifeAgrees {s : State} (n : Word) (hs : s.lifeAgrees = true) : (s.voiceTick n).lifeAgrees = true := by
  rw [State.lifeAgrees_iff] at hs ⊢
  rw [State.voiceTick_life, State.voiceTick_aenv, State.tickLife]
  split
  case isTrue hst => simp [hst]
  case isFalse hst =>
    refine iff_of_false (fun hlife => hst ?_) hst
    rw [State.tickAenv, Envelope.next_of_idle (hs.1 hlife)]
    exact hs.1 hlife

theorem State.blockTick_lifeAgrees {s : State} (hs : s.lifeAgrees = true) : s.blockTick.lifeAgrees = true := by
  by_cases h : s.blk.n.toNat < s.blk.num.toNat
  · rw [State.blockTick_of_lt h]; exact State.voiceTick_lifeAgrees s.blk.n hs
  · rw [State.blockTick_of_not_lt h]; exact hs

theorem step_keeps_lifeAgrees {s t : State} (hs : s.lifeAgrees = true) (h : step s = .next t) : t.lifeAgrees = true := by
  obtain ⟨-, rfl⟩ | ⟨-, rfl⟩ | ⟨w, rest, -, he⟩ | ⟨-, rfl⟩ := step_cases h
  · rfl
  · exact State.blockTick_lifeAgrees hs
  · exact (exec_effect he).keeps_lifeAgrees hs
  · exact hs

/-- Settles O39: the step lemma, and the status outputs by their definitions. -/
theorem lifeAgreesAndStatusOutputs : Obligations.LifeAgreesAndStatusOutputs := by
  refine ⟨fun s t hs h => step_keeps_lifeAgrees hs h, fun s hs => ?_, fun s => rfl, ⟨rfl, rfl, rfl⟩, rfl, rfl, rfl, rfl, rfl⟩
  simp [State.status, State.active, Envelope.isActive, State.lifeAgrees_iff.1 hs]

end Sys2Proof.Machine
end

section
/-! ## Phases (10_state.md R35) -/

namespace Sys2Proof.Machine

theorem Osc.advance_phaseOk {fs : Num32} {o : Osc} (hfs : inRange fs fsMin fsMax = true) (hp : phaseOk o.phase = true)
    (hf : inRange o.freq zero (fmul fs half) = true) : phaseOk (o.advance fs).phase = true :=
  phaseAdv_ok hp (increment_ok hfs hf)

theorem UnisonCopy.advance_phaseOk {fs : Num32} {c : UnisonCopy} (hfs : inRange fs fsMin fsMax = true)
    (hp : phaseOk c.phase = true) (hf : inRange c.freq zero (fmul fs half) = true) : phaseOk (c.advance fs).phase = true :=
  phaseAdv_ok hp (increment_ok hfs hf)

theorem State.lfoAdvance_phaseOk {s : State} (hs : s.Legal) : phaseOk s.lfoAdvance.lfoPhase = true :=
  phaseAdv_ok hs.lfoPhase (lfo_increment_ok hs.fs (SnapshotBank.legal_lfo hs.snap).1)

/-- A difference that is a binary32 value is computed exactly. -/
theorem fsub_exact {x y b : Num32} (hx : x.isFinite = true) (hy : y.isFinite = true) (hb : b.isNaN = false)
    (h : x.val - y.val = b.val) : (fsub x y).val = b.val :=
  le_antisymm (fsub_le hx hy hb h.le) (le_fsub hx hy hb h.ge)

/-- In [1, 2] the excess over 1 is a binary32 value: the spacing there is 2^-23, and the excess at most 2^23 of it. -/
theorem exists_excess_over_one {q : Num32} (h1 : one.val ≤ q.val) (h2 : q.val ≤ two.val) :
    ∃ b : Num32, b.isNaN = false ∧ q.val - one.val = b.val := by
  have hmag : q.val = q.mag := val_eq_mag (by rw [one_val] at h1; omega)
  rw [show two.val = 2 ^ 150 by decide +kernel] at h2
  rw [one_val] at h1 ⊢
  obtain ⟨k, m, hm, -, hlt, -⟩ := magOf_split (lowBits q)
  rw [← mag_eq] at hm
  have hk : 126 ≤ k := by
    by_contra hc
    have : m * 2 ^ k < 2 ^ 24 * 2 ^ 125 :=
      Nat.mul_lt_mul_of_lt_of_le hlt (Nat.pow_le_pow_right (by decide) (by omega)) (by positivity)
    omega
  obtain ⟨c, hc⟩ : ∃ c, q.mag = c * 2 ^ 126 :=
    ⟨m * 2 ^ (k - 126), by rw [hm, mul_assoc, ← pow_add, Nat.sub_add_cancel hk]⟩
  obtain ⟨j, hj, hjv⟩ := exists_magOf (a := c - 2 ^ 23) (k := 126) (by omega) (by decide) (by decide)
  refine ⟨packNum false j, packNum_isNaN _ hj, ?_⟩
  rw [packNum_val _ hj, if_neg (by decide), hjv]
  omega

/-- The one subtraction of PHASE_ADV is exact (40_oscillator.md R149). -/
theorem phaseAdv_wrap_exact {p inc : Num32} (hp : phaseOk p = true) (hi : inRange inc zero half = true)
    (h : fge (fadd p inc) one = true) : (phaseAdv p inc).val = (fadd p inc).val - 2 ^ 149 := by
  have hpf := phase_finite hp
  have hif := inRange_finite hi (by decide +kernel) (by decide +kernel)
  have hqn := fadd_not_nan hpf hif
  have hp1 := (flt_iff.1 (phaseOk_iff.1 hp).2).2.2
  have hi1 := (inRange_val hi).2
  have htwo : two.val = 2 ^ 150 := by decide +kernel
  have hle : (fadd p inc).val ≤ two.val :=
    fadd_le hpf hif (by decide +kernel) (by rw [one_val] at hp1; rw [half_val] at hi1; omega)
  have hqf : (fadd p inc).isFinite = true :=
    isFinite_between h (fle_iff.2 ⟨hqn, by decide +kernel, hle⟩) (by decide +kernel) (by decide +kernel)
  obtain ⟨b, hb, hexcess⟩ := exists_excess_over_one (fle_iff.1 h).2.2 hle
  rw [phaseAdv, if_pos h, fsub_exact hqf (by decide +kernel) hb hexcess, ← hexcess, one_val]

/-- Settles O46: every phase advance is PHASE_ADV by an increment in [0, 0.5]. -/
theorem phasesStayInUnit : Obligations.PhasesStayInUnit := by
  refine ⟨fun fs o hfs hp hf => Osc.advance_phaseOk hfs hp hf, fun fs sn k hfs hk => ?_,
    fun s hs => State.lfoAdvance_phaseOk (State.legal_iff.1 hs), fun p inc hp hi h => phaseAdv_wrap_exact hp hi h⟩
  obtain ⟨hp, hf, -, ⟨hup, huf⟩, hdp, hdf⟩ := Slot.legal_iff.1 hk
  exact ⟨Osc.advance_phaseOk hfs hp hf, UnisonCopy.advance_phaseOk hfs hup huf, UnisonCopy.advance_phaseOk hfs hdp hdf⟩

end Sys2Proof.Machine
end

section
/-! ## The filter's cutoff (10_state.md R43) -/

namespace Sys2Proof.Machine

theorem SvFilter.process_legal {fs x : Num32} {f : SvFilter} (hf : f.legal = true) : (f.process fs x).1.legal = true := hf

theorem State.voiceTick_cutoff (s : State) (n : Word) : (s.voiceTick n).filt.cutoff = clampN s.tickCutoff cutoffMin cutoffMax :=
  rfl

/-- Settles O41: FILT_SET_CUTOFF clamps in every tick, and FILT_PROCESS keeps the cutoff. -/
theorem cutoffClampedByTick : Obligations.CutoffClampedByTick := by
  intro s n
  rw [State.voiceTick_cutoff]
  exact clampN_inRange _ (by decide +kernel : fle cutoffMin cutoffMax = true)

end Sys2Proof.Machine
end

section
/-! ## Every step keeps the legal states (10_state.md R31 to R51) -/

namespace Sys2Proof.Machine

/-- The value a tick puts on `XMOD` is the LFO sample times 0 or 1 (47_voice_renderer.md R260). -/
theorem State.tickXmod_range {s : State} (hs : s.Legal) : inRange s.tickXmod minusOne one = true :=
  fmul_unit (lfoSample_range (State.lfoAdvance_phaseOk hs) (SnapshotBank.legal_lfo hs.snap).2) (multiplier_unit _ _)

theorem State.voiceTick_legal {s : State} (n : Word) (hs : s.Legal) : (s.voiceTick n).Legal :=
  have henv := SnapshotBank.legal_env hs.snap
  { hs with
    oscA := Slot.render_legal hs.fs hs.oscA
    oscB := Slot.render_legal hs.fs hs.oscB
    lfoPhase := State.lfoAdvance_phaseOk hs
    aenv := Envelope.next_legal hs.fs henv.1 hs.aenv
    fenv := Envelope.next_legal hs.fs henv.2 hs.fenv
    filt := SvFilter.process_legal (SvFilter.setCutoff_legal _ hs.filt)
    xmod := State.tickXmod_range hs
    life := State.voiceTick_lifeAgrees n hs.life
    out := writeChannels_wf _ _ hs.out (Nat.lt_succ_iff.1 s.blk.nch.isLt) }

/-- A turn of the block's loop leaves `BUSY` at 1 only while a tick remains. -/
theorem State.blockTick_legal {s : State} (hs : s.Legal) : s.blockTick.Legal := by
  by_cases h : s.blk.n.toNat < s.blk.num.toNat
  · rw [State.blockTick_of_lt h]
    exact { State.voiceTick_legal s.blk.n hs with block := State.blockOk_iff.2 of_decide_eq_true }
  · rw [State.blockTick_of_not_lt h]
    exact { hs with block := rfl }

theorem State.noteStarted_legal {s : State} (freq : Word) (hs : s.Legal) : (s.noteStarted freq).Legal :=
  have henv := SnapshotBank.legal_env s.pend.sanitise_legal
  { hs with
    baseF := clampN_inRange _ (by decide +kernel)
    oscA := Slot.resetPhases_legal hs.oscA
    oscB := Slot.resetPhases_legal hs.oscB
    aenv := Envelope.noteOn_legal hs.fs henv.1 hs.aenv
    fenv := Envelope.noteOn_legal hs.fs henv.2 hs.fenv
    filt := SvFilter.resetIntegrators_legal hs.filt
    life := (ExecEffect.startNote freq).keeps_lifeAgrees hs.life
    snap := s.pend.sanitise_legal }

/-- PREPARE leaves the datapath as reset does, whatever it held. -/
theorem State.prepared_legal {s : State} (rate : Word) (hs : s.Legal) :
    State.Legal { s.clearDatapath with fs := clampN (f32 rate) fsMin fsMax } :=
  have hfs := clampN_inRange (f32 rate) (by decide +kernel : fle fsMin fsMax = true)
  { State.legal_iff.1 resetIsLegal with
    fs := hfs
    oscA := Slot.zero_legal hfs
    oscB := Slot.zero_legal hfs
    block := hs.block
    snap := hs.snap
    out := hs.out }

theorem State.stopWithTail_legal {s : State} (notIdle : s.life ≠ .idle) (hs : s.Legal) : s.stopWithTail.Legal :=
  have henv := SnapshotBank.legal_env s.pend.sanitise_legal
  { hs with
    aenv := Envelope.noteOff_legal hs.fs henv.1 hs.aenv
    fenv := Envelope.noteOff_legal hs.fs henv.2 hs.fenv
    life := (ExecEffect.stopWithTail notIdle).keeps_lifeAgrees hs.life
    snap := s.pend.sanitise_legal }

theorem State.beginBlock_legal {s : State} (nch : BitVec 8) (num : BitVec 16) (start : Word) (hs : s.Legal) :
    (s.beginBlock nch num start).Legal :=
  { hs with
    filt := SvFilter.setRes_legal _ hs.filt
    block := State.blockOk_iff.2 of_decide_eq_true
    snap := s.pend.sanitise_legal }

theorem ExecEffect.keeps_legal {i : Instr} {s t : State} (h : ExecEffect s i t) (hs : s.Legal) : t.Legal := by
  cases h
  case unchanged => exact hs
  case writeParam => exact { hs with }
  case prepare rate => exact State.prepared_legal rate hs
  case startNote freq => exact State.noteStarted_legal freq hs
  case stopWithTail notIdle => exact State.stopWithTail_legal notIdle hs
  case stopAtOnce => exact { hs with aenv := s.aenv.toReset_legal, fenv := s.fenv.toReset_legal, life := rfl }
  case beginBlock nch num start => exact State.beginBlock_legal nch num start hs

/-- Settles O38: each kind of step keeps the legal states. The turns and the words on the ports are no part of them. -/
theorem stepKeepsLegal : Obligations.StepKeepsLegal := by
  intro s t hs h
  rw [State.legal_iff] at hs ⊢
  have hturn : s.endTurn.Legal := { hs with }
  obtain ⟨-, rfl⟩ | ⟨-, rfl⟩ | ⟨w, rest, -, he⟩ | ⟨-, rfl⟩ := step_cases h
  · exact State.resetPulse_legal hs.out
  · exact State.blockTick_legal hturn
  · exact (exec_effect he).keeps_legal { hs with }
  · exact hturn

end Sys2Proof.Machine
end

section
/-! ## Acceptance on the ports (20_memory.md R87 to R90, 30_encoding.md R111) -/

namespace Sys2Proof.Machine

theorem acceptFrom_eq_accept {p : Port} {ws rest : List Word64} {w : Word64} (h : acceptFrom p ws = .accept w rest) :
    portOf w = p ∧ takeWord (portOf w) ws = some (w, rest) := by
  unfold acceptFrom at h
  split at h <;> cases h
  case h_1 htake => obtain ⟨rfl, -⟩ := takeWord_some htake; exact ⟨rfl, htake⟩

/-- The word a move accepts is the first on its port, and a word of `CPORT` waits for `BUSY = 0`, whoever has the turn. -/
theorem nextMove_accept {s : State} {w : Word64} {rest : List Word64} (h : s.nextMove = .accept w rest) :
    takeWord (portOf w) s.waiting = some (w, rest) ∧ (portOf w = .cport → s.busy = false) := by
  unfold State.nextMove at h
  split at h -- whose turn it is: the reset input's, the writer's, the sequencer's, or nobody's
  case h_1 => cases h
  case h_2 =>
    obtain ⟨hport, htake⟩ := acceptFrom_eq_accept h
    exact ⟨htake, fun hc => by simp [hport] at hc⟩
  case h_3 =>
    split at h
    case isTrue => cases h
    case isFalse hbusy => exact ⟨(acceptFrom_eq_accept h).2, fun _ => by simpa using hbusy⟩
  case h_4 =>
    split at h
    case isTrue => cases h
    case isFalse hbusy =>
      split at h
      case h_1 hw => cases h; exact ⟨by simp [hw, takeWord], fun _ => by simpa using hbusy⟩
      case h_2 => cases h

/-- On the turn of a port's agent, the sequencer's with `BUSY = 0`, the move is an acceptance from that port. -/
theorem nextMove_agentTurn {s : State} {p : Port} {ts : List Agent} (ht : s.turns = agentOf p :: ts)
    (hb : p = .cport → s.busy = false) : s.nextMove = acceptFrom p s.waiting := by
  cases p
  case cport => simp [State.nextMove, ht, agentOf, hb rfl]
  case pport => simp [State.nextMove, ht, agentOf]

/-- On its agent's turn the first word of a port is accepted, whatever stands before it on the other port. -/
theorem nextMove_first {s : State} {w : Word64} {before after : List Word64} {ts : List Agent}
    (ht : s.turns = agentOf (portOf w) :: ts) (hb : portOf w = .cport → s.busy = false)
    (hw : s.waiting = before ++ w :: after) (hbefore : ∀ x ∈ before, portOf x ≠ portOf w) :
    s.nextMove = .accept w (before ++ after) := by
  rw [nextMove_agentTurn ht hb, hw, acceptFrom, takeWord_append w after hbefore]

/-- Settles O8: every acceptance takes the first word of its port (`takeWord`). -/
theorem acceptanceKeepsPortOrder : Obligations.AcceptanceKeepsPortOrder := by
  refine ⟨fun w => rfl, fun s w rest h => ?_, fun s w before after ts => nextMove_first, fun s p ts ht hb hnone => ?_⟩
  · obtain ⟨htake, hbusy⟩ := nextMove_accept h
    exact ⟨(takeWord_some htake).2, hbusy⟩
  · rw [nextMove_agentTurn ht hb, acceptFrom, takeWord_none.2 hnone]

end Sys2Proof.Machine
end

section
/-! ## SET_PARAM at any time (20_memory.md R87, 48_commands.md R283, R288) -/

namespace Sys2Proof.Machine

theorem decode_of_setParam {w : Word64} (h : opField w = 0x02#8) : decode w = decodeSetParam (aField w) (cField w) := by
  simp [decode, h]

/-- The row of an index and the generic SET_PARAM have one meaning (log entry 10). -/
theorem exec_setParamNamed (p : Param) (c : Word) (s : State) : exec (setParamNamed p c) s = .next (s.writeParam p c) := by
  cases p <;> rfl

/-- The parameter writer's turn performs the first SET_PARAM word; its index decides which register is written, if any. -/
theorem step_writerTurn {s : State} {w : Word64} {before after : List Word64} {ts : List Agent}
    (ht : s.turns = .writer :: ts) (hw : s.waiting = before ++ w :: after)
    (hbefore : ∀ x ∈ before, opField x ≠ 0x02#8) (hop : opField w = 0x02#8) :
    step s = exec (decodeSetParam (aField w) (cField w)) { s with turns := ts, waiting := before ++ after } := by
  have hport : portOf w = .pport := portOf_eq_pport_iff.2 hop
  have hmove : s.nextMove = .accept w (before ++ after) :=
    nextMove_first (by rw [hport]; exact ht) (fun hc => by simp [hport] at hc) hw
      (fun x hx => hport ▸ mt portOf_eq_pport_iff.1 (hbefore x hx))
  rw [step_of_accept hmove, decode_of_setParam hop, ht, List.tail_cons]

/-- Settles O9: the writer's turn does not look at `BUSY`, nor at the words of `CPORT`. -/
theorem setParamAcceptedAtAnyTime : Obligations.SetParamAcceptedAtAnyTime := by
  intro s w before after ts ht hw hbefore hop
  rw [step_writerTurn ht hw hbefore hop]
  constructor
  · intro p hp
    rw [decodeSetParam, hp, paramOfIndex_indexOfParam]
    exact exec_setParamNamed p (cField w) _
  · intro hidx
    have hnone := paramOfIndex_eq_none hidx
    simp only [decodeSetParam, hnone, exec, execSetParam]

end Sys2Proof.Machine
end

section
/-! ## SET_PARAM and the block in progress (20_memory.md R88) -/

namespace Sys2Proof.Machine

/-- No step of a tick reads or writes `P`. -/
theorem State.voiceTick_writeParam (s : State) (n : Word) (p : Param) (c : Word) :
    (s.writeParam p c).voiceTick n = (s.voiceTick n).writeParam p c := rfl

theorem State.blockTick_writeParam (s : State) (p : Param) (c : Word) :
    (s.writeParam p c).blockTick = s.blockTick.writeParam p c := by
  by_cases h : s.blk.n.toNat < s.blk.num.toNat
  · rw [State.blockTick_of_lt h, State.blockTick_of_lt (s := s.writeParam p c) h, State.writeParam_blk,
      State.voiceTick_writeParam]
    rfl
  · rw [State.blockTick_of_not_lt h, State.blockTick_of_not_lt (s := s.writeParam p c) h]
    rfl

/-- Settles O13, by induction on the number of ticks. -/
theorem setParamInvisibleToBlock : Obligations.SetParamInvisibleToBlock := by
  intro s p value k
  induction k generalizing s with
  | zero => rfl
  | succ k ih => rw [State.blockTicks, State.blockTick_writeParam, ih, State.blockTicks]

end Sys2Proof.Machine
end

section
/-! ## Who writes `OUT`, and in which form (20_memory.md R80, R84; 47_voice_renderer.md R259) -/

namespace Sys2Proof.Machine

theorem ExecEffect.keeps_out {i : Instr} {s t : State} (h : ExecEffect s i t) : t.out = s.out := by
  cases h <;> rfl

/-- A step keeps `OUT` as it is, unless it is a tick with a tick left, which writes the sample to the block's channels. -/
theorem step_out {s t : State} (h : step s = .next t) :
    t.out = s.out ∨ (s.nextMove = .tick ∧ s.blk.n.toNat < s.blk.num.toNat ∧
      t.out = writeChannels s.out (s.blk.start + s.blk.n) s.endTurn.tickSample s.blk.nch.toNat) := by
  obtain ⟨-, rfl⟩ | ⟨hm, rfl⟩ | ⟨w, rest, -, he⟩ | ⟨-, rfl⟩ := step_cases h
  · exact .inl rfl
  · by_cases hlt : s.endTurn.blk.n.toNat < s.endTurn.blk.num.toNat
    · exact .inr ⟨hm, hlt, by rw [State.blockTick_of_lt hlt]; rfl⟩
    · exact .inl (by rw [State.blockTick_of_not_lt hlt]; rfl)
  · exact .inl (exec_effect he).keeps_out
  · exact .inl rfl

/-- Settles O28: no effect of a command is on `OUT`, and of the steps only a tick of the block has one. -/
theorem outputWriters : Obligations.OutputWriters := by
  refine ⟨fun i s t h a => by rw [(exec_effect h).keeps_out], fun s t h hne => ?_⟩
  obtain hkeep | ⟨hm, hlt, -⟩ := step_out h
  · exact absurd hkeep hne
  · exact ⟨hm, hlt⟩

/-- Settles O40: the channel loop of a tick, over at most 255 channels, keeps the canonical form. -/
theorem outStaysCanonical : Obligations.OutStaysCanonical := by
  intro s t hs h
  obtain hkeep | ⟨-, -, hout⟩ := step_out h
  · rw [hkeep]; exact hs
  · rw [hout]; exact writeChannels_wf _ _ hs (Nat.lt_succ_iff.1 s.blk.nch.isLt)

end Sys2Proof.Machine
end

section
/-! ## `OUT` as a total map (20_memory.md R80, R82, R83) -/

namespace Sys2Proof.Machine

theorem outAddr_eq_iff {ch ch' : Nat} {i i' : Word} : outAddr ch i = outAddr ch' i' ↔ ch = ch' ∧ i = i' :=
  ⟨outAddr_inj, fun ⟨hch, hi⟩ => by rw [hch, hi]⟩

/-- Every key inside `OUT` is the key of a channel and an index. -/
theorem exists_outAddr_eq {a : Nat} (h : a < outSize) : ∃ (ch : Fin 255) (i : Word), outAddr ch i = a := by
  unfold outSize at h
  refine ⟨⟨a / 2 ^ 32, by omega⟩, BitVec.ofNat 32 a, ?_⟩
  simp only [outAddr, BitVec.toNat_ofNat]
  omega

/-- The map is written key by key: below the bound `k` the list built so far reads as the map. -/
theorem exists_wf_reads_below (f : Fin 255 → Word → Word) (k : Nat) (hk : k ≤ outSize) :
    ∃ m, Memory.wf m = true ∧ ∀ (ch : Fin 255) (i : Word), outAddr ch i < k → outRead m (outAddr ch i) = f ch i := by
  induction k with
  | zero => exact ⟨[], rfl, fun ch i h => absurd h (Nat.not_lt_zero _)⟩
  | succ k ih =>
    obtain ⟨m, hwf, hm⟩ := ih (by omega)
    obtain ⟨ch, i, rfl⟩ := exists_outAddr_eq hk
    refine ⟨outWrite m (outAddr ch i) (f ch i), outWrite_wf _ hk hwf, fun ch' i' h => ?_⟩
    rw [outRead_outWrite]
    split
    case isTrue heq =>
      obtain ⟨hch, rfl⟩ := outAddr_inj heq
      rw [Fin.ext hch]
    case isFalse hne => exact hm ch' i' (by omega)

/-- A key that does not read as an unlisted one is not below the list's first key. -/
theorem le_of_outRead_ne {a : Nat} : ∀ {m : List OutCell} {lo : Nat}, outSortedFrom lo m = true →
    outRead m a ≠ outUnlisted → lo ≤ a
  | [], _, _, hread => absurd rfl hread
  | (b, w) :: rest, lo, hm, hread => by
    obtain ⟨hlo, -, -, hrest⟩ := outSortedFrom_cons.1 hm
    unfold outRead at hread
    split at hread
    case isTrue hab => omega
    case isFalse => have := le_of_outRead_ne hrest hread; omega

/-- The keys of a list in canonical form start at its head. -/
theorem outSortedFrom_head {lo a : Nat} {w : Word} {rest : List OutCell} (h : outSortedFrom lo ((a, w) :: rest) = true) :
    outSortedFrom a ((a, w) :: rest) = true :=
  outSortedFrom_cons.2 ⟨le_rfl, (outSortedFrom_cons.1 h).2⟩

@[simp] theorem outRead_head (a : Nat) (w : Word) (rest : List OutCell) : outRead ((a, w) :: rest) a = w := if_pos rfl

/-- The entry at the head of a canonical list stands at no lower key than the head of any list that reads alike. -/
theorem head_le_of_reads_alike {lo lo' a b : Nat} {v w : Word} {m n : List OutCell}
    (hm : outSortedFrom lo ((a, v) :: m) = true) (hn : outSortedFrom lo' ((b, w) :: n) = true)
    (h : ∀ c < outSize, outRead ((a, v) :: m) c = outRead ((b, w) :: n) c) : b ≤ a := by
  obtain ⟨-, ha, hv, -⟩ := outSortedFrom_cons.1 hm
  exact le_of_outRead_ne (outSortedFrom_head hn) (by rw [← h a ha, outRead_head]; exact hv)

/-- The tail of a canonical list reads as the list does, but for the head's key. -/
theorem outRead_tail {lo a : Nat} {w : Word} {rest : List OutCell} (h : outSortedFrom lo ((a, w) :: rest) = true) (c : Nat) :
    outRead rest c = if c = a then outUnlisted else outRead ((a, w) :: rest) c := by
  obtain ⟨-, -, -, hrest⟩ := outSortedFrom_cons.1 h
  split
  case isTrue hc => by_contra hne; have := le_of_outRead_ne hrest hne; omega
  case isFalse hc => rw [outRead, if_neg hc]

/-- Two canonical lists that read alike at every key are equal. -/
theorem eq_of_reads_alike : ∀ {m n : List OutCell} {lo lo' : Nat}, outSortedFrom lo m = true → outSortedFrom lo' n = true →
    (∀ c < outSize, outRead m c = outRead n c) → m = n
  | [], [], _, _, _, _, _ => rfl
  | [], (b, w) :: n, _, _, _, hn, h => by
    obtain ⟨-, hb, hw, -⟩ := outSortedFrom_cons.1 hn
    exact absurd ((outRead_head b w n).symm.trans (h b hb).symm) hw
  | (a, v) :: m, [], _, _, hm, _, h => by
    obtain ⟨-, ha, hv, -⟩ := outSortedFrom_cons.1 hm
    exact absurd ((outRead_head a v m).symm.trans (h a ha)) hv
  | (a, v) :: m, (b, w) :: n, _, _, hm, hn, h => by
    obtain rfl : a = b :=
      le_antisymm (head_le_of_reads_alike hn hm fun c hc => (h c hc).symm) (head_le_of_reads_alike hm hn h)
    obtain ⟨-, ha, -, hmrest⟩ := outSortedFrom_cons.1 hm
    obtain ⟨-, -, -, hnrest⟩ := outSortedFrom_cons.1 hn
    have hvw : v = w := by simpa using h a ha
    have htail : m = n :=
      eq_of_reads_alike hmrest hnrest fun c hc => by rw [outRead_tail hm, outRead_tail hn, h c hc]
    rw [hvw, htail]

/-- Settles O60: a read after a write, the map written key by key, and reading alike as equality. -/
theorem outIsATotalMap : Obligations.OutIsATotalMap := by
  refine ⟨fun m ch ch' i i' v => ?_, fun s f => ?_, fun s t hs ht h => eq_of_reads_alike hs ht fun c hc => ?_⟩
  · rw [memWrite, outRead_outWrite]
    simp only [outAddr_eq_iff]
  · obtain ⟨m, hwf, hm⟩ := exists_wf_reads_below f outSize le_rfl
    exact ⟨m, hwf, fun ch i => hm ch i (outAddr_lt ch.isLt)⟩
  · obtain ⟨ch, i, rfl⟩ := exists_outAddr_eq hc
    exact h ch i

end Sys2Proof.Machine
end

section
/-! ## The command word as its fields (30_encoding.md R110, R113, R116) -/

namespace Sys2Proof

/-- A word is laid out from its own fields (30_encoding.md R110). -/
theorem commandWord_fields (w : Word64) : commandWord (opField w) (aField w) (bField w) (cField w) = w := by
  have hopa : opField w ++ aField w = w.extractLsb' 48 16 := BitVec.extractLsb'_append_extractLsb'_eq_extractLsb' rfl
  have hopab : w.extractLsb' 48 16 ++ bField w = w.extractLsb' 32 32 :=
    BitVec.extractLsb'_append_extractLsb'_eq_extractLsb' rfl
  have hall : w.extractLsb' 32 32 ++ cField w = w.extractLsb' 0 64 :=
    BitVec.extractLsb'_append_extractLsb'_eq_extractLsb' rfl
  rw [commandWord, hopa]
  exact (congrArg (· ++ cField w) hopab).trans (hall.trans BitVec.extractLsb'_eq_self)

/-- A mask laid out from fields masks field by field. -/
theorem and_commandWord (w : Word64) (op a : BitVec 8) (b : BitVec 16) (c : Word) :
    w &&& commandWord op a b c = commandWord (opField w &&& op) (aField w &&& a) (bField w &&& b) (cField w &&& c) := by
  conv_lhs => rw [← commandWord_fields w]
  refine BitVec.and_append.trans ?_
  rw [BitVec.and_append, BitVec.and_append]
  rfl

/-- Every command uses the whole field `op` (30_encoding.md R113). -/
theorem opField_usedBits (op : BitVec 8) : opField (usedBits op) = BitVec.allOnes 8 := by
  unfold usedBits
  split <;> rfl

theorem opField_and_usedBits (w : Word64) (op : BitVec 8) : opField (w &&& usedBits op) = opField w := by
  calc opField (w &&& usedBits op) = opField w &&& opField (usedBits op) := BitVec.extractLsb'_and
    _ = opField w := by rw [opField_usedBits, BitVec.and_allOnes]

/-- The bit `a[0]` of STOP_NOTE, masked and as `encode` writes it (30_encoding.md R113). -/
theorem and_one_eq_ite (a : BitVec 8) : a &&& 1#8 = if a.getLsbD 0 then 1#8 else 0#8 := by
  rw [BitVec.and_one_eq_setWidth_ofBool_getLsbD]
  cases a.getLsbD 0 <;> rfl

theorem eq_indexOfParam_of_paramOfIndex {a : BitVec 8} {p : Param} (h : paramOfIndex a = some p) : a = indexOfParam p := by
  unfold paramOfIndex at h
  split at h <;> cases h
  all_goals exact BitVec.eq_of_toNat_eq (by assumption)

/-- The indices that name a register are 0 to 20 (30_encoding.md R114, R117). -/
theorem exists_paramOfIndex {a : BitVec 8} (h : a.toNat < 21) : ∃ p, paramOfIndex a = some p := by
  unfold paramOfIndex
  interval_cases a.toNat <;> exact ⟨_, rfl⟩

theorem le_of_paramOfIndex_eq_none {a : BitVec 8} (h : paramOfIndex a = none) : 21 ≤ a.toNat := by
  by_contra hlt
  obtain ⟨p, hp⟩ := exists_paramOfIndex (Nat.lt_of_not_le hlt)
  simp [h] at hp

end Sys2Proof
end

section
/-! ## Decoding and encoding (30_encoding.md R110 to R117) -/

namespace Sys2Proof.Machine

theorem decode_of_reserved {w : Word64} (h : 6 ≤ (opField w).toNat) : decode w = .reserved (opField w) := by
  conv_lhs => rw [← commandWord_fields w]
  exact decode_reservedWord h _ _ _

theorem decodeSetParam_wellFormed (a : BitVec 8) (c : Word) : WellFormed (decodeSetParam a c) := by
  unfold decodeSetParam
  split
  case h_1 p _ => cases p <;> rfl
  case h_2 hnone => exact decide_eq_true (le_of_paramOfIndex_eq_none hnone)

theorem decode_wellFormed (w : Word64) : WellFormed (decode w) := by
  by_cases hres : 6 ≤ (opField w).toNat
  case pos => rw [decode_of_reserved hres]; exact decide_eq_true hres
  case neg =>
    unfold decode
    split
    case h_3 => exact decodeSetParam_wellFormed _ _
    case h_7 => simp only [imp_false] at *; omega
    all_goals rfl

theorem encode_decodeSetParam (a : BitVec 8) (c : Word) : encode (decodeSetParam a c) = commandWord 0x02#8 a 0#16 c := by
  unfold decodeSetParam
  split
  case h_1 p hp => rw [eq_indexOfParam_of_paramOfIndex hp]; cases p <;> rfl
  case h_2 => rfl

/-- A word with the unused bits of its opcode cleared, from what the masks of that opcode's row (30_encoding.md R113) leave of
its fields `a`, `b` and `c`. -/
theorem and_usedBits {w : Word64} {op aMask a : BitVec 8} {bMask b : BitVec 16} {cMask c : Word} (hop : opField w = op)
    (ha : aField w &&& aMask = a) (hb : bField w &&& bMask = b) (hc : cField w &&& cMask = c)
    (hused : usedBits op = commandWord (BitVec.allOnes 8) aMask bMask cMask) :
    w &&& usedBits (opField w) = commandWord op a b c := by
  rw [hop, hused, and_commandWord, hop, BitVec.and_allOnes, ha, hb, hc]

theorem usedBits_of_reserved {op : BitVec 8} (h : 6 ≤ op.toNat) : usedBits op = commandWord (BitVec.allOnes 8) 0#8 0#16 0#32 := by
  unfold usedBits
  split
  case h_7 => decide
  all_goals omega

/-- Encoding what a word decodes to clears the bits its opcode does not use, row by row of R113 (30_encoding.md R116). -/
theorem encode_decode (w : Word64) : encode (decode w) = w &&& usedBits (opField w) := by
  have noBits {n : Nat} (x : BitVec n) : x &&& 0#n = 0#n := BitVec.and_zero
  have allBits {n : Nat} (x : BitVec n) : x &&& BitVec.allOnes n = x := BitVec.and_allOnes
  by_cases hres : 6 ≤ (opField w).toNat
  · rw [decode_of_reserved hres, and_usedBits rfl (noBits _) (noBits _) (noBits _) (usedBits_of_reserved hres), encode]
  · have row {k : Nat} (hop : (opField w).toNat = k) : opField w = BitVec.ofNat 8 k := by
      rw [← hop, BitVec.ofNat_toNat, BitVec.setWidth_eq]
    unfold decode
    split
    case h_1 hop => exact (and_usedBits (row hop) (noBits _) (noBits _) (noBits _) rfl).symm
    case h_2 hop => exact (and_usedBits (row hop) (noBits _) (noBits _) (allBits _) rfl).symm
    case h_3 hop =>
      rw [encode_decodeSetParam]
      exact (and_usedBits (row hop) (allBits _) (noBits _) (allBits _) rfl).symm
    case h_4 hop => exact (and_usedBits (row hop) (noBits _) (noBits _) (allBits _) rfl).symm
    case h_5 hop => exact (and_usedBits (row hop) (and_one_eq_ite _) (noBits _) (noBits _) rfl).symm
    case h_6 hop => exact (and_usedBits (row hop) (allBits _) (allBits _) (allBits _) rfl).symm
    case h_7 => simp only [imp_false] at *; omega

theorem decodeTableWord_of_fits {nbits w : Nat} (h : nbits ≤ 64 ∧ w < 2 ^ 64) :
    decodeTableWord nbits w = some (decode (BitVec.ofNat 64 w)) := by
  rw [decodeTableWord, decodeImage, if_pos h]

theorem decodeTableWord_of_not_fits {nbits w : Nat} (h : ¬(nbits ≤ 64 ∧ w < 2 ^ 64)) : decodeTableWord nbits w = none := by
  rw [decodeTableWord, decodeImage, if_neg h]

/-- Settles O1: the table decoder reads a word of 64 bits with the decoder of command words. -/
theorem decodeOfEncode : Obligations.DecodeOfEncode := by
  intro i hi
  refine ⟨decode_encode hi, ?_⟩
  rw [decodeTableWord_of_fits ⟨le_rfl, (encode i).isLt⟩, BitVec.ofNat_toNat, BitVec.setWidth_eq, decode_encode hi]

/-- Settles O2: row by row of R113, `encode` writes the fields the row uses and zeros in the others. -/
theorem encodeOfDecode : Obligations.EncodeOfDecode := encode_decode

/-- Settles O3: words that agree on the used bits have one opcode, so they decode to commands of one and the same word. -/
theorem ignoredFieldsIgnored : Obligations.IgnoredFieldsIgnored := by
  intro w w' hagree
  have hop : opField w' = opField w := by
    rw [← opField_and_usedBits w' (opField w), ← hagree, opField_and_usedBits]
  have hencode : encode (decode w') = encode (decode w) := by
    rw [encode_decode, encode_decode, hop, hagree]
  rw [← decode_encode (decode_wellFormed w'), hencode, decode_encode (decode_wellFormed w)]

/-- Settles O4: `decode` meets every word, and an image is refused only by its length or its value. -/
theorem everyWordIsACommand : Obligations.EveryWordIsACommand :=
  ⟨decode_wellFormed, fun _ _ => ⟨decodeTableWord_of_fits, decodeTableWord_of_not_fits⟩⟩

/-- Settles O5: the words are literals, so the decoder computes each command. -/
theorem specWordsDecode : Obligations.SpecWordsDecode := by
  unfold Obligations.SpecWordsDecode
  decide

end Sys2Proof.Machine
end

section
/-! ## SET_PARAM by index and the reserved opcodes (30_encoding.md R114, R115, R117, 48_commands.md R283, R289) -/

namespace Sys2Proof.Machine

/-- The row an index decodes to means what the generic SET_PARAM means at that index (log entry 10). -/
theorem exec_decodeSetParam (a : BitVec 8) (c : Word) (s : State) : exec (decodeSetParam a c) s = execSetParam a c s := by
  cases hindex : paramOfIndex a with
  | some p =>
    have hdecode : decodeSetParam a c = setParamNamed p c := by rw [decodeSetParam, hindex]
    have hexec : execSetParam a c s = .next (s.writeParam p c) := by rw [execSetParam, hindex]
    rw [hdecode, hexec, exec_setParamNamed]
  | none =>
    have hdecode : decodeSetParam a c = .setParam a c := by rw [decodeSetParam, hindex]
    exact congrArg (exec · s) hdecode

theorem execSetParam_indexOfParam (p : Param) (c : Word) (s : State) :
    execSetParam (indexOfParam p) c s = .next (s.writeParam p c) := by
  rw [execSetParam, paramOfIndex_indexOfParam]

/-- An index that names no register: SET_PARAM changes nothing (30_encoding.md R117). -/
theorem execSetParam_of_unnamed {a : BitVec 8} (h : 21 ≤ a.toNat) (c : Word) (s : State) : execSetParam a c s = .next s := by
  rw [execSetParam, paramOfIndex_eq_none h]

/-- A read of `P` after a write of `P` (48_commands.md R283). -/
theorem PendingBank.read_write (b : PendingBank) (p q : Param) (c : Word) :
    (b.write p c).read q = if q = p then c else b.read q := by
  cases p <;> cases q <;> rfl

/-- Settles O19: both the word and the generic constructor run `execSetParam` at their index. -/
theorem setParamByIndex : Obligations.SetParamByIndex := by
  have exec_word {w : Word64} (s : State) (hop : opField w = 0x02#8) :
      exec (decode w) s = execSetParam (aField w) (cField w) s := by
    rw [decode_of_setParam hop, exec_decodeSetParam]
  refine ⟨fun w => portOf_eq_pport_iff.2, fun w s p hop ha => ?_, fun w s hop ha => ?_,
    fun idx v s => (execSetParam_of_unnamed · v s), fun p v s => execSetParam_indexOfParam p v s, fun a ha => ?_,
    PendingBank.read_write⟩
  · rw [exec_word s hop, ha, execSetParam_indexOfParam, State.writeParam]
  · rw [exec_word s hop, execSetParam_of_unnamed ha]
  · obtain ⟨p, hp⟩ := exists_paramOfIndex (Nat.lt_succ_of_le ha)
    exact ⟨p, eq_indexOfParam_of_paramOfIndex hp⟩

/-- Settles O18: each row is the write of the register it names. -/
theorem setParamRowResults : Obligations.SetParamRowResults := by
  intro v s
  have row (p : Param) := exec_setParamNamed p v s
  exact ⟨row .oscAShape, row .oscBShape, row .oscASemi, row .oscBSemi, row .unisonMode, row .detuneCents, row .foldDrive,
    row .filtCutoff, row .filtRes, row .filtEnvAmt, row .lfoRate, row .lfoDepth, row .lfoDest, row .aenvAttack,
    row .aenvDecay, row .aenvSustain, row .aenvRelease, row .fenvAttack, row .fenvDecay, row .fenvSustain, row .fenvRelease⟩

/-- Settles O16: a reserved opcode is not that of SET_PARAM and decodes to the reserved constructor, whose meaning is NOP's. -/
theorem reservedOpcodeIsNop : Obligations.ReservedOpcodeIsNop := by
  refine ⟨fun op s => rfl, fun w s hres => ⟨if_neg fun hop => ?_, ?_⟩⟩
  · rw [hop] at hres
    exact absurd hres (by decide)
  · rw [decode_of_reserved hres]
    rfl

end Sys2Proof.Machine
end

section
/-! ## The entries of an envelope (44_envelope.md R194 to R198) -/

namespace Sys2Proof.Machine

variable {fs : Num32} {q : EnvParams} {e : Envelope}

theorem Envelope.noteOn_of_attack (h : fge (stageLen fs q.attack) one = true) : e.noteOn fs q =
    { stage := .attack, level := e.level, target := one, step := fdiv (fsub one e.level) (stageLen fs q.attack)
      cnt := toU32 (stageLen fs q.attack) } :=
  if_pos h

theorem Envelope.noteOn_of_no_attack (h : fge (stageLen fs q.attack) one = false) :
    e.noteOn fs q = Envelope.enterDecay fs q { e with level := one } :=
  if_neg (Bool.eq_false_iff.1 h)

theorem Envelope.enterDecay_of_decay (h : fge (stageLen fs q.decay) one = true) : e.enterDecay fs q =
    { stage := .decay, level := e.level, target := q.sustain, step := fdiv (fsub e.level q.sustain) (stageLen fs q.decay)
      cnt := toU32 (stageLen fs q.decay) } :=
  if_pos h

theorem Envelope.enterDecay_of_no_decay (h : fge (stageLen fs q.decay) one = false) : e.enterDecay fs q =
    { stage := .sustain, level := q.sustain, target := q.sustain, step := zero, cnt := 0#32 } :=
  if_neg (Bool.eq_false_iff.1 h)

theorem Envelope.noteOff_of_idle (h : e.stage = .idle) : e.noteOff fs q = e := if_pos h

theorem Envelope.noteOff_of_release (hi : e.stage ≠ .idle) (h : fge (stageLen fs q.release) one = true) : e.noteOff fs q =
    { stage := .release, level := e.level, target := zero, step := fdiv e.level (stageLen fs q.release)
      cnt := toU32 (stageLen fs q.release) } :=
  (if_neg hi).trans (if_pos h)

theorem Envelope.noteOff_of_no_release (hi : e.stage ≠ .idle) (h : fge (stageLen fs q.release) one = false) :
    e.noteOff fs q = e.toReset :=
  (if_neg hi).trans (if_neg (Bool.eq_false_iff.1 h))

end Sys2Proof.Machine

namespace Sys2Proof.Machine

/-- Settles O53: the arms of the entries one by one. -/
theorem envelopeParametersAndEntries : Obligations.EnvelopeParametersAndEntries :=
  ⟨fun _ => ⟨rfl, rfl⟩, fun _ _ _ => ⟨Envelope.noteOn_of_attack, Envelope.noteOn_of_no_attack, Envelope.enterDecay_of_decay,
    Envelope.enterDecay_of_no_decay, Envelope.noteOff_of_idle, Envelope.noteOff_of_release, Envelope.noteOff_of_no_release, rfl⟩⟩

end Sys2Proof.Machine
end

section
/-! ## The waveform (40_oscillator.md R141 to R148) -/

namespace Sys2Proof.Machine

/-- Settles O47: each operation is its pseudocode, so every clause is the definition of the operation. -/
theorem oscillatorOperations : Obligations.OscillatorOperations :=
  ⟨fun _ _ => rfl, fun _ _ _ => rfl, fun _ _ => rfl, fun _ _ => rfl, fun _ _ => rfl, fun _ _ => rfl, fun _ => rfl⟩

/-! ### The two arms of OSC_WAVE (R143) and their range (R148 (a)) -/

theorem oscWave_of_le_half {s : Num32} (h : fle s half = true) (p : Num32) :
    oscWave p s = lerp (sin2pi p) (sawWave p) (fdiv s half) :=
  if_pos h

theorem oscWave_of_not_le_half {s : Num32} (h : fle s half = false) (p : Num32) :
    oscWave p s = lerp (sawWave p) (squareWave p) (fdiv (fsub s half) half) :=
  if_neg (Bool.eq_false_iff.1 h)

theorem firstWeight_unit {s : Num32} (hs : inRange s zero one = true) (h : fle s half = true) :
    inRange (fdiv s half) zero one = true := by
  have h0 := (inRange_val hs).1
  have h1 := (fle_iff.1 h).2.2
  rw [zero_val] at h0
  rw [half_val] at h1
  exact fdiv_half_unit (unit_finite hs) h0 h1

theorem secondWeight_unit {s : Num32} (hs : inRange s zero one = true) (h : fle s half = false) :
    inRange (fdiv (fsub s half) half) zero one = true := by
  have hsf := unit_finite hs
  have hlt : half.val < s.val := by
    by_contra hc
    exact Bool.eq_false_iff.1 h (fle_iff.2 ⟨isNaN_of_isFinite hsf, by decide +kernel, not_lt.1 hc⟩)
  have hdiff := fsub_unit hs (by decide +kernel) (fle_iff.2 ⟨by decide +kernel, isNaN_of_isFinite hsf, hlt.le⟩)
  have hle : (fsub s half).val ≤ half.val := fsub_le hsf (by decide +kernel) (by decide +kernel) (by
    have := (inRange_val hs).2
    rw [one_val] at this
    rw [half_val]
    omega)
  have h0 := (inRange_val hdiff).1
  rw [zero_val] at h0
  rw [half_val] at hle
  exact fdiv_half_unit (unit_finite hdiff) h0 hle

theorem oscWave_range {p shape : Num32} (hp : phaseOk p = true) (hs : inRange shape zero one = true) :
    inRange (oscWave p shape) minusOne one = true := by
  cases h : fle shape half
  case true =>
    rw [oscWave_of_le_half h]
    exact lerp_unit (sin2pi_range hp) (sawWave_range hp) (firstWeight_unit hs h)
  case false =>
    rw [oscWave_of_not_le_half h]
    exact lerp_unit (sawWave_range hp) (squareWave_range p) (secondWeight_unit hs h)

/-! ### The ends of the blend (R147) -/

theorem wave_finite {x : Num32} (h : inRange x minusOne one = true) : x.isFinite = true :=
  inRange_finite h (by decide +kernel) (by decide +kernel)

/-- A product with `+0` is a zero, of the sign of the other factor. -/
theorem zero_fmul_val {x : Num32} (hx : inRange x minusOne one = true) :
    (fmul zero x).isFinite = true ∧ (fmul zero x).val = 0 := by
  obtain ⟨hf, hle, hge⟩ := fmul_le_factor zero_unit hx
  rw [zero_val] at hle hge
  exact ⟨hf, by omega⟩

/-- A zero plus `y` is `y` bit for bit, unless `y` is `-0`. -/
theorem fadd_zero_left {z y : Num32} (hz : z.isFinite = true) (hy : y.isFinite = true) (h : z.val = 0)
    (hy0 : y.val = 0 → y = zero) : fadd z y = y := by
  by_cases h0 : y.val = 0
  · obtain rfl := hy0 h0
    rw [fadd, addSigned_finite hz hy]
    simp [h, zero_val, show zero.sign = false by decide, show packNum false 0 = zero by decide]
  · have hle : (fadd z y).val ≤ y.val := fadd_le hz hy (isNaN_of_isFinite hy) (by omega)
    have hge : y.val ≤ (fadd z y).val := le_fadd hz hy (isNaN_of_isFinite hy) (by omega)
    exact eq_of_val (fadd_not_nan hz hy) (isNaN_of_isFinite hy) (le_antisymm hle hge) (by omega)

/-- `lerp` at weight 0 has the value of its first operand; a `-0` may become `+0`. -/
theorem lerp_zero_feq {x y : Num32} (hx : inRange x minusOne one = true) (hy : inRange y minusOne one = true) :
    feq (lerp x y zero) x = true := by
  have hxf := wave_finite hx
  obtain ⟨hzf, hz⟩ := zero_fmul_val hy
  rw [lerp, show fsub one zero = one by decide +kernel, one_fmul hxf]
  exact feq_iff.2 ⟨fadd_not_nan hxf hzf, isNaN_of_isFinite hxf, fadd_val_zero hxf hzf hz⟩

/-- `lerp` at weight 1 is its second operand bit for bit, unless that is `-0`. -/
theorem lerp_one {x y : Num32} (hx : inRange x minusOne one = true) (hy : inRange y minusOne one = true)
    (hy0 : y.val = 0 → y = zero) : lerp x y one = y := by
  have hyf := wave_finite hy
  obtain ⟨hzf, hz⟩ := zero_fmul_val hx
  rw [lerp, show fsub one one = zero by decide +kernel, one_fmul hyf]
  exact fadd_zero_left hzf hyf hz hy0

/-! ### The saw and the square are never `-0` -/

/-- A difference is a zero only of equal values: an exact difference of at least 2^-149 does not round to 0. -/
theorem val_eq_of_fsub_val_zero {x y : Num32} (hx : x.isFinite = true) (hy : y.isFinite = true) (h : (fsub x y).val = 0) :
    x.val = y.val := by
  have hpos : (f32 0x00000001#32).val = 1 := by decide +kernel
  have hneg : (f32 0x80000001#32).val = -1 := by decide +kernel
  rcases lt_trichotomy x.val y.val with hlt | heq | hgt
  · have := fsub_le (b := f32 0x80000001#32) hx hy (by decide +kernel) (by omega)
    omega
  · exact heq
  · have := le_fsub (b := f32 0x00000001#32) hx hy (by decide +kernel) (by omega)
    omega

theorem two_fmul_finite {p : Num32} (hp : phaseOk p = true) : (fmul two p).isFinite = true := by
  have hpf := phase_finite hp
  have htwo : two.isFinite = true := by decide +kernel
  have htwoVal : two.val = 2 ^ 150 := by decide +kernel
  obtain ⟨h0, h1⟩ := phaseOk_iff.1 hp
  have h0 := (fle_iff.1 h0).2.2
  have h1 := (flt_iff.1 h1).2.2
  rw [zero_val] at h0
  rw [one_val] at h1
  have hrange : inRange (fmul two p) zero two = true :=
    inRange_of_val (fmul_not_nan htwo hpf) (by decide +kernel) (by decide +kernel)
      (le_fmul htwo hpf (by decide +kernel) (by rw [zero_val, htwoVal]; omega))
      (fmul_le htwo hpf (by decide +kernel) (by rw [htwoVal]; omega))
  exact inRange_finite hrange (by decide +kernel) htwo

/-- Where the saw crosses zero `2p` is 1, and `1 - 1` is `+0`. -/
theorem sawWave_eq_zero {p : Num32} (hp : phaseOk p = true) (h : (sawWave p).val = 0) : sawWave p = zero := by
  have hf := two_fmul_finite hp
  have hval : (fmul two p).val = one.val := val_eq_of_fsub_val_zero hf (by decide +kernel) h
  have hone : fmul two p = one := eq_of_val (isNaN_of_isFinite hf) (by decide +kernel) hval (by rw [hval]; decide +kernel)
  rw [sawWave, hone]
  decide +kernel

theorem squareWave_val_ne_zero (p : Num32) : (squareWave p).val ≠ 0 := by
  unfold squareWave; split <;> decide +kernel

/-! ### The waveform at the shapes 0, 0.5 and 1 (R148 (b)) -/

theorem oscWave_zero {p : Num32} (hp : phaseOk p = true) : feq (oscWave p zero) (sin2pi p) = true := by
  rw [oscWave_of_le_half (by decide +kernel), show fdiv zero half = zero by decide +kernel]
  exact lerp_zero_feq (sin2pi_range hp) (sawWave_range hp)

theorem oscWave_half {p : Num32} (hp : phaseOk p = true) : oscWave p half = sawWave p := by
  rw [oscWave_of_le_half (by decide +kernel), show fdiv half half = one by decide +kernel]
  exact lerp_one (sin2pi_range hp) (sawWave_range hp) (sawWave_eq_zero hp)

theorem oscWave_one {p : Num32} (hp : phaseOk p = true) : oscWave p one = squareWave p := by
  rw [oscWave_of_not_le_half (by decide +kernel), show fdiv (fsub one half) half = one by decide +kernel]
  exact lerp_one (sawWave_range hp) (squareWave_range p) fun h => absurd h (squareWave_val_ne_zero p)

/-- Settles O48: OSC_WAVE is a `lerp` of values in [-1, 1], at weight 0 or 1 for the three shapes. -/
theorem waveformRangeAndEndpoints : Obligations.WaveformRangeAndEndpoints :=
  ⟨fun _ _ => oscWave_range, fun _ hp => ⟨oscWave_zero hp, oscWave_half hp, oscWave_one hp⟩⟩

end Sys2Proof.Machine
end

section
/-! ## The unison stack (41_unison.md R161 to R166) -/

namespace Sys2Proof.Machine

/-! ### UNISON_TICK (R163, R165) -/

theorem Slot.tick_of_average {fs : Num32} {sn : SnapshotBank} (h : sn.unisonMode = 3#32) (k : Slot) :
    (k.tick fs sn).2 = unisonMean (k.prim.tick fs).2 (oscWave (k.up.advance fs).phase k.prim.shape)
      (oscWave (k.down.advance fs).phase k.prim.shape) :=
  if_pos h

theorem Slot.tick_of_primary {fs : Num32} {sn : SnapshotBank} (h : sn.unisonMode ≠ 3#32) (k : Slot) :
    (k.tick fs sn).2 = (k.prim.tick fs).2 :=
  if_neg h

/-- The sum of three samples in [-1, 1] is in [-3, 3], rounded at each addition, so its third is in [-1, 1]. -/
theorem unisonMean_range {xp xu xd : Num32} (hp : inRange xp minusOne one = true) (hu : inRange xu minusOne one = true)
    (hd : inRange xd minusOne one = true) : inRange (unisonMean xp xu xd) minusOne one = true := by
  have htwo : two.isFinite = true ∧ two.val = 2 * 2 ^ 149 := by decide +kernel
  have hminusTwo : minusTwo.isFinite = true ∧ minusTwo.val = -2 * 2 ^ 149 := by decide +kernel
  have hthree : unisonCount.isFinite = true ∧ unisonCount.val = 3 * 2 ^ 149 := by decide +kernel
  have hminusThree : (f32 0xC0400000#32).isFinite = true ∧ (f32 0xC0400000#32).val = -3 * 2 ^ 149 := by decide +kernel
  have hpv := inRange_val hp
  have huv := inRange_val hu
  have hdv := inRange_val hd
  rw [minusOne_val, one_val] at hpv huv hdv
  have hpair : inRange (fadd xp xu) minusTwo two = true :=
    fadd_inRange (wave_finite hp) (wave_finite hu) hminusTwo.1 htwo.1 (by rw [hminusTwo.2]; omega) (by rw [htwo.2]; omega)
  have hpairVal := inRange_val hpair
  rw [hminusTwo.2, htwo.2] at hpairVal
  have hsum : inRange (fadd (fadd xp xu) xd) (f32 0xC0400000#32) unisonCount = true :=
    fadd_inRange (inRange_finite hpair hminusTwo.1 htwo.1) (wave_finite hd) hminusThree.1 hthree.1
      (by rw [hminusThree.2]; omega) (by rw [hthree.2]; omega)
  have hsumFinite := inRange_finite hsum hminusThree.1 hthree.1
  have hsumVal := inRange_val hsum
  rw [hminusThree.2, hthree.2] at hsumVal
  have hpos : 0 < unisonCount.val := by decide +kernel
  exact inRange_of_val (fdiv_not_nan hsumFinite hthree.1 hpos) (by decide +kernel) (by decide +kernel)
    (le_fdiv hsumFinite hthree.1 hpos (by decide +kernel) (by rw [minusOne_val, hthree.2]; omega))
    (fdiv_le hsumFinite hthree.1 hpos (by decide +kernel) (by rw [one_val, hthree.2]; omega))

/-- Settles O49: UNISON_SET_FREQ and the accumulators are the pseudocode, the output goes by the mode, and the average keeps the
range of its samples. -/
theorem unisonFrequenciesAndModes : Obligations.UnisonFrequenciesAndModes :=
  ⟨fun _ _ _ _ => rfl, fun _ _ _ => unisonMean_range,
    fun _ _ k => ⟨rfl, rfl, rfl, fun h => Slot.tick_of_primary h k, fun h => Slot.tick_of_average h k⟩⟩

/-! ### Detune 0 (R161, R162, R166 (b)) -/

/-- `exp2` is 1 at `-0` too: R9 gives the value at `+0` only, and monotonicity carries it over. -/
theorem exp2_of_feq_zero {x : Num32} (h : feq x zero = true) : exp2 x = one := by
  obtain ⟨hx, hz, hval⟩ := feq_iff.1 h
  have hbelow := Config.functions.exp2_mono x zero
    (fle_iff.2 ⟨by decide +kernel, hx, by rw [hval]; decide +kernel⟩) (fle_iff.2 ⟨hx, hz, hval.le⟩) (by decide +kernel)
  have habove := Config.functions.exp2_mono zero x
    (by decide +kernel) (fle_iff.2 ⟨hz, hx, hval.ge⟩) (fle_iff.2 ⟨hx, by decide +kernel, by rw [hval]; decide +kernel⟩)
  rw [Config.functions.exp2_zero, ← exp2_eq] at hbelow habove
  obtain ⟨hnan, hone, hle⟩ := fle_iff.1 hbelow
  have heq : (exp2 x).val = one.val := le_antisymm hle (fle_iff.1 habove).2.2
  exact eq_of_val hnan hone heq (by rw [heq]; decide +kernel)

/-- A zero divided by a positive value is a zero. -/
theorem fdiv_feq_zero {x y : Num32} (hx : feq x zero = true) (hy : y.isFinite = true) (h0 : 0 < y.val) :
    feq (fdiv x y) zero = true := by
  obtain ⟨hnan, hz, hval⟩ := feq_iff.1 hx
  have hxf : x.isFinite = true :=
    isFinite_between (fle_iff.2 ⟨hz, hnan, hval.ge⟩) (fle_iff.2 ⟨hnan, hz, hval.le⟩) (by decide +kernel) (by decide +kernel)
  rw [zero_val] at hval
  exact feq_iff.2 ⟨fdiv_not_nan hxf hy h0, hz, le_antisymm
    (fdiv_le hxf hy h0 hz (by rw [hval, zero_val]; omega)) (le_fdiv hxf hy h0 hz (by rw [hval, zero_val]; omega))⟩

theorem detuneRatio_of_zero_detune {sn : SnapshotBank} (h : feq sn.detuneCents zero = true) : detuneRatio sn = one :=
  exp2_of_feq_zero (fdiv_feq_zero h (by decide +kernel) (by decide +kernel))

/-- At detune 0 UNISON_SET_FREQ gives a legal frequency to all three oscillators, bit for bit. -/
theorem Slot.setFreq_of_zero_detune {fs f : Num32} {sn : SnapshotBank} (hfs : inRange fs fsMin fsMax = true)
    (hf : inRange f zero (fmul fs half) = true) (hd : feq sn.detuneCents zero = true) (k : Slot) :
    Slot.setFreq fs sn k f =
      { prim := k.prim.setFreq f, up := { k.up with freq := f }, down := { k.down with freq := f } } := by
  have hff : f.isFinite = true := inRange_finite hf (by decide +kernel) (half_fs_finite hfs)
  rw [Slot.setFreq, detuneRatio_of_zero_detune hd, fmul_one hff, fdiv_one hff, clampN_of_inRange hf]

/-- UNISON_TICK of a slot whose three oscillators agree: all three get the same phase, so the three samples are the same. -/
theorem Slot.tick_of_agreeing {fs : Num32} {sn : SnapshotBank} {k : Slot} (huf : k.up.freq = k.prim.freq)
    (hdf : k.down.freq = k.prim.freq) (hup : k.up.phase = k.prim.phase) (hdp : k.down.phase = k.prim.phase) :
    let r := k.tick fs sn
    let x := oscWave r.1.prim.phase r.1.prim.shape
    r.1.up.phase = r.1.prim.phase ∧ r.1.down.phase = r.1.prim.phase ∧
    r.2 = if sn.unisonMode = 3#32 then unisonMean x x x else x := by
  have hu : (k.up.advance fs).phase = (k.prim.advance fs).phase := by rw [UnisonCopy.advance, Osc.advance, huf, hup]
  have hd : (k.down.advance fs).phase = (k.prim.advance fs).phase := by rw [UnisonCopy.advance, Osc.advance, hdf, hdp]
  refine ⟨hu, hd, ?_⟩
  split
  case isTrue h =>
    rw [Slot.tick_of_average h, hu, hd]
    rfl
  case isFalse h => exact Slot.tick_of_primary h k

/-- Settles O50: the ratio is 1, so the three frequencies are `f` bit for bit, and oscillators that agree tick alike. -/
theorem zeroDetuneCollapses : Obligations.ZeroDetuneCollapses := by
  intro fs sn k shape f hfs hf hd hup hdp
  rw [Slot.render, Slot.setFreq_of_zero_detune hfs hf hd]
  exact ⟨rfl, rfl, rfl, Slot.tick_of_agreeing rfl rfl hup hdp⟩

end Sys2Proof.Machine
end

section
/-! ## START_NOTE (48_commands.md R285) -/

namespace Sys2Proof.Machine

/-- Settles O21: START_NOTE is `State.noteStarted`, which writes its clamps and resets with the same constants, and ENV_NOTE_ON
never leaves an envelope in IDLE. -/
theorem startNoteResult : Obligations.StartNoteResult :=
  ⟨exec_startNote, fun _ => Envelope.noteOn_not_idle _ _ _⟩

end Sys2Proof.Machine
end

section
/-! ## The range of the LFO (42_lfo.md R171) -/

namespace Sys2Proof.Machine

theorem fmul_comm_of_finite {x y : Num32} (hx : x.isFinite = true) (hy : y.isFinite = true) : fmul x y = fmul y x := by
  rw [fmul_finite hx hy, fmul_finite hy hx, Bool.xor_comm, Nat.mul_comm]

/-- A product with a factor in [-1, 1] is finite and no larger than the other factor. -/
theorem fmul_mag_le {x d : Num32} (hx : inRange x minusOne one = true) (hd : inRange d zero one = true) :
    (fmul x d).isFinite = true ∧ (fmul x d).mag ≤ d.mag := by
  rw [fmul_comm_of_finite (wave_finite hx) (unit_finite hd)]
  obtain ⟨hfinite, hle, hge⟩ := fmul_le_factor hd hx
  refine ⟨hfinite, ?_⟩
  rw [← natAbs_val, ← natAbs_val d]
  omega

/-- Settles O51: the sample is `sin2pi` of the advanced phase, in [-1, 1], times the depth, in [0, 1]. -/
theorem lfoWithinDepth : Obligations.LfoWithinDepth := by
  intro s hlegal
  have hs := State.legal_iff.1 hlegal
  have hsine : inRange (sin2pi s.lfoAdvance.lfoPhase) minusOne one = true := sin2pi_range (State.lfoAdvance_phaseOk hs)
  have hdepth : inRange s.snap.lfoDepth zero one = true := (SnapshotBank.legal_lfo hs.snap).2
  obtain ⟨hfinite, hmag⟩ : s.tickLfo.isFinite = true ∧ s.tickLfo.mag ≤ s.snap.lfoDepth.mag := fmul_mag_le hsine hdepth
  exact ⟨isNaN_of_isFinite hfinite, hmag⟩

end Sys2Proof.Machine
end

section
/-! ## The router's multipliers (43_router.md R181, R182)

The five multipliers are `multiplier dest` over the list of codes, so counting the ones among them is counting `dest` among the codes,
which are distinct. -/

namespace Sys2Proof.Machine

/-- The destination codes, in the order of the outputs of ROUTE (R181). -/
def routerCodes : List Word := [1#32, 2#32, 3#32, 4#32, 5#32]

/-- The five outputs of ROUTE, in the order of R181. -/
def Multipliers.toList (m : Multipliers) : List Num32 := [m.pitch, m.cutoff, m.amp, m.fold, m.xmod]

theorem route_toList (dest : Word) : (route dest).toList = routerCodes.map (multiplier dest) := rfl

theorem multiplier_eq_one {dest code : Word} : multiplier dest code = one ↔ code = dest := by
  have hne : zero ≠ one := by decide
  rw [multiplier]
  split
  case isTrue h => simp [h]
  case isFalse h => simp [hne, Ne.symm h]

theorem multiplier_eq_zero {dest code : Word} : multiplier dest code = zero ↔ ¬code = dest := by
  have hne : one ≠ zero := by decide
  rw [multiplier]
  split
  case isTrue h => simp [h, hne]
  case isFalse h => simp [Ne.symm h]

theorem count_one_multipliers (dest : Word) (codes : List Word) : (codes.map (multiplier dest)).count one = codes.count dest := by
  rw [List.count, List.countP_map, List.count]
  exact List.countP_congr fun code _ => by simp [multiplier_eq_one]

theorem count_zero_multipliers (dest : Word) (codes : List Word) :
    (codes.map (multiplier dest)).count zero = codes.length - codes.count dest := by
  rw [List.count, List.countP_map, List.length_eq_countP_add_countP (· == dest), ← List.count, Nat.add_sub_cancel_left]
  exact List.countP_congr fun code _ => by simp [multiplier_eq_zero]

theorem mem_routerCodes {dest : Word} : dest ∈ routerCodes ↔ 1 ≤ dest.toNat ∧ dest.toNat ≤ 5 := by
  simp only [routerCodes, List.mem_cons, List.not_mem_nil, or_false, ← BitVec.toNat_inj, BitVec.toNat_ofNat]
  omega

theorem count_routerCodes_of_mem {dest : Word} (h : dest ∈ routerCodes) : routerCodes.count dest = 1 :=
  List.count_eq_one_of_mem (by decide) h

/-- R182 for the valid codes. -/
theorem route_one_hot {dest : Word} (h : 1 ≤ dest.toNat ∧ dest.toNat ≤ 5) :
    (route dest).toList.count one = 1 ∧ (route dest).toList.count zero = 4 := by
  rw [route_toList, count_one_multipliers, count_zero_multipliers, count_routerCodes_of_mem (mem_routerCodes.2 h)]
  exact ⟨rfl, rfl⟩

/-- R182 for every other selector. -/
theorem route_all_zero {dest : Word} (h : ¬(1 ≤ dest.toNat ∧ dest.toNat ≤ 5)) : (route dest).toList.count zero = 5 := by
  rw [route_toList, count_zero_multipliers, List.count_eq_zero_of_not_mem (mt mem_routerCodes.1 h)]
  rfl

/-- Settles O52: each output is `multiplier dest` at its own code, and the codes 1 to 5 are distinct. -/
theorem routerIsOneHot : Obligations.RouterIsOneHot :=
  ⟨fun _ => ⟨rfl, rfl, rfl, rfl, rfl⟩, fun _ => ⟨route_one_hot, route_all_zero⟩⟩

end Sys2Proof.Machine
end

section
/-! ## One call of ENV_NEXT (44_envelope.md R199 to R205) -/

namespace Sys2Proof.Machine

/-- A counter of at least 2 counts down and stays a counter. -/
theorem decCount_of_two_le {c : Word} (h : 2 ≤ c.toNat) : decCount c = c - 1#32 ∧ decCount c ≠ 0#32 := by
  have hne : c ≠ 0#32 := by rintro rfl; simp at h
  have hdec := decCount_toNat hne
  refine ⟨if_neg hne, fun hzero => ?_⟩
  rw [hzero, BitVec.toNat_ofNat] at hdec
  omega

theorem decCount_of_eq_one {c : Word} (h : c = 1#32) : decCount c = 0#32 := by
  rw [h]
  rfl

/-- The last count of a ramp stage or an earlier one: the case split of R205. -/
theorem eq_one_or_two_le_of_ne_zero {c : Word} (h : c ≠ 0#32) : c = 1#32 ∨ 2 ≤ c.toNat := by
  simp only [ne_eq, ← BitVec.toNat_inj, BitVec.toNat_ofNat] at h ⊢
  omega

variable {fs : Num32} {q : EnvParams} {e : Envelope}

theorem Envelope.next_eq_nextAttack (hs : e.stage = .attack) : e.next fs q = e.nextAttack fs q := by rw [next, hs]

theorem Envelope.next_of_attack (hs : e.stage = .attack) (hc : 2 ≤ e.cnt.toNat) :
    e.next fs q = { e with level := fmin (fadd e.level e.step) one, cnt := e.cnt - 1#32 } := by
  obtain ⟨hdec, hne⟩ := decCount_of_two_le hc
  rw [next_eq_nextAttack hs, ← hdec]
  exact if_neg hne

theorem Envelope.next_of_attack_end (hs : e.stage = .attack) (hc : e.cnt = 1#32) :
    e.next fs q = Envelope.enterDecay fs q { e with level := one } := by
  rw [next_eq_nextAttack hs]
  exact if_pos (decCount_of_eq_one hc)

theorem Envelope.next_eq_nextDecay (hs : e.stage = .decay) : e.next fs q = e.nextDecay := by rw [next, hs]

theorem Envelope.next_of_decay (hs : e.stage = .decay) (hc : 2 ≤ e.cnt.toNat) :
    e.next fs q = { e with level := fmax (fsub e.level e.step) e.target, cnt := e.cnt - 1#32 } := by
  obtain ⟨hdec, hne⟩ := decCount_of_two_le hc
  rw [next_eq_nextDecay hs, ← hdec]
  exact if_neg hne

theorem Envelope.next_of_decay_end (hs : e.stage = .decay) (hc : e.cnt = 1#32) :
    e.next fs q = { stage := .sustain, level := e.target, step := zero, target := e.target, cnt := 0#32 } := by
  rw [next_eq_nextDecay hs, ← decCount_of_eq_one hc]
  exact if_pos (decCount_of_eq_one hc)

theorem Envelope.next_of_sustain (hs : e.stage = .sustain) : e.next fs q = e := by rw [next, hs]

theorem Envelope.next_eq_nextRelease (hs : e.stage = .release) : e.next fs q = e.nextRelease := by rw [next, hs]

theorem Envelope.next_of_release (hs : e.stage = .release) (hc : 2 ≤ e.cnt.toNat) :
    e.next fs q = { e with level := fmax (fsub e.level e.step) zero, cnt := e.cnt - 1#32 } := by
  obtain ⟨hdec, hne⟩ := decCount_of_two_le hc
  rw [next_eq_nextRelease hs, ← hdec]
  exact if_neg hne

theorem Envelope.next_of_release_end (hs : e.stage = .release) (hc : e.cnt = 1#32) : e.next fs q = e.toReset := by
  rw [next_eq_nextRelease hs]
  exact if_pos (decCount_of_eq_one hc)

end Sys2Proof.Machine

namespace Sys2Proof.Machine

/-- Settles O54: the arms of ENV_NEXT one by one, a ramp stage split at its last count. -/
theorem envelopeNextByStage : Obligations.EnvelopeNextByStage :=
  ⟨fun _ _ => ⟨rfl, rfl⟩, fun _ _ _ => ⟨Envelope.next_of_attack, Envelope.next_of_attack_end, Envelope.next_of_decay,
    Envelope.next_of_decay_end, Envelope.next_of_sustain, Envelope.next_of_release, Envelope.next_of_release_end,
    Envelope.next_of_idle⟩⟩

end Sys2Proof.Machine
end

section
/-! ## The calls of a ramp stage (44_envelope.md R205, R207) -/

namespace Sys2Proof.Machine

/-- The stages that count down (R205). -/
def Stage.IsRamp (st : Stage) : Prop := st = .attack ∨ st = .decay ∨ st = .release

variable {fs : Num32} {q : EnvParams} {e : Envelope}

/-- Before its last count a ramp stage changes only the level and the counter. -/
theorem Envelope.next_of_ramp (hs : e.stage.IsRamp) (hc : 2 ≤ e.cnt.toNat) :
    ∃ l, e.next fs q = { e with level := l, cnt := e.cnt - 1#32 } := by
  obtain hs | hs | hs := hs
  · exact ⟨_, next_of_attack hs hc⟩
  · exact ⟨_, next_of_decay hs hc⟩
  · exact ⟨_, next_of_release hs hc⟩

/-- Fewer calls than the counter leave the ramp stage in progress, counted down by that many. -/
theorem Envelope.iterate_next_of_ramp (hs : e.stage.IsRamp) {k : Nat} (hk : k < e.cnt.toNat) :
    ∃ l c, (next fs q)^[k] e = { e with level := l, cnt := c } ∧ c.toNat = e.cnt.toNat - k := by
  induction k with
  | zero => exact ⟨e.level, e.cnt, rfl, rfl⟩
  | succ k ih =>
    obtain ⟨l, c, hiter, hcount⟩ := ih (by omega)
    obtain ⟨l', hnext⟩ :=
      next_of_ramp (fs := fs) (q := q) (e := { e with level := l, cnt := c }) hs (by simp only; omega)
    refine ⟨l', c - 1#32, by rw [Function.iterate_succ_apply', hiter, hnext], ?_⟩
    rw [BitVec.toNat_sub_of_le (by simp only [BitVec.le_def, BitVec.toNat_ofNat]; omega), BitVec.toNat_ofNat]
    omega

/-- As many calls as the counter: the last of them is made in the ramp stage at count 1. -/
theorem Envelope.iterate_next_cnt (hs : e.stage.IsRamp) (h0 : e.cnt ≠ 0#32) :
    ∃ l, (next fs q)^[e.cnt.toNat] e = next fs q { e with level := l, cnt := 1#32 } := by
  obtain ⟨n, hn⟩ : ∃ n, e.cnt.toNat = n + 1 := Nat.exists_eq_succ_of_ne_zero fun h => h0 (BitVec.eq_of_toNat_eq h)
  obtain ⟨l, c, hiter, hcount⟩ := iterate_next_of_ramp (fs := fs) (q := q) hs (k := n) (by omega)
  have hc : c = 1#32 := BitVec.eq_of_toNat_eq (by rw [hcount, hn, BitVec.toNat_ofNat]; omega)
  exact ⟨l, by rw [hn, Function.iterate_succ_apply', hiter, hc]⟩

end Sys2Proof.Machine

namespace Sys2Proof.Machine

/-- Settles O55: the calls before the last keep the stage and count down, and the last one is the stage's end of R200, R201
or R203, which does not look at the level. -/
theorem rampLastsItsCount : Obligations.RampLastsItsCount := by
  intro fs q e h0
  refine ⟨fun hs k hk => ?_, fun hs => ?_, fun hs => ?_, fun hs => ?_⟩
  · obtain ⟨l, c, hiter, hcount⟩ := Envelope.iterate_next_of_ramp (fs := fs) (q := q) hs hk
    rw [hiter]
    exact ⟨rfl, hcount⟩
  · obtain ⟨l, hlast⟩ := Envelope.iterate_next_cnt (fs := fs) (q := q) (.inl hs) h0
    exact hlast.trans (Envelope.next_of_attack_end hs rfl)
  · obtain ⟨l, hlast⟩ := Envelope.iterate_next_cnt (fs := fs) (q := q) (.inr (.inl hs)) h0
    exact hlast.trans (Envelope.next_of_decay_end hs rfl)
  · obtain ⟨l, hlast⟩ := Envelope.iterate_next_cnt (fs := fs) (q := q) (.inr (.inr hs)) h0
    exact hlast.trans (Envelope.next_of_release_end hs rfl)

end Sys2Proof.Machine
end

section
/-! ## The direction of the level (44_envelope.md R207, R208) -/

namespace Sys2Proof.Machine

variable {fs : Num32} {q : EnvParams} {e : Envelope}

/-- A legal envelope in a ramp stage has a count left (10_state.md R41). -/
theorem Envelope.cnt_ne_zero_of_ramp (he : e.legal = true) (hs : e.stage.IsRamp) : e.cnt ≠ 0#32 := by
  obtain ⟨-, -, -, hok⟩ := Envelope.legal_iff.1 he
  obtain hs | hs | hs := hs <;> simp only [stageOk, hs, Bool.and_eq_true, decide_eq_true_eq] at hok <;> exact hok.2

/-- The level of a legal decay does not lie below its target (R201). -/
theorem Envelope.target_le_level_of_decay (he : e.legal = true) (hs : e.stage = .decay) : fle e.target e.level = true := by
  obtain ⟨-, -, -, hok⟩ := Envelope.legal_iff.1 he
  simp only [stageOk, hs, Bool.and_eq_true] at hok
  exact hok.1

/-- A decay that is entered keeps the level; one shorter than a sample goes to the sustain level (R197, R208). -/
theorem Envelope.enterDecay_level : ((e.enterDecay fs q).stage ≠ .sustain → (e.enterDecay fs q).level = e.level) ∧
    ((e.enterDecay fs q).stage = .sustain → (e.enterDecay fs q).level = q.sustain) := by
  cases hlen : fge (stageLen fs q.decay) one
  case true => rw [enterDecay_of_decay hlen]; exact ⟨fun _ => rfl, nofun⟩
  case false => rw [enterDecay_of_no_decay hlen]; exact ⟨fun hne => absurd rfl hne, fun _ => rfl⟩

theorem Envelope.next_attack_rises (he : e.legal = true) (hs : e.stage = .attack) :
    ((e.next fs q).stage ≠ .sustain → fle e.level (e.next fs q).level = true) ∧
      ((e.next fs q).stage = .sustain → (e.next fs q).level = q.sustain) := by
  obtain ⟨hlevel, hstep, -, -⟩ := Envelope.legal_iff.1 he
  obtain hc | hc := eq_one_or_two_le_of_ne_zero (cnt_ne_zero_of_ramp he (.inl hs))
  · rw [next_of_attack_end hs hc]
    obtain ⟨hkeep, hskip⟩ := enterDecay_level (fs := fs) (q := q) (e := { e with level := one })
    exact ⟨fun hne => by rw [hkeep hne]; exact (inRange_iff.1 hlevel).2, hskip⟩
  · rw [next_of_attack hs hc]
    exact ⟨fun _ => (attack_level hlevel hstep).2, fun hsus => by simp [hs] at hsus⟩

theorem Envelope.next_decay_falls (he : e.legal = true) (hs : e.stage = .decay) :
    fle (e.next fs q).level e.level = true ∧ fle e.target (e.next fs q).level = true := by
  obtain ⟨hlevel, hstep, htarget, -⟩ := Envelope.legal_iff.1 he
  have habove := target_le_level_of_decay he hs
  obtain hc | hc := eq_one_or_two_le_of_ne_zero (cnt_ne_zero_of_ramp he (.inr (.inl hs)))
  · rw [next_of_decay_end hs hc]
    exact ⟨habove, fle_refl (isNaN_of_isFinite (unit_finite htarget))⟩
  · rw [next_of_decay hs hc]
    exact (fall_level hlevel hstep htarget habove).2

theorem Envelope.next_release_falls (he : e.legal = true) (hs : e.stage = .release) :
    fle (e.next fs q).level e.level = true := by
  obtain ⟨hlevel, hstep, -, -⟩ := Envelope.legal_iff.1 he
  have hnonneg : fle zero e.level = true := (inRange_iff.1 hlevel).1
  obtain hc | hc := eq_one_or_two_le_of_ne_zero (cnt_ne_zero_of_ramp he (.inr (.inr hs)))
  · rw [next_of_release_end hs hc]
    exact hnonneg
  · rw [next_of_release hs hc]
    exact (fall_level hlevel hstep zero_unit hnonneg).2.1

end Sys2Proof.Machine

namespace Sys2Proof.Machine

/-- Settles O56: stage by stage, a ramp's step clamped on the side it moves to, and its end on that side as well but for the
decay that is skipped. -/
theorem envelopeIsMonotone : Obligations.EnvelopeIsMonotone :=
  fun _ _ _ _ _ he => ⟨fun hs => (Envelope.next_attack_rises he hs).1, fun hs => (Envelope.next_attack_rises he hs).2,
    Envelope.next_decay_falls he, fun hs => congrArg Envelope.level (Envelope.next_of_sustain hs),
    Envelope.next_release_falls he⟩

end Sys2Proof.Machine
end

section
/-! ## FOLD (45_wavefolder.md R221, R222) -/

namespace Sys2Proof.Machine

/-- A finite value times a zero is a zero. -/
theorem fmul_val_zero {x z : Num32} (hx : x.isFinite = true) (hz : z.isFinite = true) (h : z.val = 0) :
    (fmul x z).isFinite = true ∧ (fmul x z).val = 0 := by
  have hzero : zero.isNaN = false := by decide
  have hle : (fmul x z).val ≤ zero.val := fmul_le hx hz hzero (by rw [h, zero_val]; omega)
  have hge : zero.val ≤ (fmul x z).val := le_fmul hx hz hzero (by rw [h, zero_val]; omega)
  have hnan := fmul_not_nan hx hz
  exact ⟨isFinite_between (fle_iff.2 ⟨hzero, hnan, hge⟩) (fle_iff.2 ⟨hnan, hzero, hle⟩) (by decide) (by decide),
    le_antisymm hle hge⟩

/-- A drive that is a zero of either sign or a NaN is clamped to a zero (R10). -/
theorem clampN_drive_val_zero {drive : Num32} (h : feq drive zero = true ∨ drive.isNaN = true) :
    (clampN drive zero one).val = 0 := by
  rcases h with hzero | hnan
  · obtain ⟨hd, -, hval⟩ := feq_iff.1 hzero
    have hunit : inRange drive zero one = true :=
      inRange_of_val hd (by decide) (by decide) hval.ge (by rw [hval]; decide +kernel)
    rw [clampN_of_inRange hunit, hval, zero_val]
  · rw [clampN_of_isNaN zero one hnan, zero_val]

/-- The gain of FOLD at such a drive is 1 bit for bit. -/
theorem foldGain_of_zero_drive {drive : Num32} (h : feq drive zero = true ∨ drive.isNaN = true) :
    foldGain drive = one := by
  have hunit : inRange (clampN drive zero one) zero one = true := clampN_inRange drive (by decide +kernel)
  obtain ⟨hf, hval⟩ := fmul_val_zero (x := foldK) (by decide) (unit_finite hunit) (clampN_drive_val_zero h)
  exact fadd_zero_right (by decide) hf hval (by decide +kernel)

/-- REFLECT is the identity on [-1, 1], bit for bit. -/
theorem reflect_of_inRange {u : Num32} (h : inRange u minusOne one = true) : reflect u = u := by
  have hnan := isNaN_of_isFinite (wave_finite h)
  obtain ⟨hlo, hhi⟩ := inRange_iff.1 h
  have habove : fgt u one = false := (flt_eq_false (by decide) hnan).2 hhi
  have hbelow : flt u minusOne = false := (flt_eq_false hnan (by decide)).2 hlo
  simp [reflect, habove, hbelow]

/-- FOLD lies in [-1, 1] for every input and drive, a NaN or an infinity included (R222 (c)). -/
theorem fold_range (x drive : Num32) : inRange (fold x drive) minusOne one = true :=
  clampN_inRange _ (by decide +kernel)

/-- FOLD without drive is the identity on [-1, 1], bit for bit (R222 (a)). -/
theorem fold_of_zero_drive {x drive : Num32} (hx : inRange x minusOne one = true)
    (hd : feq drive zero = true ∨ drive.isNaN = true) : fold x drive = x := by
  rw [fold, foldGain_of_zero_drive hd, one_fmul (wave_finite hx), reflect_of_inRange hx, reflect_of_inRange hx,
    clampN_of_inRange hx]

/-- Settles O57: the curve is its pseudocode, the last clamp bounds it, and without drive the gain is 1, so that nothing is
reflected or clamped. -/
theorem foldCurveBoundsAndIdentity : Obligations.FoldCurveBoundsAndIdentity :=
  ⟨fun _ _ => rfl, fold_range, fun _ _ => fold_of_zero_drive⟩

end Sys2Proof.Machine
end

section
/-! ## The filter (46_filter.md R231 to R235) -/

namespace Sys2Proof.Machine

/-- Settles O58: each operation is its pseudocode, the coefficients of R234 under their names, so every clause is the definition of
the operation. -/
theorem filterOperations : Obligations.FilterOperations :=
  ⟨fun _ _ => rfl, fun _ _ => rfl, fun _ => rfl, fun _ _ _ => rfl⟩

/-! ### Rounding is monotone, so a quotient of binary32 bounds bounds the quotient (00_scope.md R8) -/

/-- The integer part of a quotient is monotone in the quotient. -/
theorem div_le_div_of_cross {n d n' d' : Nat} (hd : 0 < d) (hd' : 0 < d') (h : n * d' ≤ n' * d) : n / d ≤ n' / d' := by
  refine (Nat.le_div_iff_mul_le hd').2 (Nat.le_of_mul_le_mul_right ?_ hd)
  calc n / d * d' * d = n / d * d * d' := Nat.mul_right_comm _ _ _
    _ ≤ n * d' := Nat.mul_le_mul_right _ (Nat.div_mul_le_self n d)
    _ ≤ n' * d := h

/-- With equal integer parts the remainders compare as the quotients do. -/
theorem mod_cross_le {n d n' d' : Nat} (h : n * d' ≤ n' * d) (hq : n / d = n' / d') : n % d * d' ≤ n' % d' * d := by
  have hn : n * d' = n' / d' * (d * d') + n % d * d' := by
    conv_lhs => rw [← Nat.div_add_mod n d, hq]
    ring
  have hn' : n' * d = n' / d' * (d * d') + n' % d' * d := by
    conv_lhs => rw [← Nat.div_add_mod n' d']
    ring
  omega

/-- A remainder that reaches half of its unit, or passes it, does so where it is the larger part of its unit as well. -/
theorem half_le_of_cross {r u r' u' : Nat} (hu : 0 < u) (hu' : 0 < u') (h : r * u' ≤ r' * u) :
    (u ≤ 2 * r → u' ≤ 2 * r') ∧ (u < 2 * r → u' < 2 * r') := by
  have htwice : 2 * r * u' ≤ 2 * r' * u := by rw [mul_assoc, mul_assoc]; exact Nat.mul_le_mul_left 2 h
  refine ⟨fun hr => Nat.le_of_mul_le_mul_right ?_ hu, fun hr => Nat.lt_of_mul_lt_mul_right (a := u) ?_⟩
  · rw [mul_comm]; exact (Nat.mul_le_mul_right u' hr).trans htwice
  · rw [mul_comm]; exact (Nat.mul_lt_mul_of_pos_right hr hu').trans_le htwice

/-- Rounding keeps order, also where neither exact value is representable: the larger value has the larger exponent, or the same
exponent and the larger significand, or the same significand and the larger remainder. -/
theorem roundMag_mono {n d n' d' : Nat} (hd : 0 < d) (hd' : 0 < d') (h : n * d' ≤ n' * d) : roundMag n d ≤ roundMag n' d' := by
  have hlog : (n / d).log2 - 23 ≤ (n' / d').log2 - 23 := by
    rw [Nat.log2_eq_log_two, Nat.log2_eq_log_two]
    exact Nat.sub_le_sub_right (Nat.log_mono_right (div_le_div_of_cross hd hd' h)) 23
  have hlt := (significand_bounds n d).1
  have hge := (significand_bounds n' d').2
  unfold roundMag
  refine min_le_min_right _ ?_
  generalize (n / d).log2 - 23 = k at *
  generalize (n' / d').log2 - 23 = k' at *
  rcases Nat.lt_or_eq_of_le hlog with hk | rfl
  · have hge := hge (by omega)
    have hmul : (k + 1) * 2 ^ 23 ≤ k' * 2 ^ 23 := Nat.mul_le_mul_right _ hk
    split <;> omega
  have hunit : 0 < d * 2 ^ k := Nat.mul_pos hd (by positivity)
  have hunit' : 0 < d' * 2 ^ k := Nat.mul_pos hd' (by positivity)
  have hcross : n * (d' * 2 ^ k) ≤ n' * (d * 2 ^ k) := by
    rw [← mul_assoc, ← mul_assoc]; exact Nat.mul_le_mul_right _ h
  have hq := div_le_div_of_cross hunit hunit' hcross
  have hr := mod_cross_le hcross
  generalize d * 2 ^ k = u at *
  generalize d' * 2 ^ k = u' at *
  rcases Nat.lt_or_eq_of_le hq with hq | hq
  · split <;> omega
  obtain ⟨hup, hupStrict⟩ := half_le_of_cross hunit hunit' (hr hq)
  rw [hq]
  split <;> split <;> omega

/-- The quotient of positive values, as a rounded magnitude. -/
theorem fdiv_val_of_pos {x y : Num32} (hx : x.isFinite = true) (hy : y.isFinite = true) (hx0 : 0 < x.val) (hy0 : 0 < y.val) :
    (fdiv x y).val = magOf (roundMag (x.mag * 2 ^ 149) y.mag) := by
  rw [fdiv_finite hx hy hy0, packNum_val _ (roundMag_le_infMag _ _), sign_of_pos hx0, sign_of_pos hy0]
  rfl

/-- A quotient of positive values does not fall when its dividend grows and its divisor falls. -/
theorem fdiv_mono {x y x' y' : Num32} (hx : x.isFinite = true) (hy : y.isFinite = true) (hx' : x'.isFinite = true)
    (hy' : y'.isFinite = true) (hx0 : 0 < x.val) (hy0 : 0 < y'.val) (hxx : x.val ≤ x'.val) (hyy : y'.val ≤ y.val) :
    (fdiv x y).val ≤ (fdiv x' y').val := by
  rw [fdiv_val_of_pos hx hy hx0 (by omega), fdiv_val_of_pos hx' hy' (by omega) hy0, Int.ofNat_le,
    magOf_le_iff (roundMag_le_infMag _ _) (roundMag_le_infMag _ _)]
  rw [val_eq_mag hx0.le, val_eq_mag (by omega)] at hxx
  rw [val_eq_mag hy0.le, val_eq_mag (by omega)] at hyy
  rw [val_eq_mag hy0.le] at hy0
  refine roundMag_mono (by omega) (by omega) (Nat.mul_le_mul (Nat.mul_le_mul_right _ ?_) ?_) <;> omega

/-! ### The coefficients of a legal filter (R234) -/

/-- A legal cutoff over a legal sample rate is an argument for which R9 bounds `tanpi`. -/
theorem SvFilter.gainArg_range {fs : Num32} {f : SvFilter} (hfs : inRange fs fsMin fsMax = true) (hf : f.legal = true) :
    inRange (fdiv f.cutoff fs) tanpiArgMin tanpiArgMax = true := by
  obtain ⟨hcutoff, -⟩ := SvFilter.legal_iff.1 hf
  obtain ⟨hlo, hhi⟩ := inRange_val hcutoff
  obtain ⟨hfsLo, hfsHi⟩ := inRange_val hfs
  have hcutoffFinite := inRange_finite hcutoff (by decide +kernel) (by decide +kernel)
  have hmin : 0 < cutoffMin.val := by decide +kernel
  rw [constants_tanpi.1, constants_tanpi.2]
  refine inRange_of_val (fdiv_not_nan hcutoffFinite (fs_finite hfs) (fs_pos hfs)) (by decide +kernel) (by decide +kernel) ?_ ?_
  · exact fdiv_mono (by decide +kernel) (by decide +kernel) hcutoffFinite (fs_finite hfs) hmin (fs_pos hfs) hlo hfsHi
  · exact fdiv_mono hcutoffFinite (fs_finite hfs) (by decide +kernel) (by decide +kernel) (by omega) (by decide +kernel) hhi hfsLo

/-- `g` is finite and positive. -/
theorem SvFilter.gain_pos {fs : Num32} {f : SvFilter} (hfs : inRange fs fsMin fsMax = true) (hf : f.legal = true) :
    (f.gain fs).isFinite = true ∧ flt zero (f.gain fs) = true := by
  obtain ⟨hlo, hhi⟩ := inRange_iff.1 (SvFilter.gainArg_range hfs hf)
  rw [SvFilter.gain, tanpi_eq]
  exact Config.functions.tanpi_range _ hlo hhi

/-- `R2`, the reciprocal of a legal resonance, is in [1/16, 2]. -/
theorem SvFilter.damping_range {f : SvFilter} (hf : f.legal = true) :
    inRange f.damping (f32 0x3D800000#32) (f32 0x40000000#32) = true := by
  obtain ⟨-, hres⟩ := SvFilter.legal_iff.1 hf
  obtain ⟨hlo, hhi⟩ := inRange_val hres
  have hresFinite := inRange_finite hres (by decide +kernel) (by decide +kernel)
  rw [show qMin.val = 2 ^ 148 by decide +kernel] at hlo
  rw [show qMax.val = 2 ^ 153 by decide +kernel] at hhi
  have hpos : 0 < f.res.val := by omega
  refine inRange_of_val (fdiv_not_nan finite_consts.2.1 hresFinite hpos) (by decide +kernel) (by decide +kernel) ?_ ?_
  · refine le_fdiv finite_consts.2.1 hresFinite hpos (by decide +kernel) ?_
    rw [one_val, show (f32 0x3D800000#32).val = 2 ^ 145 by decide +kernel]; omega
  · refine fdiv_le finite_consts.2.1 hresFinite hpos (by decide +kernel) ?_
    rw [one_val, show (f32 0x40000000#32).val = 2 ^ 150 by decide +kernel]; omega

/-- Settles O59: the argument of `tanpi` stays between the quotients of the bounds, since rounding is monotone, and `1 / Q` between
the exact reciprocals of 16 and 0.5. -/
theorem filterCoefficientBounds : Obligations.FilterCoefficientBounds := fun _ _ hfs hf =>
  ⟨(SvFilter.gain_pos hfs hf).1, (SvFilter.gain_pos hfs hf).2, SvFilter.damping_range hf⟩

end Sys2Proof.Machine
end

section
/-! ## What every command and every step answers (48_commands.md R280, 60_exceptions.md R310) -/

namespace Sys2Proof.Machine

/-- No arm of `exec` faults or refuses: past its guard a command is an update of the state. -/
theorem exec_answers_next (i : Instr) (s : State) : ∃ t, exec i s = .next t := by
  cases i
  case setParam idx value =>
    simp only [exec, execSetParam]
    split <;> exact ⟨_, rfl⟩
  case stopNote tail =>
    simp only [exec, execStopNote]
    split
    case isTrue => exact ⟨_, rfl⟩
    case isFalse => cases tail <;> exact ⟨_, rfl⟩
  case renderBlock nch num start =>
    simp only [exec, execRenderBlock]
    split <;> exact ⟨_, rfl⟩
  -- the arms without a guard
  all_goals exact ⟨_, rfl⟩

theorem step_answers_next (s : State) : ∃ t, step s = .next t := by
  unfold step
  split
  case h_3 w rest _ => exact exec_answers_next (decode w) _
  all_goals exact ⟨_, rfl⟩

/-- Settles O7: a step answers by its move, and the move of an acceptance by its command. -/
theorem everyStepAnswersNext : Obligations.EveryStepAnswersNext := ⟨exec_answers_next, step_answers_next⟩

end Sys2Proof.Machine
end

section
/-! ## NOP, PREPARE, STOP_NOTE and RENDER_BLOCK; the reset pulse (48_commands.md R281 to R287, 70_reset_and_hazards.md R340) -/

namespace Sys2Proof.Machine

theorem decode_of_nop {w : Word64} (h : opField w = 0x00#8) : decode w = .nop := by
  simp [decode, h]

/-- Settles O15: a word with the opcode of NOP decodes to NOP, whose meaning is the state itself. -/
theorem nopChangesNothing : Obligations.NopChangesNothing := by
  refine ⟨fun s => rfl, fun w s hop => ?_⟩
  rw [decode_of_nop hop]
  rfl

/-- Settles O17: PREPARE clears the datapath with the values of `State.reset`, so both forms are its definition. -/
theorem prepareResult : Obligations.PrepareResult := ⟨fun _ _ => rfl, fun _ _ => rfl⟩

theorem exec_stopNote_of_idle {s : State} (h : s.life = .idle) (tail : Bool) : exec (.stopNote tail) s = .next s :=
  if_pos h

theorem exec_stopNote_tail {s : State} (h : s.life ≠ .idle) : exec (.stopNote true) s = .next s.stopWithTail :=
  if_neg h

theorem exec_stopNote_atOnce {s : State} (h : s.life ≠ .idle) : exec (.stopNote false) s = .next s.stopAtOnce :=
  if_neg h

/-- Settles O22: the three cases of STOP_NOTE, each with its update written out. -/
theorem stopNoteResult : Obligations.StopNoteResult :=
  fun _ => ⟨exec_stopNote_of_idle, exec_stopNote_tail, exec_stopNote_atOnce⟩

theorem exec_renderBlock_of_idle {s : State} (h : s.life = .idle) (nch : BitVec 8) (num : BitVec 16) (start : Word) :
    exec (.renderBlock nch num start) s = .next s :=
  if_pos h

theorem exec_renderBlock {s : State} (h : s.life ≠ .idle) (nch : BitVec 8) (num : BitVec 16) (start : Word) :
    exec (.renderBlock nch num start) s = .next (s.beginBlock nch num start) :=
  if_neg h

theorem toNat_pos_iff_ne_zero (num : BitVec 16) : 0 < num.toNat ↔ num ≠ 0#16 := by bv_omega

/-- Settles O23: past the idle guard the state is `State.beginBlock`, and a tick remains unless `num` is 0. -/
theorem renderBlockStart : Obligations.RenderBlockStart := by
  refine fun nch num start s => ⟨fun h => exec_renderBlock_of_idle h nch num start, fun h => ?_⟩
  rw [exec_renderBlock h, State.beginBlock, decide_eq_decide.2 (toNat_pos_iff_ne_zero num)]
  rfl

/-- Settles O35: on the reset input's turn the move is the reset pulse. -/
theorem resetPulse : Obligations.ResetPulse := by
  intro s ts ht
  have hmove : s.nextMove = .reset := by simp [State.nextMove, ht]
  rw [step, hmove]
  simp only [State.resetPulse, State.endTurn, ht, List.tail_cons]

end Sys2Proof.Machine
end

section
/-! ## VOICE_TICK and the words of `OUT` it writes (47_voice_renderer.md R250 to R262) -/

namespace Sys2Proof.Machine

/-- Settles O31: each value of the tick is a definition of its own, so the ten steps in order are `State.voiceTick`. -/
theorem voiceTickOrder : Obligations.VoiceTickOrder := fun _ _ => rfl

/-- Settles O32: the tick's writes to `OUT` are its channel loop at one sample index. -/
theorem tickOutputWords : Obligations.TickOutputWords := by
  intro s ch i hlt
  have hout : s.blockTick.out = writeChannels s.out (s.blk.start + s.blk.n) s.tickSample s.blk.nch.toNat := by
    rw [State.blockTick_of_lt hlt, State.voiceTick_out]
  rw [State.outMap, hout, outRead_writeChannels]
  simp only [and_comm, State.outMap]

end Sys2Proof.Machine
end

section
/-! ## The block in progress, tick by tick (47_voice_renderer.md R263, 48_commands.md R287, R288) -/

namespace Sys2Proof.Machine

/-- While `BUSY = 1` the move is a tick on the sequencer's turn, and when no turn is laid down (log entry 5). -/
theorem nextMove_of_busy {s : State} (hb : s.busy = true) (ht : s.turns = [] ∨ s.turns.head? = some .sequencer) :
    s.nextMove = .tick := by
  rcases ht with ht | ht
  · simp [State.nextMove, ht, hb]
  · obtain ⟨ts, hts⟩ : ∃ ts, s.turns = .sequencer :: ts := List.head?_eq_some_iff.1 ht
    simp [State.nextMove, hts, hb]

theorem step_of_tick {s : State} (h : s.nextMove = .tick) : step s = .next s.endTurn.blockTick := by
  rw [step, h]

/-- Settles O10: the step is a turn of the block's loop, with a tick left or with none. -/
theorem busyStepIsOneTick : Obligations.BusyStepIsOneTick := by
  intro s hb ht
  rw [step_of_tick (nextMove_of_busy hb ht)]
  refine ⟨fun hlt => ?_, fun hle => ?_⟩
  · rw [State.blockTick_of_lt (s := s.endTurn) hlt]
    rfl
  · rw [State.blockTick_of_not_lt (s := s.endTurn) (Nat.not_lt.2 hle)]
    rfl

/-! ### A run of samples without the block registers (R262, R263) -/

/-- The part of a tick that does not concern the block registers: one sample, written at index `i` of the channels below `nch`. -/
def State.sampleAt (nch : BitVec 8) (i : Word) (s : State) : State :=
  { s.voiceTick 0#32 with out := writeChannels s.out i s.tickSample nch.toNat }

/-- `k` samples in a row, the first at index `i`. -/
def State.samples (nch : BitVec 8) : Nat → Word → State → State
  | 0, _, s => s
  | k + 1, i, s => State.samples nch k (i + 1#32) (s.sampleAt nch i)

/-- VOICE_TICK is a sample at the index of R262. -/
theorem State.voiceTick_eq_sampleAt (s : State) (n : Word) : s.voiceTick n = s.sampleAt s.blk.nch (s.blk.start + n) := rfl

/-- No sample reads or writes the block registers and `BUSY`. -/
theorem State.samples_withBlock (nch : BitVec 8) (b : Block) (busy : Bool) (k : Nat) (i : Word) (s : State) :
    State.samples nch k i { s with blk := b, busy := busy } = { State.samples nch k i s with blk := b, busy := busy } := by
  induction k generalizing i s with
  | zero => rfl
  | succ k ih => exact ih (i + 1#32) (s.sampleAt nch i)

theorem ofNat_succ_add (i : Word) (k : Nat) : i + BitVec.ofNat 32 (k + 1) = i + 1#32 + BitVec.ofNat 32 k := by
  rw [BitVec.ofNat_add, BitVec.add_assoc, BitVec.add_comm (BitVec.ofNat 32 k)]

theorem State.samples_add (nch : BitVec 8) (a b : Nat) (i : Word) (s : State) :
    State.samples nch (a + b) i s = State.samples nch b (i + BitVec.ofNat 32 a) (State.samples nch a i s) := by
  induction a generalizing i s with
  | zero => simp [State.samples]
  | succ a ih => rw [Nat.succ_add, State.samples, ih, State.samples, ofNat_succ_add i a]

theorem toNat_succ_of_lt {n : Word} {num : BitVec 16} (h : n.toNat < num.toNat) : (n + 1#32).toNat = n.toNat + 1 := by
  have := num.isLt
  rw [BitVec.toNat_add, BitVec.toNat_ofNat]
  omega

/-- `k` turns of the loop with at least `k` ticks left are `k` samples from the current index on; `BLK.n` counts them, and `BUSY`
is 1 while a tick remains. -/
theorem State.blockTicks_eq_samples {k : Nat} {s : State} (hk : s.blk.n.toNat + k ≤ s.blk.num.toNat)
    (hb : s.busy = decide (s.blk.n.toNat < s.blk.num.toNat)) :
    State.blockTicks k s = { State.samples s.blk.nch k (s.blk.start + s.blk.n) s with
      blk := { s.blk with n := s.blk.n + BitVec.ofNat 32 k }
      busy := decide (s.blk.n.toNat + k < s.blk.num.toNat) } := by
  induction k generalizing s with
  | zero => simp [State.blockTicks, State.samples, ← hb]
  | succ k ih =>
    have hlt : s.blk.n.toNat < s.blk.num.toNat := by omega
    have hn := toNat_succ_of_lt hlt
    rw [State.blockTicks, State.blockTick_of_lt hlt, ih (by simp only [hn]; omega) rfl, State.samples_withBlock,
      State.voiceTick_eq_sampleAt]
    simp only [State.samples]
    rw [ofNat_succ_add s.blk.n k, hn, BitVec.add_assoc s.blk.start, Nat.add_right_comm, Nat.add_assoc _ k]

/-- All the ticks that are left: `BUSY` has fallen and `BLK.n = BLK.num`. -/
theorem State.blockTicks_to_end {k : Nat} {s : State} (hk : s.blk.n.toNat + k = s.blk.num.toNat)
    (hb : s.busy = decide (s.blk.n.toNat < s.blk.num.toNat)) :
    State.blockTicks k s = { State.samples s.blk.nch k (s.blk.start + s.blk.n) s with
      blk := { s.blk with n := s.blk.num.setWidth 32 }, busy := false } := by
  have hend : s.blk.n + BitVec.ofNat 32 k = s.blk.num.setWidth 32 := by
    apply BitVec.eq_of_toNat_eq
    have := s.blk.num.isLt
    rw [BitVec.toNat_add, BitVec.toNat_ofNat, BitVec.toNat_setWidth, ← hk]
    omega
  rw [State.blockTicks_eq_samples hk.le hb, hend, decide_eq_false (by omega)]

/-- RENDER_BLOCK as one transition: `num` samples from `start` on, in the state that the start of the block leaves. -/
theorem State.renderWhole_eq_samples {s : State} (h : s.life ≠ .idle) (nch : BitVec 8) (num : BitVec 16) (start : Word) :
    State.renderWhole nch num start s = { State.samples nch num.toNat start (s.beginBlock nch num start) with
      blk := { n := num.setWidth 32, num := num, start := start, nch := nch }, busy := false } := by
  rw [State.renderWhole, if_neg h, State.blockTicks_to_end (by simp) (by simp)]
  simp

/-! ### A block as steps of the machine (R280) -/

/-- A run starts with a step. -/
theorem core_run_succ {M : Host.Core} {s t : M.State} (h : M.step s = .next t) (k : Nat) : M.run (k + 1) s = M.run k t := by
  rw [Host.Core.run, h]

/-- With no turn laid down the ticks of a block follow one another to its end. -/
theorem run_blockTicks {k : Nat} {s : State} (ht : s.turns = []) (hk : s.blk.n.toNat + k = s.blk.num.toNat)
    (hb : s.busy = decide (s.blk.n.toNat < s.blk.num.toNat)) :
    Host.Core.run Sys2Proof.core k s = .next (State.blockTicks k s) := by
  induction k generalizing s with
  | zero => rfl
  | succ k ih =>
    have hlt : s.blk.n.toNat < s.blk.num.toNat := by omega
    have hturn : s.endTurn = s := by rw [State.endTurn, ht, List.tail_nil, ← ht]
    have hstep : step s = .next s.blockTick := by
      rw [step_of_tick (nextMove_of_busy (by simp [hb, hlt]) (.inl ht)), hturn]
    rw [core_run_succ (M := Sys2Proof.core) hstep, State.blockTicks]
    refine ih ?_ ?_ ?_
    all_goals rw [State.blockTick_of_lt hlt]
    · exact ht
    · simp only [toNat_succ_of_lt hlt]; omega

/-- With no turn laid down and no block in progress the oldest word presented runs (log entry 5). -/
theorem step_sequential {s : State} {w : Word64} {rest : List Word64} (ht : s.turns = []) (hb : s.busy = false)
    (hw : s.waiting = w :: rest) : step s = exec (decode w) { s with waiting := rest } := by
  rw [step_of_accept (nextMove_sequential ht hb hw), ht, List.tail_nil, ← ht]

/-- Settles O11: the first step starts the block, and the other steps are its ticks. -/
theorem wholeBlockBySteps : Obligations.WholeBlockBySteps := by
  intro s nch num start rest ht hb hw hlife
  have hlife' : State.life { s with waiting := rest } ≠ .idle := hlife
  have hstep : step s = .next (State.beginBlock nch num start { s with waiting := rest }) := by
    rw [step_sequential ht hb hw, decode_encode rfl, exec_renderBlock hlife']
  constructor
  · rw [core_run_succ (M := Sys2Proof.core) hstep, State.renderWhole, if_neg hlife']
    exact run_blockTicks ht (by simp) (by simp)
  · rw [State.renderWhole_eq_samples hlife']
    exact ⟨rfl, rfl⟩

/-! ### Two blocks in a row (R263) -/

/-- `S` and the resonance register are what the start of a block would make them again. -/
def State.SnapshotCurrent (s : State) : Prop := s.snap = s.pend.sanitise ∧ s.filt.res = clampN s.snap.filtRes qMin qMax

theorem State.beginBlock_snapshotCurrent (nch : BitVec 8) (num : BitVec 16) (start : Word) (s : State) :
    (s.beginBlock nch num start).SnapshotCurrent := ⟨rfl, rfl⟩

/-- No sample writes `P`, `S` or the resonance register. -/
theorem State.SnapshotCurrent.samples_keeps {s : State} (h : s.SnapshotCurrent) (nch : BitVec 8) (k : Nat) (i : Word) :
    (State.samples nch k i s).SnapshotCurrent := by
  induction k generalizing i s with
  | zero => exact h
  | succ k ih => exact ih (s := s.sampleAt nch i) h (i + 1#32)

/-- There a block starts with the block registers and `BUSY` alone. -/
theorem State.SnapshotCurrent.beginBlock_eq {s : State} (h : s.SnapshotCurrent) (nch : BitVec 8) (num : BitVec 16) (start : Word) :
    s.beginBlock nch num start =
      { s with blk := { n := 0#32, num := num, start := start, nch := nch }, busy := decide (0 < num.toNat) } := by
  obtain ⟨hsnap, hres⟩ := h
  simp only [State.beginBlock, State.snapshot, SvFilter.setRes, ← hsnap, ← hres]

/-- Settles O12: both are the samples of the first block and then those of the second, for the start of the second block writes the
block registers alone. -/
theorem blocksSplitEvenly : Obligations.BlocksSplitEvenly := by
  intro s nch a b start hlife hab hlife'
  have hsum : (a + b).toNat = a.toNat + b.toNat := by rw [BitVec.toNat_add, Nat.mod_eq_of_lt hab]
  have hstart : start + BitVec.ofNat 32 a.toNat = start + a.setWidth 32 := by rw [BitVec.ofNat_toNat]
  have hcurrent : (State.renderWhole nch a start s).SnapshotCurrent := by
    rw [State.renderWhole_eq_samples hlife]
    exact (State.beginBlock_snapshotCurrent nch a start s).samples_keeps nch a.toNat start
  have hwhole : s.beginBlock nch (a + b) start = { s.beginBlock nch a start with
      blk := { n := 0#32, num := a + b, start := start, nch := nch }, busy := decide (0 < (a + b).toNat) } := rfl
  rw [State.renderWhole_eq_samples hlife', hcurrent.beginBlock_eq, State.renderWhole_eq_samples hlife nch a start,
    State.renderWhole_eq_samples hlife nch (a + b) start, hwhole]
  simp only [State.samples_withBlock, hsum, State.samples_add, hstart]

end Sys2Proof.Machine
end

section
/-! ## The values a tick forms in a legal state (47_voice_renderer.md R265) -/

namespace Sys2Proof.Machine

/-! ### Ranges through an operation: the bounds, carried over exactly, stand within the new bounds -/

variable {x y lo hi lo' hi' : Num32}

/-- A value in a range times a factor that is not negative. -/
theorem fmul_range_of_bounds {c : Num32} (hx : inRange x lo hi = true) (hc : c.isFinite = true) (hc0 : 0 ≤ c.val)
    (hfinite : lo.isFinite = true ∧ hi.isFinite = true ∧ lo'.isNaN = false ∧ hi'.isNaN = false)
    (hbounds : lo'.val * 2 ^ 149 ≤ lo.val * c.val ∧ hi.val * c.val ≤ hi'.val * 2 ^ 149) :
    inRange (fmul x c) lo' hi' = true := by
  obtain ⟨hlof, hhif, hlo', hhi'⟩ := hfinite
  have hxf := inRange_finite hx hlof hhif
  obtain ⟨hlo, hhi⟩ := inRange_val hx
  exact inRange_of_val (fmul_not_nan hxf hc) hlo' hhi'
    (le_fmul hxf hc hlo' (hbounds.1.trans (mul_le_mul_of_nonneg_right hlo hc0)))
    (fmul_le hxf hc hhi' ((mul_le_mul_of_nonneg_right hhi hc0).trans hbounds.2))

/-- A value in a range that holds 0, times a value in [0, 1], stays in the range. -/
theorem fmul_unit_range {m : Num32} (hx : inRange x lo hi = true) (hm : inRange m zero one = true)
    (hfinite : lo.isFinite = true ∧ hi.isFinite = true) (hsign : lo.val ≤ 0 ∧ 0 ≤ hi.val) :
    inRange (fmul x m) lo hi = true := by
  obtain ⟨hm0, hm1⟩ := inRange_val hm
  rw [zero_val] at hm0
  rw [one_val] at hm1
  refine fmul_range_of_bounds hx (unit_finite hm) hm0
    ⟨hfinite.1, hfinite.2, isNaN_of_isFinite hfinite.1, isNaN_of_isFinite hfinite.2⟩ ⟨?_, ?_⟩
  · exact mul_le_mul_of_nonpos_left hm1 hsign.1
  · exact mul_le_mul_of_nonneg_left hm1 hsign.2

/-- A value in a range divided by a positive value. -/
theorem fdiv_range_of_bounds {c : Num32} (hx : inRange x lo hi = true) (hc : c.isFinite = true) (hc0 : 0 < c.val)
    (hfinite : lo.isFinite = true ∧ hi.isFinite = true ∧ lo'.isNaN = false ∧ hi'.isNaN = false)
    (hbounds : lo'.val * c.val ≤ lo.val * 2 ^ 149 ∧ hi.val * 2 ^ 149 ≤ hi'.val * c.val) :
    inRange (fdiv x c) lo' hi' = true := by
  obtain ⟨hlof, hhif, hlo', hhi'⟩ := hfinite
  have hxf := inRange_finite hx hlof hhif
  obtain ⟨hlo, hhi⟩ := inRange_val hx
  exact inRange_of_val (fdiv_not_nan hxf hc hc0) hlo' hhi'
    (le_fdiv hxf hc hc0 hlo' (hbounds.1.trans (mul_le_mul_of_nonneg_right hlo (by positivity))))
    (fdiv_le hxf hc hc0 hhi' ((mul_le_mul_of_nonneg_right hhi (by positivity)).trans hbounds.2))

/-- The sum of values in two ranges. -/
theorem fadd_range_of_bounds {lo₂ hi₂ : Num32} (hx : inRange x lo hi = true) (hy : inRange y lo₂ hi₂ = true)
    (hfinite : (lo.isFinite = true ∧ hi.isFinite = true) ∧ (lo₂.isFinite = true ∧ hi₂.isFinite = true) ∧
      lo'.isFinite = true ∧ hi'.isFinite = true)
    (hbounds : lo'.val ≤ lo.val + lo₂.val ∧ hi.val + hi₂.val ≤ hi'.val) : inRange (fadd x y) lo' hi' = true := by
  obtain ⟨hxb, hyb, hlo', hhi'⟩ := hfinite
  obtain ⟨hxlo, hxhi⟩ := inRange_val hx
  obtain ⟨hylo, hyhi⟩ := inRange_val hy
  exact fadd_inRange (inRange_finite hx hxb.1 hxb.2) (inRange_finite hy hyb.1 hyb.2) hlo' hhi' (by omega) (by omega)

end Sys2Proof.Machine

namespace Sys2Proof.Machine

/-! ### The LFO sample and the pitch (R251 to R254) -/

theorem State.tickLfo_range {s : State} (hs : s.Legal) : inRange s.tickLfo minusOne one = true :=
  lfoSample_range (State.lfoAdvance_phaseOk hs) (SnapshotBank.legal_lfo hs.snap).2

/-- 12 semitones to either side at most. -/
theorem State.tickPitchMod_range {s : State} (hs : s.Legal) :
    inRange s.tickPitchMod (f32 0xC1400000#32) (f32 0x41400000#32) = true :=
  have hsemitones : inRange (fmul s.tickLfo pitchRange) (f32 0xC1400000#32) (f32 0x41400000#32) = true :=
    fmul_range_of_bounds (State.tickLfo_range hs) (by decide) (by decide +kernel) (by decide) (by decide +kernel)
  fmul_unit_range hsemitones (multiplier_unit _ _) (by decide) (by decide +kernel)

/-- The slots' semitone offsets are legal in a legal snapshot (10_state.md R54, R55). -/
theorem SnapshotBank.legal_semi {sn : SnapshotBank} (h : sn.legal = true) :
    inRange sn.oscASemi semiMin semiMax = true ∧ inRange sn.oscBSemi semiMin semiMax = true := by
  simp only [SnapshotBank.legal, Bool.and_eq_true, and_assoc] at h
  obtain ⟨-, -, hA, hB, -⟩ := h
  exact ⟨hA, hB⟩

/-- 48 semitones of offset and 12 of modulation at most. -/
theorem State.semitoneSum_range {s : State} {semi : Num32} (hs : s.Legal) (hsemi : inRange semi semiMin semiMax = true) :
    inRange (fadd semi s.tickPitchMod) (f32 0xC2700000#32) (f32 0x42700000#32) = true :=
  fadd_range_of_bounds hsemi (State.tickPitchMod_range hs) (by decide) (by decide +kernel)

/-- 60 semitones are 5 octaves. -/
theorem octaves_range {x : Num32} (hx : inRange x (f32 0xC2700000#32) (f32 0x42700000#32) = true) :
    inRange (fdiv x semitonesPerOctave) minusFive five = true :=
  fdiv_range_of_bounds hx (by decide) (by decide +kernel) (by decide) (by decide +kernel)

theorem slotFreq_range {fs : Num32} (hfs : inRange fs fsMin fsMax = true) (baseF semi pmod : Num32) :
    inRange (slotFreq fs baseF semi pmod) zero (fmul fs half) = true :=
  clampN_inRange _ (zero_le_half_fs hfs)

/-! ### The slots and their mean (R255) -/

/-- The frequencies of a legal slot and their phase increments. -/
theorem Slot.legal_increments {fs : Num32} {k : Slot} (hfs : inRange fs fsMin fsMax = true) (hk : k.legal fs = true) :
    ∀ f ∈ [k.prim.freq, k.up.freq, k.down.freq],
      inRange f zero (fmul fs half) = true ∧ inRange (fdiv f fs) zero half = true := by
  obtain ⟨-, hp, -, ⟨-, hu⟩, -, hd⟩ := Slot.legal_iff.1 hk
  simp only [List.forall_mem_cons]
  exact ⟨⟨hp, increment_ok hfs hp⟩, ⟨hu, increment_ok hfs hu⟩, ⟨hd, increment_ok hfs hd⟩, nofun⟩

/-- The output of UNISON_TICK is a waveform sample or the average of three, at the phases and the shape it leaves. -/
theorem Slot.tick_range {fs : Num32} {sn : SnapshotBank} {k : Slot} (h : (k.tick fs sn).1.legal fs = true) :
    inRange (k.tick fs sn).2 minusOne one = true := by
  obtain ⟨hp, -, hshape, ⟨hup, -⟩, hdp, -⟩ := Slot.legal_iff.1 h
  have hprim : inRange (k.prim.tick fs).2 minusOne one = true := oscWave_range hp hshape
  by_cases hmode : sn.unisonMode = 3#32
  · rw [Slot.tick_of_average hmode]
    exact unisonMean_range hprim (oscWave_range hup hshape) (oscWave_range hdp hshape)
  · rw [Slot.tick_of_primary hmode]
    exact hprim

theorem State.tickSlotA_legal {s : State} (hs : s.Legal) : s.tickSlotA.1.legal s.fs = true := Slot.render_legal hs.fs hs.oscA

theorem State.tickSlotB_legal {s : State} (hs : s.Legal) : s.tickSlotB.1.legal s.fs = true := Slot.render_legal hs.fs hs.oscB

theorem State.tickSlotA_range {s : State} (hs : s.Legal) : inRange s.tickSlotA.2 minusOne one = true :=
  Slot.tick_range (State.tickSlotA_legal hs)

theorem State.tickSlotB_range {s : State} (hs : s.Legal) : inRange s.tickSlotB.2 minusOne one = true :=
  Slot.tick_range (State.tickSlotB_legal hs)

/-- Half the sum of two samples. -/
theorem State.tickMix_range {s : State} (hs : s.Legal) : inRange s.tickMix minusOne one = true :=
  have hsum : inRange (fadd s.tickSlotA.2 s.tickSlotB.2) minusTwo two = true :=
    fadd_range_of_bounds (State.tickSlotA_range hs) (State.tickSlotB_range hs) (by decide) (by decide +kernel)
  fmul_range_of_bounds hsum (by decide) (by decide +kernel) (by decide) (by decide +kernel)

/-! ### The envelopes' levels and the amplitude (R257, R258) -/

theorem State.tickFenv_legal {s : State} (hs : s.Legal) : s.tickFenv.legal = true :=
  Envelope.next_legal hs.fs (SnapshotBank.legal_env hs.snap).2 hs.fenv

theorem State.tickAenv_legal {s : State} (hs : s.Legal) : s.tickAenv.legal = true :=
  Envelope.next_legal hs.fs (SnapshotBank.legal_env hs.snap).1 hs.aenv

theorem Envelope.legal_level {e : Envelope} (h : e.legal = true) : inRange e.level zero one = true :=
  (Envelope.legal_iff.1 h).1

theorem State.tickTremolo_range (s : State) : inRange s.tickTremolo zero one = true := clampN_inRange _ (by decide +kernel)

theorem State.tickAmp_range {s : State} (hs : s.Legal) : inRange s.tickAmp zero one = true :=
  fmul_unit_pos (Envelope.legal_level (State.tickAenv_legal hs)) (State.tickTremolo_range s)

/-- Settles O33: value by value, in the order of the ten steps; the cutoff, the drive, the tremolo and the slots' frequencies are
clamped. -/
theorem tickValueBounds : Obligations.TickValueBounds := by
  intro s hlegal
  have hs := State.legal_iff.1 hlegal
  obtain ⟨hsemiA, hsemiB⟩ := SnapshotBank.legal_semi hs.snap
  have hsumA := State.semitoneSum_range hs hsemiA
  have hsumB := State.semitoneSum_range hs hsemiB
  have hslots := List.forall_mem_append.2
    ⟨Slot.legal_increments hs.fs (State.tickSlotA_legal hs), Slot.legal_increments hs.fs (State.tickSlotB_legal hs)⟩
  exact ⟨State.tickLfo_range hs, State.tickPitchMod_range hs, hsumA, hsumB, octaves_range hsumA, octaves_range hsumB,
    slotFreq_range hs.fs _ _ _, slotFreq_range hs.fs _ _ _, hslots,
    lfo_increment_ok hs.fs (SnapshotBank.legal_lfo hs.snap).1,
    State.tickSlotA_range hs, State.tickSlotB_range hs, State.tickMix_range hs, clampN_inRange _ (by decide +kernel),
    fold_range _ _, Envelope.legal_level (State.tickFenv_legal hs), clampN_inRange _ (by decide +kernel),
    Envelope.legal_level (State.tickAenv_legal hs), State.tickTremolo_range s, State.tickAmp_range hs,
    State.tickXmod_range hs⟩

/-! ### The sample of a voice gone idle (R261) -/

/-- A value that is 0 is one of the two zeros. -/
theorem eq_zero_of_val {x : Num32} (hx : x.isNaN = false) (h : x.val = 0) : x = f32 0x00000000#32 ∨ x = f32 0x80000000#32 := by
  have hmag : x.mag = 0 := mag_eq_zero_iff.2 h
  cases hsign : x.sign
  · exact .inl (eq_of_sign_mag hx (by decide) hsign hmag)
  · exact .inr (eq_of_sign_mag hx (by decide) hsign hmag)

/-- A legal envelope in IDLE is at level `+0` (10_state.md R41). -/
theorem Envelope.level_of_idle {e : Envelope} (he : e.legal = true) (h : e.stage = .idle) : e.level = zero := by
  obtain ⟨-, -, -, hok⟩ := Envelope.legal_iff.1 he
  simp only [Envelope.stageOk, h, Bool.and_eq_true, decide_eq_true_eq, and_assoc] at hok
  exact hok.1

/-- Settles O34: the envelope stays in IDLE at level `+0`, so the amplitude is a zero and a finite value times it is one. -/
theorem idleTicksWriteZeros : Obligations.IdleTicksWriteZeros := by
  intro s hlegal hidle hfinite
  have hs := State.legal_iff.1 hlegal
  have hlevel : s.tickAenv.level = zero := by
    rw [State.tickAenv, Envelope.next_of_idle hidle, Envelope.level_of_idle hs.aenv hidle]
  have htremolo := State.tickTremolo_range s
  obtain ⟨hampf, hamp⟩ : s.tickAmp.isFinite = true ∧ s.tickAmp.val = 0 := by
    rw [State.tickAmp, hlevel, fmul_comm_of_finite (by decide) (unit_finite htremolo)]
    exact fmul_val_zero (unit_finite htremolo) (by decide) zero_val
  obtain ⟨hsamplef, hsample⟩ := fmul_val_zero hfinite hampf hamp
  exact eq_zero_of_val (isNaN_of_isFinite hsamplef) hsample

end Sys2Proof.Machine
end

section
/-! ## Who writes what: `S`, `P`, `BUSY` and `LIFE` (48_commands.md R288, R291; 60_exceptions.md R314, R317, R321) -/

namespace Sys2Proof.Machine

/-! ### A SET_PARAM beside a command of `CPORT` (R314) -/

/-- Settles O14: of the commands that are no SET_PARAM, past their guards only the snapshot points read `P`, and none writes it. -/
theorem setParamCommutesWithoutSnapshot : Obligations.SetParamCommutesWithoutSnapshot := by
  intro i s t p value hop hsnap h
  cases i
  case nop | prepare | reserved => cases h; rfl
  case startNote => cases hsnap
  case stopNote tail =>
    by_cases hidle : s.life = .idle
    · rw [exec_stopNote_of_idle hidle] at h
      cases h
      exact exec_stopNote_of_idle (s := s.writeParam p value) hidle tail
    · cases tail
      case true => simp [snapshotPoint, hidle] at hsnap
      case false =>
        rw [exec_stopNote_atOnce hidle] at h
        cases h
        exact exec_stopNote_atOnce (s := s.writeParam p value) hidle
  case renderBlock nch num start =>
    have hidle : s.life = .idle := by simpa [snapshotPoint] using hsnap
    rw [exec_renderBlock_of_idle hidle] at h
    cases h
    exact exec_renderBlock_of_idle (s := s.writeParam p value) hidle nch num start
  all_goals exact absurd rfl hop

/-! ### The snapshot bank (R291) -/

theorem snapshotPoint_of_setParam {i : Instr} (h : opcodeOf i = 0x02#8) (s : State) : snapshotPoint i s = false := by
  cases i
  case startNote | stopNote | renderBlock => cases h
  all_goals rfl

/-- A command writes `S` from `P` where it is a snapshot point and nowhere else. -/
theorem ExecEffect.snap {i : Instr} {s t : State} (h : ExecEffect s i t) :
    t.snap = if snapshotPoint i s then s.pend.sanitise else s.snap := by
  cases h
  case unchanged hsnap => simp [hsnap]
  case writeParam p c hop => simp [snapshotPoint_of_setParam hop]
  case prepare | startNote | stopAtOnce => rfl
  case stopWithTail hlife | beginBlock hlife _ _ _ => simp [snapshotPoint, hlife]

theorem State.blockTick_snap (s : State) : s.blockTick.snap = s.snap := by
  by_cases h : s.blk.n.toNat < s.blk.num.toNat
  · rw [State.blockTick_of_lt h]; rfl
  · rw [State.blockTick_of_not_lt h]

/-- Settles O24: a tick keeps `S`, and what a command does with it depends on `LIFE` and `P`, which acceptance leaves alone. -/
theorem snapshotOnlyAtItsPoints : Obligations.SnapshotOnlyAtItsPoints := by
  refine ⟨fun i s t h => (exec_effect h).snap, State.blockTick_snap, fun s t h => ?_⟩
  obtain ⟨hm, rfl⟩ | ⟨hm, rfl⟩ | ⟨w, rest, hm, he⟩ | ⟨hm, rfl⟩ := step_cases h <;> rw [hm]
  · rfl
  · exact State.blockTick_snap s.endTurn
  · exact (exec_effect he).snap
  · rfl

/-! ### The rights of the two ports (R317) -/

/-- Of the commands only SET_PARAM writes `P`. -/
theorem ExecEffect.keeps_pend {i : Instr} {s t : State} (h : ExecEffect s i t) (hop : opcodeOf i ≠ 0x02#8) : t.pend = s.pend := by
  cases h
  case writeParam _ _ hset => exact absurd hset hop
  all_goals rfl

/-- SET_PARAM writes `P` alone. -/
theorem ExecEffect.of_setParam {i : Instr} {s t : State} (h : ExecEffect s i t) (hop : opcodeOf i = 0x02#8) :
    t = { s with pend := t.pend } := by
  cases h
  case unchanged | writeParam => rfl
  all_goals cases hop

/-- Settles O25: a word of `PPORT` is a SET_PARAM, and a word of `CPORT` is none. -/
theorem portWriteRights : Obligations.PortWriteRights := by
  intro s t w rest hm h
  rw [step_of_accept hm] at h
  have heffect := exec_effect h
  have hop := opcodeOf_decode w
  refine ⟨fun hp => ?_, fun hc => heffect.keeps_pend fun hset => ?_⟩
  · exact heffect.of_setParam (hop.trans (portOf_eq_pport_iff.1 hp))
  · simp [portOf_eq_pport_iff.2 (hop.symm.trans hset)] at hc

/-! ### `BUSY` (R288) -/

/-- A tick is a move of a block in progress only. -/
theorem busy_of_nextMove_tick {s : State} (h : s.nextMove = .tick) : s.busy = true := by
  have haccept (p : Port) : acceptFrom p s.waiting ≠ .tick := by
    unfold acceptFrom; split <;> exact nofun
  unfold State.nextMove at h
  split at h
  case h_1 => cases h
  case h_2 => exact absurd h (haccept _)
  case h_3 =>
    split at h
    case isTrue hb => exact hb
    case isFalse => exact absurd h (haccept _)
  case h_4 =>
    split at h
    case isTrue hb => exact hb
    case isFalse => split at h <;> cases h

/-- A command writes `BUSY` only where RENDER_BLOCK starts a block. -/
theorem ExecEffect.busy {i : Instr} {s t : State} (h : ExecEffect s i t) :
    t.busy = s.busy ∨ (opcodeOf i = 0x05#8 ∧ s.life ≠ .idle ∧ t.blk.n = 0#32) := by
  cases h
  case beginBlock hlife _ _ _ => exact .inr ⟨rfl, hlife, rfl⟩
  all_goals exact .inl rfl

/-- A tick that leaves `BUSY = 0` leaves no tick. -/
theorem State.blockTick_spent {s : State} (h : s.blockTick.busy = false) :
    s.blockTick.blk.num.toNat ≤ s.blockTick.blk.n.toNat := by
  by_cases hlt : s.blk.n.toNat < s.blk.num.toNat
  · rw [State.blockTick_of_lt hlt] at h ⊢
    exact Nat.not_lt.1 (of_decide_eq_false h)
  · rw [State.blockTick_of_not_lt hlt]
    exact Nat.not_lt.1 hlt

/-- What a step can do to `BUSY`: keep it, clear it with a reset pulse, write it in a tick of the block in progress, or at the start
of a block, which is accepted with `BUSY = 0`. -/
theorem step_busy {s t : State} (h : step s = .next t) :
    t.busy = s.busy ∨ (s.nextMove = .reset ∧ t.busy = false) ∨
    (s.nextMove = .tick ∧ s.busy = true ∧ (t.busy = false → t.blk.num.toNat ≤ t.blk.n.toNat)) ∨
    ∃ w rest, s.nextMove = .accept w rest ∧ opField w = 0x05#8 ∧ s.busy = false ∧ s.life ≠ .idle ∧ t.blk.n = 0#32 := by
  obtain ⟨hm, rfl⟩ | ⟨hm, rfl⟩ | ⟨w, rest, hm, he⟩ | ⟨-, rfl⟩ := step_cases h
  · exact .inr (.inl ⟨hm, rfl⟩)
  · exact .inr (.inr (.inl ⟨hm, busy_of_nextMove_tick hm, State.blockTick_spent⟩))
  · obtain hkeep | ⟨hop, hlife, hn⟩ := (exec_effect he).busy
    · exact .inl hkeep
    · rw [opcodeOf_decode] at hop
      have hport : portOf w = .cport := by simp [portOf, hop]
      exact .inr (.inr (.inr ⟨w, rest, hm, hop, (nextMove_accept hm).2 hport, hlife, hn⟩))
  · exact .inl rfl

/-- Settles O29: of the steps that write `BUSY`, only the start of a block finds it at 0. -/
theorem busyRisesAndFalls : Obligations.BusyRisesAndFalls := by
  intro s t h
  obtain hkeep | ⟨hm, hfell⟩ | ⟨hm, hbusy, hspent⟩ | ⟨w, rest, hm, hop, hfree, hlife, hn⟩ := step_busy h
  · exact ⟨fun h0 h1 => by simp [hkeep, h0] at h1, fun h1 h0 => by simp [hkeep, h1] at h0⟩
  · exact ⟨fun _ h1 => by simp [hfell] at h1, fun _ _ => .inl hm⟩
  · exact ⟨fun h0 => by simp [hbusy] at h0, fun _ h0 => .inr ⟨hm, hspent h0⟩⟩
  · exact ⟨fun _ _ => ⟨⟨w, rest, hm, hop⟩, hlife, hn⟩, fun h1 => by simp [hfree] at h1⟩

/-! ### The end of idleness (R321) -/

/-- Of the commands only START_NOTE takes a voice out of IDLE. -/
theorem ExecEffect.life_of_idle {i : Instr} {s t : State} (h : ExecEffect s i t) (hidle : s.life = .idle) :
    t.life = .idle ∨ opcodeOf i = 0x03#8 := by
  cases h
  case unchanged | writeParam => exact .inl hidle
  case prepare => exact .inl rfl
  case startNote => exact .inr rfl
  case stopWithTail hlife | stopAtOnce hlife | beginBlock hlife _ _ _ => exact absurd hidle hlife

theorem State.blockTick_life_of_idle {s : State} (hidle : s.life = .idle) : s.blockTick.life = .idle := by
  by_cases h : s.blk.n.toNat < s.blk.num.toNat
  · rw [State.blockTick_of_lt h]
    simp [State.tickLife, hidle]
  · rw [State.blockTick_of_not_lt h]
    exact hidle

/-- Settles O30: a reset pulse and a tick leave an idle voice idle, and of the commands all but START_NOTE do. -/
theorem idleEndsOnlyByStartNote : Obligations.IdleEndsOnlyByStartNote := by
  intro s t h hidle hlife
  obtain ⟨-, rfl⟩ | ⟨-, rfl⟩ | ⟨w, rest, hm, he⟩ | ⟨-, rfl⟩ := step_cases h
  · exact absurd rfl hlife
  · exact absurd (State.blockTick_life_of_idle (s := s.endTurn) hidle) hlife
  · obtain hkeep | hop := (exec_effect he).life_of_idle hidle
    · exact absurd hkeep hlife
    · exact ⟨w, rest, hm, opcodeOf_decode w ▸ hop⟩
  · exact absurd hidle hlife

end Sys2Proof.Machine
end
